-- ==== Sys2Proof/Word.lean ====
section
/-! DEFINITION. The word and byte types of the block (spec/00_scope.md R11). -/

namespace Sys2Proof

/-- A 64-bit value: an address, a register cell, a bus (R10, R11). -/
abbrev Word := BitVec 64

/-- A byte of memory or of a cache line. -/
abbrev Byte := BitVec 8

/-- zext64: a narrower value as a 64-bit value (R11). -/
def zext64 {n : Nat} (v : BitVec n) : Word := v.setWidth 64

end Sys2Proof
end

