-- ==== Sys2Proof/Forms.lean ====
section
/-! DEFINITION. What an instruction is made of before and after it is decoded: the request on the command port
(spec/30_encoding.md R300), the engine's instruction record (R310, R311), the operand forms (R311, R313, R314), and
the statuses and response of the port (R306, spec/60_exceptions.md R700). -/

namespace Sys2Proof

/-- A request on the port: the command word and the three operand buses (R300). -/
structure Request where
  cmd : BitVec 16
  a : Word
  b : Word
  d : Byte
  deriving DecidableEq, Repr

/-- The parts of `disp(base, index, scale)` beside the displacement (R314); base and index are register cells. -/
structure AddrParts where
  base : Option (BitVec 4)
  index : Option (BitVec 4)
  scale : Word
  deriving DecidableEq, Repr

/-- An operand as the record holds it: KIND, VAL and SEL (R311). For KIND 4 the record may hold the address still
unresolved: VAL is then the displacement and `parts` names the registers and the scale of R314, which R654 resolves
at the start of the instruction (DESIGN CHOICE, log 13; safe). -/
structure RawOperand where
  kind : BitVec 3
  val : Word
  sel : BitVec 7
  parts : Option AddrParts
  deriving DecidableEq, Repr

/-- The client's decoded instruction record (R310). -/
structure Record where
  tag : BitVec 4
  src : RawOperand
  dst : RawOperand
  deriving DecidableEq, Repr

/-- A memory-indirect address, `disp + x_base + x_index * scale` (R314). -/
structure AddrExpr where
  disp : Word
  base : Option (BitVec 4)
  index : Option (BitVec 4)
  scale : Word
  deriving DecidableEq, Repr

/-- The operand variants (R311): Empty, Immediate, Register, MemoryDirect, MemoryIndirect. A register operand keeps
the selector's CELL and VIEW as they stand in SEL. -/
inductive Operand where
  | empty
  | imm (v : Word)
  | reg (cell : BitVec 4) (view : BitVec 3)
  | memDirect (a : Word)
  | memIndirect (e : AddrExpr)
  deriving DecidableEq, Repr

/-- The views of a register cell (R304, R500): bits 63:0, 31:0, 15:0, 7:0 and 15:8. -/
inductive View where
  | q
  | d
  | w
  | bl
  | bh
  deriving DecidableEq, Repr

/-- STATUS (R700); `Status.code` gives each its 3 bits. The value 7 is reserved and never returned, so it has no name
here. -/
inductive Status where
  | ok
  | malformedOperand
  | unknownRegister
  | notImplemented
  | outOfBounds
  | pageFault
  | misaligned
  deriving DecidableEq, Repr

/-- The response of a command: STATUS and RDATA (R300, R306). -/
structure Response where
  status : Status
  rdata : Word
  deriving DecidableEq, Repr

end Sys2Proof
end

