-- ==== Sys2Proof/Config.lean ====
section
/-! DEFINITION. The implementation parameters of spec/00_scope.md R10. The OPEN ones that stay fixed for a machine
are one record of plain data, held in the state so that a claim quantifies over them (log 4). The spec leaves no
result undefined, so there is no free value. -/

namespace Sys2Proof

/-- N_SETS, fixed at 64 (R10). -/
abbrev nSets : Nat := 64

/-- LINE_BYTES (R10). -/
abbrev lineBytes : Nat := 64

/-- SLOT, the engine's instruction-slot width (R10, R653). -/
def slot : Word := 0x40

/-- The largest recency counter, 2^(TIME_BITS-1) - 1 with TIME_BITS = 64 (R10, R406). -/
def maxTime : Int := 2 ^ 63 - 1

/-- PT_ROOT_SRC (R10, R651): where the engine takes the page-table root from. -/
inductive RootSrc where
  | gprRbp
  | const (r : Word)
  deriving DecidableEq, Repr

/-- The OPEN parameters that stay fixed for a machine: N_WAYS, MEM_SIZE, PT_ROOT_SRC (R10). -/
structure Params where
  nWays : Nat
  memSize : Nat
  rootSrc : RootSrc
  deriving DecidableEq, Repr

/-- The values R10 admits: N_WAYS >= 1; MEM_SIZE a multiple of 64 with 64 <= MEM_SIZE <= 2^52. -/
abbrev Params.wf (p : Params) : Prop :=
  1 ≤ p.nWays ∧ p.memSize % 64 = 0 ∧ 64 ≤ p.memSize ∧ p.memSize ≤ 2 ^ 52

/-- The configuration `State.reset` names: the default of spec/95_test_vectors.md (N_WAYS = 2, MEM_SIZE = 0x10000),
with the root of its program P4 (DESIGN CHOICE, log 4; unsafe for a claim about `State.reset` only). -/
def Params.default : Params := { nWays := 2, memSize := 0x10000, rootSrc := .const 0x1000 }

end Sys2Proof
end

