-- ==== Sys2Proof/Syntax.lean ====
section
/-! DEFINITION. The instructions: one constructor for each row of spec/opcode_table.json. -/

namespace Sys2Proof

/-- Every row of the opcode table: the fifteen commands of the block with the buses they use (R302), the reserved
command opcodes (R307), the engine's eleven opcodes and its reserved TAGs (R310). A bus a command ignores is no part of
its instruction (R303). A row that matches several words keeps the bits that tell them apart. -/
inductive Instr where
  | crd (a : Word)
  | cwr (a : Word) (d : Byte)
  | xlt (a : Word) (b : Word)
  | rrd (cell : BitVec 4) (view : BitVec 3)
  | rwr (cell : BitVec 4) (view : BitVec 3) (a : Word)
  | iprd
  | ipwr (a : Word)
  | frd
  | fclr
  | aluAdd (a : Word) (b : Word)
  | aluSub (a : Word) (b : Word)
  | aluCmp (a : Word) (b : Word)
  | ptwr (lvl : BitVec 2) (a : Word) (b : Word) (present : Bool)
  | brd64 (a : Word)
  | bwr64 (a : Word) (b : Word)
  | reservedOp0 (low : BitVec 11)
  | reservedOp16to31 (low : BitVec 15)
  | mov (src : Operand) (dst : Operand)
  | push (src : Operand) (dst : Operand)
  | pop (src : Operand) (dst : Operand)
  | leave (src : Operand) (dst : Operand)
  | call (src : Operand) (dst : Operand)
  | ret (src : Operand) (dst : Operand)
  | add (src : Operand) (dst : Operand)
  | sub (src : Operand) (dst : Operand)
  | cmp (src : Operand) (dst : Operand)
  | jne (src : Operand) (dst : Operand)
  | jmp (src : Operand) (dst : Operand)
  | reservedTag11 (src : Operand) (dst : Operand)
  | reservedTag12 (src : Operand) (dst : Operand)
  | reservedTag13 (src : Operand) (dst : Operand)
  | reservedTag14 (src : Operand) (dst : Operand)
  | reservedTag15 (src : Operand) (dst : Operand)
  deriving DecidableEq, Repr

end Sys2Proof
end

