-- ==== Sys2Proof/WellFormed.lean ====
section
/-! DEFINITION. Which instructions an encoding exists for: a memory-indirect operand's scale is 1, 2, 4 or 8
(spec/30_encoding.md R314). Every other field has exactly the width of its place in the word or record. -/

namespace Sys2Proof

/-- The scale values R314 admits. -/
def scaleOk (scale : Word) : Bool :=
  scale == 1 || scale == 2 || scale == 4 || scale == 8

/-- An operand the record can hold. -/
def Operand.wf : Operand → Bool
  | .memIndirect e => scaleOk e.scale
  | .empty => true
  | .imm _ => true
  | .reg _ _ => true
  | .memDirect _ => true

/-- The operands of an instruction. -/
def Instr.operands : Instr → List Operand
  | .crd _ => []
  | .cwr _ _ => []
  | .xlt _ _ => []
  | .rrd _ _ => []
  | .rwr _ _ _ => []
  | .iprd => []
  | .ipwr _ => []
  | .frd => []
  | .fclr => []
  | .aluAdd _ _ => []
  | .aluSub _ _ => []
  | .aluCmp _ _ => []
  | .ptwr _ _ _ _ => []
  | .brd64 _ => []
  | .bwr64 _ _ => []
  | .reservedOp0 _ => []
  | .reservedOp16to31 _ => []
  | .mov src dst => [src, dst]
  | .push src dst => [src, dst]
  | .pop src dst => [src, dst]
  | .leave src dst => [src, dst]
  | .call src dst => [src, dst]
  | .ret src dst => [src, dst]
  | .add src dst => [src, dst]
  | .sub src dst => [src, dst]
  | .cmp src dst => [src, dst]
  | .jne src dst => [src, dst]
  | .jmp src dst => [src, dst]
  | .reservedTag11 src dst => [src, dst]
  | .reservedTag12 src dst => [src, dst]
  | .reservedTag13 src dst => [src, dst]
  | .reservedTag14 src dst => [src, dst]
  | .reservedTag15 src dst => [src, dst]

/-- An instruction is well formed when each of its operands is. -/
def Instr.wf (i : Instr) : Bool := i.operands.all Operand.wf

end Sys2Proof
end

