-- ==== Sys2Proof/Decode.lean ====
section
/-! DEFINITION. Decoding and encoding: the command word (spec/30_encoding.md R301 to R308) and the instruction record
(R310, R311, R314). Both decoders are total; what they do not accept they name. -/

namespace Sys2Proof

/-- What is presented to a decoder: a request on the port, or a record of the engine's program. -/
inductive Encoded where
  | request (r : Request)
  | record (r : Record)
  deriving DecidableEq, Repr

/-- Why a decoder accepts no instruction. -/
inductive DecodeError where
  /-- A must-be-zero field of the command word is not zero (R303): NotImplemented, RDATA = zext64(CMD). -/
  | mustBeZero (cmd : BitVec 16)
  /-- An operand KIND of 5 to 7 (R671): NotImplemented. -/
  | reservedKind (kind : BitVec 3)
  /-- A TAG of 11 to 15 whose operands are no operands either (R671): NotImplemented. -/
  | reservedTag (tag : BitVec 4)
  /-- A field R311 gives as 0 is not 0 (DESIGN CHOICE, log 12; safe: the step stops in a fault): NotImplemented. -/
  | unusedField
  /-- A scale other than 1, 2, 4 and 8 (R314): MalformedOperand. -/
  | badScale (scale : Word)
  deriving DecidableEq, Repr

/-- The status an engine step or a command ends with when its decoder answers this error (R303, R314, R671). -/
def DecodeError.status : DecodeError → Status
  | .mustBeZero _ => .notImplemented
  | .reservedKind _ => .notImplemented
  | .reservedTag _ => .notImplemented
  | .unusedField => .notImplemented
  | .badScale _ => .malformedOperand

/-- The info an engine step that faults on this error has: R700 gives MalformedOperand the value 0; for the others no
command failed, so there is none (log 16). -/
def DecodeError.info : DecodeError → Option Word
  | .mustBeZero _ => none
  | .reservedKind _ => none
  | .reservedTag _ => none
  | .unusedField => none
  | .badScale _ => some 0

/-! ### The command word (R301) -/

/-- OP, bits 15:11. -/
def opOf (cmd : BitVec 16) : BitVec 5 := cmd.extractLsb' 11 5

/-- CELL, bits 10:7. -/
def cellOf (cmd : BitVec 16) : BitVec 4 := cmd.extractLsb' 7 4

/-- VIEW, bits 6:4. -/
def viewOf (cmd : BitVec 16) : BitVec 3 := cmd.extractLsb' 4 3

/-- LVL, bits 3:2. -/
def lvlOf (cmd : BitVec 16) : BitVec 2 := cmd.extractLsb' 2 2

/-- A row of the opcode map: the word matches when `CMD & mask = match` (R302); otherwise a must-be-zero field is not
zero, since the row was picked by OP (R303). -/
def matchRow (cmd mask pattern : BitVec 16) (i : Instr) : Except DecodeError Instr :=
  if cmd &&& mask = pattern then .ok i else .error (.mustBeZero cmd)

/-- Decodes a request, in the order of R308: the reserved opcodes first, then the must-be-zero fields. Whether a
selector names a register is the meaning's own check (R505, R506). -/
def decodeRequest (r : Request) : Except DecodeError Instr :=
  match (opOf r.cmd).toNat with
  | 0 => .ok (.reservedOp0 (r.cmd.extractLsb' 0 11))
  | 1 => matchRow r.cmd 0xFFFF 0x0800 (.crd r.a)
  | 2 => matchRow r.cmd 0xFFFF 0x1000 (.cwr r.a r.d)
  | 3 => matchRow r.cmd 0xFFFF 0x1800 (.xlt r.a r.b)
  | 4 => matchRow r.cmd 0xF80F 0x2000 (.rrd (cellOf r.cmd) (viewOf r.cmd))
  | 5 => matchRow r.cmd 0xF80F 0x2800 (.rwr (cellOf r.cmd) (viewOf r.cmd) r.a)
  | 6 => matchRow r.cmd 0xFFFF 0x3000 .iprd
  | 7 => matchRow r.cmd 0xFFFF 0x3800 (.ipwr r.a)
  | 8 => matchRow r.cmd 0xFFFF 0x4000 .frd
  | 9 => matchRow r.cmd 0xFFFF 0x4800 .fclr
  | 10 => matchRow r.cmd 0xFFFF 0x5000 (.aluAdd r.a r.b)
  | 11 => matchRow r.cmd 0xFFFF 0x5800 (.aluSub r.a r.b)
  | 12 => matchRow r.cmd 0xFFFF 0x6000 (.aluCmp r.a r.b)
  | 13 => matchRow r.cmd 0xFFF3 0x6800 (.ptwr (lvlOf r.cmd) r.a r.b (r.d.getLsbD 0))
  | 14 => matchRow r.cmd 0xFFFF 0x7000 (.brd64 r.a)
  | 15 => matchRow r.cmd 0xFFFF 0x7800 (.bwr64 r.a r.b)
  | _ => .ok (.reservedOp16to31 (r.cmd.extractLsb' 0 15))

/-! ### The instruction record (R310, R311) -/

/-- CELL of an operand's SEL, `{CELL[3:0], VIEW[2:0]}` (R311). -/
def selCell (sel : BitVec 7) : BitVec 4 := sel.extractLsb' 3 4

/-- VIEW of an operand's SEL (R311). -/
def selView (sel : BitVec 7) : BitVec 3 := sel.extractLsb' 0 3

/-- The fields R311 gives as 0 for a KIND: the operand is accepted only where they are (log 12). -/
def ifUnusedZero (zero : Bool) (o : Operand) : Except DecodeError Operand :=
  if zero then .ok o else .error .unusedField

/-- Decodes one operand (R311). A KIND 4 without address parts holds its final address in VAL; with them, VAL is the
displacement of R314. Of a scale outside R314 and a SEL that is not 0 the spec gives no order: the scale decides (DESIGN
CHOICE, log 28). -/
def decodeOperand (o : RawOperand) : Except DecodeError Operand :=
  match o.kind.toNat, o.parts with
  | 0, none => ifUnusedZero (o.val == 0 && o.sel == 0) .empty
  | 1, none => ifUnusedZero (o.sel == 0) (.imm o.val)
  | 2, none => ifUnusedZero (o.val == 0) (.reg (selCell o.sel) (selView o.sel))
  | 3, none => ifUnusedZero (o.sel == 0) (.memDirect o.val)
  | 4, none => ifUnusedZero (o.sel == 0) (.memIndirect { disp := o.val, base := none, index := none, scale := 1 })
  | 4, some p =>
    if scaleOk p.scale then
      ifUnusedZero (o.sel == 0) (.memIndirect { disp := o.val, base := p.base, index := p.index, scale := p.scale })
    else .error (.badScale p.scale)
  | 5, _ => .error (.reservedKind o.kind)
  | 6, _ => .error (.reservedKind o.kind)
  | 7, _ => .error (.reservedKind o.kind)
  | _, _ => .error .unusedField

/-- The instruction of a TAG (R310). -/
def instrOfTag (tag : BitVec 4) (src dst : Operand) : Instr :=
  match tag.toNat with
  | 0 => .mov src dst
  | 1 => .push src dst
  | 2 => .pop src dst
  | 3 => .leave src dst
  | 4 => .call src dst
  | 5 => .ret src dst
  | 6 => .add src dst
  | 7 => .sub src dst
  | 8 => .cmp src dst
  | 9 => .jne src dst
  | 10 => .jmp src dst
  | 11 => .reservedTag11 src dst
  | 12 => .reservedTag12 src dst
  | 13 => .reservedTag13 src dst
  | 14 => .reservedTag14 src dst
  | _ => .reservedTag15 src dst

/-- KIND values 5 to 7 are reserved (R311, R671). -/
def kindReserved (kind : BitVec 3) : Bool := decide (5 ≤ kind.toNat)

/-- TAG values 11 to 15 are reserved (R310, R671). -/
def tagReserved (tag : BitVec 4) : Bool := decide (11 ≤ tag.toNat)

/-- Decodes a record. A reserved KIND or TAG is NotImplemented whatever the other fields are (R671); then the operands'
own errors, src before dst. The spec gives no order of several errors of one record (DESIGN CHOICE, log 28). -/
def decodeRecord (r : Record) : Except DecodeError Instr :=
  if kindReserved r.src.kind then .error (.reservedKind r.src.kind)
  else if kindReserved r.dst.kind then .error (.reservedKind r.dst.kind)
  else
    match decodeOperand r.src, decodeOperand r.dst with
    | .ok src, .ok dst => .ok (instrOfTag r.tag src dst)
    | .error e, _ => .error (if tagReserved r.tag then .reservedTag r.tag else e)
    | .ok _, .error e => .error (if tagReserved r.tag then .reservedTag r.tag else e)

/-- The one decoder. -/
def decode : Encoded → Except DecodeError Instr
  | .request r => decodeRequest r
  | .record r => decodeRecord r

/-! ### Encoding -/

/-- The command word of RRD (R505). -/
def rrdCmd (cell : BitVec 4) (view : BitVec 3) : BitVec 16 :=
  0x2000 ||| (cell.setWidth 16 <<< 7) ||| (view.setWidth 16 <<< 4)

/-- The command word of RWR (R506). -/
def rwrCmd (cell : BitVec 4) (view : BitVec 3) : BitVec 16 :=
  0x2800 ||| (cell.setWidth 16 <<< 7) ||| (view.setWidth 16 <<< 4)

/-- The command word of PTWR (R461). -/
def ptwrCmd (lvl : BitVec 2) : BitVec 16 := 0x6800 ||| (lvl.setWidth 16 <<< 2)

/-- The command word of a reserved opcode 0 (R307). -/
def reservedOp0Cmd (low : BitVec 11) : BitVec 16 := low.setWidth 16

/-- The command word of a reserved opcode 16 to 31 (R307). -/
def reservedOp16to31Cmd (low : BitVec 15) : BitVec 16 := 0x8000 ||| low.setWidth 16

/-- An operand's KIND, VAL and SEL (R311). -/
def encodeOperand : Operand → RawOperand
  | .empty => { kind := 0, val := 0, sel := 0, parts := none }
  | .imm v => { kind := 1, val := v, sel := 0, parts := none }
  | .reg cell view => { kind := 2, val := 0, sel := cell ++ view, parts := none }
  | .memDirect a => { kind := 3, val := a, sel := 0, parts := none }
  | .memIndirect e =>
    { kind := 4, val := e.disp, sel := 0, parts := some { base := e.base, index := e.index, scale := e.scale } }

/-- A request whose unused buses are 0. -/
def encodeRequest (cmd : BitVec 16) (a b : Word) (d : Byte) : Encoded := .request { cmd, a, b, d }

/-- The record of a TAG and two operands (R310). -/
def encodeRecord (tag : BitVec 4) (src dst : Operand) : Encoded :=
  .record { tag, src := encodeOperand src, dst := encodeOperand dst }

/-- The word and buses, or the record, of an instruction (R302, R310). -/
def encode : Instr → Encoded
  | .crd a => encodeRequest 0x0800 a 0 0
  | .cwr a d => encodeRequest 0x1000 a 0 d
  | .xlt a b => encodeRequest 0x1800 a b 0
  | .rrd cell view => encodeRequest (rrdCmd cell view) 0 0 0
  | .rwr cell view a => encodeRequest (rwrCmd cell view) a 0 0
  | .iprd => encodeRequest 0x3000 0 0 0
  | .ipwr a => encodeRequest 0x3800 a 0 0
  | .frd => encodeRequest 0x4000 0 0 0
  | .fclr => encodeRequest 0x4800 0 0 0
  | .aluAdd a b => encodeRequest 0x5000 a b 0
  | .aluSub a b => encodeRequest 0x5800 a b 0
  | .aluCmp a b => encodeRequest 0x6000 a b 0
  | .ptwr lvl a b present => encodeRequest (ptwrCmd lvl) a b (if present then 1 else 0)
  | .brd64 a => encodeRequest 0x7000 a 0 0
  | .bwr64 a b => encodeRequest 0x7800 a b 0
  | .reservedOp0 low => encodeRequest (reservedOp0Cmd low) 0 0 0
  | .reservedOp16to31 low => encodeRequest (reservedOp16to31Cmd low) 0 0 0
  | .mov src dst => encodeRecord 0 src dst
  | .push src dst => encodeRecord 1 src dst
  | .pop src dst => encodeRecord 2 src dst
  | .leave src dst => encodeRecord 3 src dst
  | .call src dst => encodeRecord 4 src dst
  | .ret src dst => encodeRecord 5 src dst
  | .add src dst => encodeRecord 6 src dst
  | .sub src dst => encodeRecord 7 src dst
  | .cmp src dst => encodeRecord 8 src dst
  | .jne src dst => encodeRecord 9 src dst
  | .jmp src dst => encodeRecord 10 src dst
  | .reservedTag11 src dst => encodeRecord 11 src dst
  | .reservedTag12 src dst => encodeRecord 12 src dst
  | .reservedTag13 src dst => encodeRecord 13 src dst
  | .reservedTag14 src dst => encodeRecord 14 src dst
  | .reservedTag15 src dst => encodeRecord 15 src dst

/-! ### The response -/

/-- STATUS[2:0] on the port (R306, R700): 0 is OK, and 7 is reserved and never returned. -/
def Status.code : Status → BitVec 3
  | .ok => 0
  | .malformedOperand => 1
  | .unknownRegister => 2
  | .notImplemented => 3
  | .outOfBounds => 4
  | .pageFault => 5
  | .misaligned => 6

/-! ### A record as bits

R310 and R311 give a record's fields and widths and not their places. The opcode table puts TAG at bits 3:0; the model
puts the other fields above it in the order the rules list them, so that a record is 19 bytes (DESIGN CHOICE, log 11;
neutral: no rule reads a record as bits). -/

/-- An operand in 74 bits: KIND 2:0, VAL 66:3, SEL 73:67. -/
def RawOperand.ofBits (b : BitVec 74) : RawOperand :=
  { kind := b.extractLsb' 0 3, val := b.extractLsb' 3 64, sel := b.extractLsb' 67 7, parts := none }

/-- The 74 bits of an operand that holds no address parts. -/
def RawOperand.toBits (o : RawOperand) : BitVec 74 := o.sel ++ o.val ++ o.kind

/-- A record in 152 bits: TAG 3:0, src 77:4, dst 151:78. -/
def Record.ofBits (b : BitVec 152) : Record :=
  { tag := b.extractLsb' 0 4
    src := RawOperand.ofBits (b.extractLsb' 4 74)
    dst := RawOperand.ofBits (b.extractLsb' 78 74) }

/-- The 152 bits of a record whose operands hold no address parts. -/
def Record.toBits (r : Record) : BitVec 152 := r.dst.toBits ++ r.src.toBits ++ r.tag

/-- What an opcode-table word stands for: 16 bits are a command word, all its buses 0; otherwise (the table gives the
engine's rows their TAG alone, one byte) they are the low bits of a record, whose bits above are 0. -/
def tableEncoded (nbits w : Nat) : Encoded :=
  if nbits = 16 then .request { cmd := BitVec.ofNat 16 w, a := 0, b := 0, d := 0 }
  else .record (Record.ofBits (BitVec.ofNat 152 w))

/-- The instruction the decoder reads from an opcode-table word of nbits bits. -/
def decodeTableWord (nbits w : Nat) : Option Instr :=
  match decode (tableEncoded nbits w) with
  | .ok i => some i
  | .error _ => none

end Sys2Proof
end

