-- ==== Sys2Proof/Machine/State.lean ====
section
/-! DEFINITION. The state of the block (spec/10_state.md R100), the model's own fields beside it, why a step can stop,
and the state after reset (R120 to R124, spec/70_reset_and_hazards.md R800). -/

namespace Sys2Proof.Machine

/-- A line's state (R110). -/
inductive LineState where
  | invalid
  | clean
  | dirty
  deriving DecidableEq, Repr

/-- A cache line (R110). `time` is a signed 64-bit counter; -1 means never touched. -/
structure Line where
  state : LineState
  tag : BitVec 40
  time : BitVec 64
  block : Vector Byte 64
  deriving DecidableEq, Repr

/-- A line at reset: Invalid, time -1; tag and block 0, which no rule reads (R120; DESIGN CHOICE, log 3; safe). -/
def Line.reset : Line :=
  { state := .invalid, tag := 0, time := -1, block := Vector.replicate 64 0 }

/-- A set: N_WAYS lines, way 0 first (R110). -/
abbrev CacheSet := List Line

/-- The backing store: the bytes that are not `Memory.blank`, by rising address (R114, R209). -/
abbrev Memory := List Host.Cell

/-- A page-table entry (R451). -/
structure Pte where
  present : Bool
  base : Word
  deriving DecidableEq, Repr

/-- A level map: entries by rising key (R113, R450). -/
abbrev PageMap := List (Nat × Pte)

/-- PROG: a partial map from rip to a record (R650); the first entry of a rip counts. -/
abbrev Program := List (Nat × Record)

/-- The condition flags (R107); `ovf` is OF. -/
structure Flags where
  cf : Bool
  zf : Bool
  sf : Bool
  ovf : Bool
  deriving DecidableEq, Repr

/-- The flags at reset (R122) and after FCLR (R555). -/
def Flags.clear : Flags := { cf := false, zf := false, sf := false, ovf := false }

/-- How far the engine's run is (R650, R657; the model's own field, log 8 and log 9). -/
inductive Run where
  /-- Nothing has been launched. -/
  | idle
  /-- Launched with this EXIT_RIP. -/
  | running (exitRip : Word)
  /-- rip reached EXIT_RIP: the normal end, where no read was Unwritten (R703, `State.endedNormally`). -/
  | ended
  /-- A step faulted with this status: never a normal end. `info` is the failing command's RDATA, and none where no
  command failed (log 16). -/
  | faulted (status : Status) (info : Option Word)
  deriving DecidableEq, Repr

/-- What reaches the port, in the order in which it is served (R9, R225; the model's own, log 7). -/
inductive Input where
  /-- A request of the host, or of a client other than the engine (R300). -/
  | command (r : Request)
  /-- The host fixes PROG and EXIT_RIP (R802). -/
  | launch (prog : Program) (exitRip : Word)
  /-- The engine has the port for one step (R650). An instruction is many commands, and the host's may come between any
  two of them (R804, R225): before each next command of the engine, that many of the requests that follow in the inbox
  are served. -/
  | engineTurn (gaps : List Nat)
  deriving DecidableEq, Repr

/-- The machine. All of R100, the parameters of R10, and the model's own `run`, `resp`, `unwritten`, `inbox` and `gaps`.
`unwritten` holds the model fault Unwritten of R105 and R703: some read has covered a lane, or rip, that nothing had
written (log 2). `gaps` says how many of the waiting requests land before each next command of the engine's
instruction (log 7). -/
structure State where
  params : Params
  gpr : Vector Word 16
  wr : Vector (BitVec 8) 16
  rip : Word
  ripWr : Bool
  flags : Flags
  cache : Vector CacheSet 64
  pt : Vector PageMap 4
  mem : Memory
  prog : Program
  run : Run
  resp : Option Response
  unwritten : Bool
  inbox : List Input
  gaps : List Nat
  deriving DecidableEq, Repr

/-- Why the machine stops with a fault. The hardware's errors are no faults here: a command answers them in its
response, and an engine step ends in `Run.faulted`. Nor is R703's Unwritten: the read completes and `State.unwritten`
records it, and a stop carries that record with it (log 2). -/
inductive Fault where
  /-- Raised by an engine step whose rip is not EXIT_RIP and names no instruction (R650). It keeps the record of
  Unwritten, this step's own read of rip in it (R703; log 2). Safe. -/
  | noInstruction (unwritten : Bool)
  deriving DecidableEq, Repr

/-- Why a step has no meaning. -/
inductive Refusal where
  /-- Raised by exec's arm of an instruction that has no meaning in the model. Safe. -/
  | notModelled (mnemonic : String)
  /-- Raised by an engine word access that crosses a 4 KiB virtual page (R655, R703). It keeps the record of Unwritten,
  the reads of this instruction before that access in it (log 2). Safe. -/
  | pageCrossingWord (unwritten : Bool)
  deriving DecidableEq, Repr

/-- The state right after reset, for any parameters and any image MEM_INIT (R120 to R124, R800). The cells and rip are
unspecified there; the model names 0 (DESIGN CHOICE, log 1; unsafe: a proof can rest on it). Their marks are clear, so
that a read of one before a write is recorded in `State.unwritten` (R105). -/
def State.resetOf (params : Params) (image : Memory) : State :=
  { params
    gpr := Vector.replicate 16 0
    wr := Vector.replicate 16 0
    rip := 0
    ripWr := false
    flags := Flags.clear
    cache := Vector.replicate 64 (List.replicate params.nWays Line.reset)
    pt := Vector.replicate 4 []
    mem := image
    prog := []
    run := .idle
    resp := none
    unwritten := false
    inbox := []
    gaps := [] }

/-- The state right after reset of the default configuration with MEM_INIT all zero (log 4, log 5). -/
def State.reset : State := State.resetOf Params.default []

end Sys2Proof.Machine
end

