-- ==== Sys2Proof/Machine/Ops.lean ====
section
/-! DEFINITION. The named operations over the state: keyed lists, memory, the address codec, the registers, the
page-table maps, and ending a command or an engine step (raising an error is `Res.err`; there is no trap entry,
spec/60_exceptions.md R706). -/

namespace Sys2Proof.Machine

/-! ### Lists of key and value, keys rising -/

/-- The value of a key, or none. -/
def lookupKey {α : Type} : List (Nat × α) → Nat → Option α
  | [], _ => none
  | (k, v) :: rest, key => if k = key then some v else lookupKey rest key

/-- Sets the value of a key, keeping keys in rising order. -/
def insertKey {α : Type} : List (Nat × α) → Nat → α → List (Nat × α)
  | [], key, v => [(key, v)]
  | (k, u) :: rest, key, v =>
    if key < k then (key, v) :: (k, u) :: rest
    else if k = key then (key, v) :: rest
    else (k, u) :: insertKey rest key v

/-- Takes a key out. -/
def eraseKey {α : Type} (l : List (Nat × α)) (key : Nat) : List (Nat × α) :=
  l.filter fun e => e.1 != key

/-- Keys strictly rising. -/
abbrev KeysRise {α : Type} (l : List (Nat × α)) : Prop := (l.map Prod.fst).Pairwise (· < ·)

/-! ### The backing store (spec/20_memory.md R209, R210, R212) -/

/-- What an unlisted address reads as (DESIGN CHOICE, log 5: MEM_INIT is OPEN and an image is any listing). -/
def Memory.blank : Byte := 0

/-- The byte at an address. -/
def Memory.read (m : Memory) (a : Nat) : Byte := (lookupKey m a).getD Memory.blank

/-- Writes a byte; a blank byte is not listed. -/
def Memory.write (m : Memory) (a : Nat) (v : Byte) : Memory :=
  if v = Memory.blank then eraseKey m a else insertKey m a v

/-- The canonical form: addresses strictly rising and no blank byte listed. -/
abbrev Memory.wf (m : Memory) : Prop := KeysRise m ∧ ∀ c ∈ m, c.2 ≠ Memory.blank

/-- The n bytes from an address up. -/
def Memory.readBytes (m : Memory) (a : Nat) : Nat → List Byte
  | 0 => []
  | n + 1 => m.read a :: Memory.readBytes m (a + 1) n

/-- Writes bytes from an address up, one after the other. -/
def Memory.writeBytes (m : Memory) (a : Nat) : List Byte → Memory
  | [] => m
  | b :: bs => Memory.writeBytes (m.write a b) (a + 1) bs

/-- The little-endian value of at most 8 bytes (R212). -/
def wordOfBytes : List Byte → Word
  | [] => 0
  | b :: bs => zext64 b ||| (wordOfBytes bs <<< 8)

/-- Byte k of a word, bits 8k+7 to 8k (R212). -/
def byteOf (v : Word) (k : Nat) : Byte := v.extractLsb' (8 * k) 8

/-- The 8 bytes of a word, least significant first (R212). -/
def bytesOfWord (v : Word) : List Byte := (List.range 8).map (byteOf v)

/-- MemRead(a, 8) (R12). -/
def Memory.readWord (m : Memory) (a : Nat) : Word := wordOfBytes (m.readBytes a 8)

/-- MemWrite(a, 8, v) (R12). -/
def Memory.writeWord (m : Memory) (a : Nat) (v : Word) : Memory := m.writeBytes a (bytesOfWord v)

/-- BusReadLine(a) (R210). -/
def busReadLine (m : Memory) (a : Nat) : Vector Byte 64 := Vector.ofFn fun i => m.read (a + i.val)

/-- BusWriteLine(a, blk) (R210). -/
def busWriteLine (m : Memory) (a : Nat) (blk : Vector Byte 64) : Memory := m.writeBytes a blk.toList

/-! ### The address codec (R201 to R206) -/

/-- PN_MASK, bits 51 to 12. -/
def pnMask : Word := 0x000FFFFFFFFFF000

/-- R201. -/
def pageOffset (a : Word) : Word := a &&& 0xFFF

/-- R202. -/
def pageNumber (a : Word) : Word := (a &&& 0xFFFFFFFFFF000) >>> 12

/-- R203. -/
def blockOffset (a : Word) : Word := a &&& 0x3F

/-- R203. -/
def setIndex (a : Word) : Word := (a &&& 0xFC0) >>> 6

/-- R204. -/
def blockTag (a : Word) : Word := pageNumber a

/-- R205. -/
def withPageNumber (a ppn : Word) : Word := (a &&& ~~~pnMask) ||| ((ppn <<< 12) &&& pnMask)

/-- R206. -/
def withPageOffset (a ppo : Word) : Word := (a &&& ~~~0xFFF) ||| (ppo &&& 0xFFF)

/-! ### Results: a value and the state, an error status, or a stop of the model -/

/-- What a sequence of commands comes to. `err` keeps the state reached, since commands already issued keep their
effects (R657); that a single command's error changes nothing (R702) is a law of each command. -/
inductive Res (α : Type) where
  | ok (v : α) (s : State)
  | err (e : Status) (info : Word) (s : State)
  | fault (f : Fault)
  | refused (r : Refusal)

/-- The next command of a sequence runs when the one before it ended OK (R657). -/
def Res.bind {α β : Type} (r : Res α) (f : α → State → Res β) : Res β :=
  match r with
  | .ok v s => f v s
  | .err e info s => .err e info s
  | .fault t => .fault t
  | .refused t => .refused t

/-- The response of a command is driven on the port (R300, R701; log 6). -/
def State.respond (s : State) (status : Status) (rdata : Word) : State :=
  { s with resp := some { status, rdata } }

/-- The engine's run stops in a faulted state (R657; log 9). -/
def State.engineFault (s : State) (status : Status) (info : Option Word) : State :=
  { s with run := .faulted status info }

/-- Ends a command: its value or its error's info goes back on the response port (R306, R700). -/
def endCommand : Res Word → Host.Outcome State Fault Refusal
  | .ok v s => .next (s.respond .ok v)
  | .err e info s => .next (s.respond e info)
  | .fault t => .fault t
  | .refused t => .refused t

/-- Ends an engine instruction: the first failing command decides the step's fault, and what the commands before it
did is kept (R657, R704). A refusal carries no state (log 10). -/
def endEngine : Res Unit → Host.Outcome State Fault Refusal
  | .ok _ s => .next s
  | .err e info s => .next (s.engineFault e (some info))
  | .fault t => .fault t
  | .refused t => .refused t

/-- An engine step whose TAG or operand kinds are not handled: NotImplemented, and nothing else changes (R657, R671;
no command failed, so there is no info: log 16). -/
def engineNotImplemented (s : State) : Host.Outcome State Fault Refusal :=
  .next (s.engineFault .notImplemented none)

/-! ### The register file (spec/42_regfile.md R500 to R503, R507, R508) -/

/-- The view a selector names, or none (R304). -/
def viewOfSel (cell : BitVec 4) (view : BitVec 3) : Option View :=
  match view.toNat with
  | 0 => some .q
  | 1 => some .d
  | 2 => some .w
  | 3 => some .bl
  | 4 => if cell.toNat < 4 then some .bh else none
  | _ => none

/-- lo(view), the lowest bit (R501). -/
def viewLo : View → Nat
  | .q => 0
  | .d => 0
  | .w => 0
  | .bl => 0
  | .bh => 8

/-- w(view), the width (R501). -/
def viewWidth : View → Nat
  | .q => 64
  | .d => 32
  | .w => 16
  | .bl => 8
  | .bh => 8

/-- The byte lanes a view covers, lane j as bit j (R501). -/
def viewLanes : View → BitVec 8
  | .q => 0b11111111
  | .d => 0b00001111
  | .w => 0b00000011
  | .bl => 0b00000001
  | .bh => 0b00000010

/-- The bits of the cell a view covers. -/
def viewMask (v : View) : Word := ((BitVec.allOnes (viewWidth v)).setWidth 64) <<< viewLo v

/-- The read multiplexer: the view's bits, zero-extended (R501, R502). -/
def viewRead (v : View) (x : Word) : Word := zext64 (x.extractLsb' (viewLo v) (viewWidth v))

/-- The write demultiplexer: the view's bits from the low bits of the value, every other bit kept (R501, R503). -/
def viewWrite (v : View) (x value : Word) : Word :=
  (x &&& ~~~viewMask v) ||| ((value <<< viewLo v) &&& viewMask v)

/-- The 64-bit contents of a cell, x[c] (R12, R102). -/
def State.cell (s : State) (c : BitVec 4) : Word := s.gpr[c.toNat]'c.isLt

/-- The written marks of a cell, wr[c] (R105). -/
def State.marks (s : State) (c : BitVec 4) : BitVec 8 := s.wr[c.toNat]'c.isLt

/-- Every lane the view covers has been written (R502). -/
def State.laneWritten (s : State) (c : BitVec 4) (v : View) : Bool := s.marks c &&& viewLanes v == viewLanes v

/-- Replaces a cell's contents and marks. -/
def State.setCell (s : State) (c : BitVec 4) (x : Word) (marks : BitVec 8) : State :=
  { s with gpr := s.gpr.set c.toNat x c.isLt, wr := s.wr.set c.toNat marks c.isLt }

/-- Records a read: Unwritten where what it covers has not been written (R105, R703; log 2). -/
def State.noteRead (s : State) (written : Bool) : State := { s with unwritten := s.unwritten || !written }

/-- reg(sel): RRD (R502, R505). The selector comes before the marks (R704; log 22). -/
def readReg (c : BitVec 4) (view : BitVec 3) (s : State) : Res Word :=
  match viewOfSel c view with
  | none => .err .unknownRegister (zext64 (rrdCmd c view)) s
  | some v => .ok (viewRead v (s.cell c)) (s.noteRead (s.laneWritten c v))

/-- reg(sel) <- v: RWR (R503, R506). -/
def writeReg (c : BitVec 4) (view : BitVec 3) (value : Word) (s : State) : Res Unit :=
  match viewOfSel c view with
  | none => .err .unknownRegister (zext64 (rwrCmd c view)) s
  | some v => .ok () (s.setCell c (viewWrite v (s.cell c) value) (s.marks c ||| viewLanes v))

/-- Replaces rip and sets its mark. -/
def State.setRip (s : State) (value : Word) : State := { s with rip := value, ripWr := true }

/-- IPRD (R507). -/
def readRip (s : State) : Res Word := .ok s.rip (s.noteRead s.ripWr)

/-- IPWR (R508). -/
def writeRip (value : Word) (s : State) : Res Unit := .ok () (s.setRip value)

/-- Replaces the flag register. -/
def State.setFlags (s : State) (f : Flags) : State := { s with flags := f }

/-! ### The level maps (spec/41_translation.md R450 to R452, R461) -/

/-- Level k as an index: L1 is 0 (R305). -/
def levelOf (lvl : BitVec 2) : Fin 4 := ⟨lvl.toNat, lvl.isLt⟩

/-- The base of a present entry, or none where it is absent or not present (R450, R452). -/
def presentBase (m : PageMap) (key : Word) : Option Word :=
  match lookupKey m key.toNat with
  | some e => if e.present then some e.base else none
  | none => none

/-- PT[k][key] <- e (R461). -/
def State.setPte (s : State) (k : Fin 4) (key : Word) (e : Pte) : State :=
  { s with pt := s.pt.set k.val (insertKey s.pt[k] key.toNat e) }

/-- Replaces the backing store. -/
def State.setMem (s : State) (m : Memory) : State := { s with mem := m }

end Sys2Proof.Machine
end

