-- ==== Sys2Proof/Machine/CacheOps.lean ====
section
/-! DEFINITION. The cache controller's shared access procedure (spec/40_cache.md R400 to R407) and the client's view of
memory (spec/20_memory.md R220). -/

namespace Sys2Proof.Machine

/-- s = p[11:6] (R400). -/
def setIndexOf (p : Word) : Fin 64 := Fin.ofNat 64 (p.extractLsb' 6 6).toNat

/-- t = p[51:12] (R400). -/
def tagOf (p : Word) : BitVec 40 := p.extractLsb' 12 40

/-- o = p[5:0] (R400). -/
def offsetOf (p : Word) : Fin 64 := Fin.ofNat 64 (p.extractLsb' 0 6).toNat

/-- p & ~0x3F, the block boundary (R405). -/
def blockAddr (p : Word) : Word := p &&& ~~~0x3F

/-- WBAddr(s, w) for a line of set s with this tag (R407). -/
def wbAddr (s : Fin 64) (tag : BitVec 40) : Word := (zext64 tag <<< 12) ||| (BitVec.ofNat 64 s.val <<< 6)

/-- The line holds the block of this tag (R403). -/
def Line.holds (l : Line) (t : BitVec 40) : Bool := l.state != .invalid && l.tag == t

/-- The line of a way; a way the set does not have is an Invalid line (log 19). -/
def wayOf (set : CacheSet) (w : Nat) : Line := set.getD w Line.reset

/-- The way that hits (R403); at most one does (R112(b)). -/
def hitWay (set : CacheSet) (t : BitVec 40) : Option Nat := set.findIdx? fun l => l.holds t

/-- Scans ways from `i` on for a time above the maximum met so far, `best` being its way (R404(2)). -/
def maxTimeWay : List Line → Nat → Nat → Int → Nat
  | [], _, best, _ => best
  | l :: rest, i, best, top =>
    if top < l.time.toInt then maxTimeWay rest (i + 1) i l.time.toInt else maxTimeWay rest (i + 1) best top

/-- Victim(s): the lowest Invalid way, otherwise the lowest way of maximum time (R404). The scan starts from a value
below every time. -/
def victim (set : CacheSet) : Nat :=
  match set.findIdx? fun l => l.state == .invalid with
  | some w => w
  | none => maxTimeWay set 0 0 (-(2 ^ 63) - 1)

/-- A set and the backing store, between the steps of an access. -/
structure SetMem where
  set : CacheSet
  mem : Memory
  deriving DecidableEq, Repr

/-- The victim's write-back, if it is Dirty (R405, R407). -/
def writeBack (i : Fin 64) (l : Line) (m : Memory) : Memory :=
  if l.state = .dirty then busWriteLine m (wbAddr i l.tag).toNat l.block else m

/-- Fill(s, w, p, t): the write-back first, then the whole block of p (R405). -/
def fill (i : Fin 64) (w : Nat) (p : Word) (x : SetMem) : SetMem :=
  let old := wayOf x.set w
  let mem := writeBack i old x.mem
  { set := x.set.set w
      { old with block := busReadLine mem (blockAddr p).toNat, tag := tagOf p, state := .clean }
    mem }

/-- A time one access older, saturating (R406). -/
def older (t : BitVec 64) : BitVec 64 := BitVec.ofInt 64 (min (t.toInt + 1) maxTime)

/-- What Touch(s, w) does to way v (R406). -/
def touchLine (w v : Nat) (l : Line) : Line :=
  if v = w then { l with time := 0 }
  else if l.state = .invalid then l
  else { l with time := older l.time }

/-- Touch(s, w) (R406). -/
def touch (set : CacheSet) (w : Nat) : CacheSet := set.mapIdx (touchLine w)

/-- The way an access of p uses, and the set and memory once it holds p's block: a hit, or a fill of the victim
(R401). -/
def place (i : Fin 64) (p : Word) (x : SetMem) : Nat × SetMem :=
  match hitWay x.set (tagOf p) with
  | some w => (w, x)
  | none => (victim x.set, fill i (victim x.set) p x)

/-- The line once a CWR has written its byte (R401). -/
def Line.store (l : Line) (o : Fin 64) (d : Byte) : Line :=
  { l with block := l.block.set o.val d, state := .dirty }

/-- Writes the byte of a CWR; nothing for a CRD (R401). -/
def storeIn (set : CacheSet) (w : Nat) (o : Fin 64) : Option Byte → CacheSet
  | none => set
  | some d => set.set w ((wayOf set w).store o d)

/-- Access(p, isWrite, d) on its set: the way used, and the set and memory after; `d` is the byte to write, none for a
read (R401). -/
def accessSet (i : Fin 64) (p : Word) (d : Option Byte) (x : SetMem) : Nat × SetMem :=
  let r := place i p x
  (r.1, { set := storeIn (touch r.2.set r.1) r.1 (offsetOf p) d, mem := r.2.mem })

/-- Replaces one set and the backing store. -/
def State.setCache (s : State) (i : Fin 64) (x : SetMem) : State :=
  { s with cache := s.cache.set i.val x.set, mem := x.mem }

/-- Access(p, isWrite, d) (R401, R402); the value is the line's byte after. -/
def access (p : Word) (d : Option Byte) (s : State) : Res Byte :=
  if s.params.memSize ≤ p.toNat then .err .outOfBounds p s
  else
    let r := accessSet (setIndexOf p) p d { set := s.cache[setIndexOf p], mem := s.mem }
    .ok (wayOf r.2.set r.1).block[offsetOf p] (s.setCache (setIndexOf p) r.2)

/-- CRD inside a sequence (R410). -/
def readByte (p : Word) (s : State) : Res Byte := access p none s

/-- CWR inside a sequence (R411). -/
def writeByte (p : Word) (d : Byte) (s : State) : Res Unit := (access p (some d) s).bind fun _ s => .ok () s

/-- Eff(p), the client's view of memory (R220). -/
def State.eff (s : State) (p : Word) : Byte :=
  match s.cache[setIndexOf p].find? fun l => l.holds (tagOf p) with
  | some l => l.block[offsetOf p]
  | none => s.mem.read p.toNat

end Sys2Proof.Machine
end

