-- ==== Sys2Proof/Machine/Cache.lean ====
section
/-! DEFINITION. The cache commands CRD and CWR (spec/40_cache.md R410, R411). -/

namespace Sys2Proof.Machine

/-- CRD (R410). -/
def execCrd (a : Word) (s : State) : Host.Outcome State Fault Refusal :=
  endCommand ((readByte a s).bind fun b s => .ok (zext64 b) s)

/-- CWR (R411). -/
def execCwr (a : Word) (d : Byte) (s : State) : Host.Outcome State Fault Refusal :=
  endCommand ((writeByte a d s).bind fun _ s => .ok 0 s)

end Sys2Proof.Machine
end

