-- ==== Sys2Proof/Machine/Flags.lean ====
section
/-! DEFINITION. The flag unit's computations (spec/43_flags_alu.md R550 to R554). -/

namespace Sys2Proof.Machine

/-- The result and the flags of ADD (R551). -/
def addResult (a b : Word) : Word × Flags :=
  let r := a + b
  (r, { cf := r.ult b
        zf := r == 0
        sf := r.msb
        ovf := a.msb == b.msb && r.msb != a.msb })

/-- The result and the flags of SUB, and the flags of CMP (R552, R553). -/
def subResult (a b : Word) : Word × Flags :=
  let r := a - b
  (r, { cf := a.ult r
        zf := r == 0
        sf := r.msb
        ovf := a.msb != b.msb && r.msb != a.msb })

/-- zext64({OF, SF, ZF, CF}) (R554). -/
def packFlags (f : Flags) : Word :=
  zext64 (BitVec.ofBool f.ovf ++ BitVec.ofBool f.sf ++ BitVec.ofBool f.zf ++ BitVec.ofBool f.cf)

/-- ADD inside a sequence (R551). -/
def aluAdd (a b : Word) (s : State) : Res Word := .ok (addResult a b).1 (s.setFlags (addResult a b).2)

/-- SUB inside a sequence (R552). -/
def aluSub (a b : Word) (s : State) : Res Word := .ok (subResult a b).1 (s.setFlags (subResult a b).2)

/-- CMP inside a sequence: the flags of SUB, the result discarded (R553). -/
def aluCmp (a b : Word) (s : State) : Res Word := .ok 0 (s.setFlags (subResult a b).2)

/-- FRD inside a sequence (R554). -/
def readFlags (s : State) : Res Flags := .ok s.flags s

/-- FCLR inside a sequence (R555). -/
def clearFlags (s : State) : Res Unit := .ok () (s.setFlags Flags.clear)

end Sys2Proof.Machine
end

