-- ==== Sys2Proof/Machine/FlagUnit.lean ====
section
/-! DEFINITION. The flag unit's commands ADD, SUB, CMP, FRD, FCLR (spec/43_flags_alu.md R551 to R555). -/

namespace Sys2Proof.Machine

/-- ADD (R551). -/
def execAluAdd (a b : Word) (s : State) : Host.Outcome State Fault Refusal :=
  endCommand (aluAdd a b s)

/-- SUB (R552). -/
def execAluSub (a b : Word) (s : State) : Host.Outcome State Fault Refusal :=
  endCommand (aluSub a b s)

/-- CMP (R553). -/
def execAluCmp (a b : Word) (s : State) : Host.Outcome State Fault Refusal :=
  endCommand (aluCmp a b s)

/-- FRD (R554). -/
def execFrd (s : State) : Host.Outcome State Fault Refusal :=
  endCommand (.ok (packFlags s.flags) s)

/-- FCLR (R555). -/
def execFclr (s : State) : Host.Outcome State Fault Refusal :=
  endCommand ((clearFlags s).bind fun _ s => .ok 0 s)

end Sys2Proof.Machine
end

