-- ==== Sys2Proof/Machine/RegFile.lean ====
section
/-! DEFINITION. The register-file commands RRD, RWR, IPRD, IPWR (spec/42_regfile.md R505 to R508). -/

namespace Sys2Proof.Machine

/-- RRD (R505). -/
def execRrd (cell : BitVec 4) (view : BitVec 3) (s : State) : Host.Outcome State Fault Refusal :=
  endCommand (readReg cell view s)

/-- RWR (R506). -/
def execRwr (cell : BitVec 4) (view : BitVec 3) (a : Word) (s : State) : Host.Outcome State Fault Refusal :=
  endCommand ((writeReg cell view a s).bind fun _ s => .ok 0 s)

/-- IPRD (R507). -/
def execIprd (s : State) : Host.Outcome State Fault Refusal :=
  endCommand (readRip s)

/-- IPWR (R508). -/
def execIpwr (a : Word) (s : State) : Host.Outcome State Fault Refusal :=
  endCommand ((writeRip a s).bind fun _ s => .ok 0 s)

end Sys2Proof.Machine
end

