-- ==== Sys2Proof/Machine/Reserved.lean ====
section
/-! DEFINITION. The reserved command opcodes (spec/30_encoding.md R307) and the reserved TAGs (spec/46_engine.md
R671). -/

namespace Sys2Proof.Machine

/-- A reserved opcode, or a word with a must-be-zero field not zero: NotImplemented with RDATA = zext64(CMD), no state
change (R303, R307). -/
def notImplementedCommand (cmd : BitVec 16) (s : State) : Host.Outcome State Fault Refusal :=
  endCommand (.err .notImplemented (zext64 cmd) s)

/-- OP 0 (R307). -/
def execReservedOp0 (low : BitVec 11) (s : State) : Host.Outcome State Fault Refusal :=
  notImplementedCommand (reservedOp0Cmd low) s

/-- OP 16 to 31 (R307). -/
def execReservedOp16to31 (low : BitVec 15) (s : State) : Host.Outcome State Fault Refusal :=
  notImplementedCommand (reservedOp16to31Cmd low) s

/-- TAG 11 (R671). -/
def execReservedTag11 (s : State) : Host.Outcome State Fault Refusal := engineNotImplemented s

/-- TAG 12 (R671). -/
def execReservedTag12 (s : State) : Host.Outcome State Fault Refusal := engineNotImplemented s

/-- TAG 13 (R671). -/
def execReservedTag13 (s : State) : Host.Outcome State Fault Refusal := engineNotImplemented s

/-- TAG 14 (R671). -/
def execReservedTag14 (s : State) : Host.Outcome State Fault Refusal := engineNotImplemented s

/-- TAG 15 (R671). -/
def execReservedTag15 (s : State) : Host.Outcome State Fault Refusal := engineNotImplemented s

end Sys2Proof.Machine
end

