-- ==== Sys2Proof/Machine/StorePort.lean ====
section
/-! DEFINITION. The backing-store word port, BRD64 and BWR64 (spec/44_store_port.md R600 to R602). -/

namespace Sys2Proof.Machine

/-- The checks of both commands, alignment before bounds; a + 8 is exact (R600). -/
def wordPortCheck (a : Word) (s : State) : Res Unit :=
  if a.toNat % 8 ≠ 0 then .err .misaligned a s
  else if s.params.memSize < a.toNat + 8 then .err .outOfBounds a s
  else .ok () s

/-- BRD64 (R601). -/
def execBrd64 (a : Word) (s : State) : Host.Outcome State Fault Refusal :=
  endCommand ((wordPortCheck a s).bind fun _ s => .ok (s.mem.readWord a.toNat) s)

/-- BWR64 (R602). -/
def execBwr64 (a b : Word) (s : State) : Host.Outcome State Fault Refusal :=
  endCommand ((wordPortCheck a s).bind fun _ s => .ok 0 (s.setMem (s.mem.writeWord a.toNat b)))

end Sys2Proof.Machine
end

