-- ==== Sys2Proof/Machine/Walk.lean ====
section
/-! DEFINITION. The page-table walker (spec/41_translation.md R452 to R455). -/

namespace Sys2Proof.Machine

/-- Follows the levels in order from a key; the first absent or not present one is the error (R453). -/
def walkLevels (pt : Vector PageMap 4) : List (Fin 4) → Word → Except (Fin 4) Word
  | [], key => .ok key
  | k :: rest, key =>
    match presentBase pt[k] key with
    | some base => walkLevels pt rest base
    | none => .error k

/-- The physical address of a page number and a virtual address (R453, R454). -/
def compose (ppn va : Word) : Word := withPageOffset (withPageNumber 0 ppn) (pageOffset va)

/-- Walk(va, r): the physical address, or the level index at fault (R453). -/
def walk (pt : Vector PageMap 4) (va root : Word) : Except (Fin 4) Word :=
  match walkLevels pt [0, 1, 2, 3] root with
  | .ok ppn => .ok (compose ppn va)
  | .error k => .error k

/-- XLT (R460): a PageFault carries the level number 1 to 4 (R452). -/
def translateVa (va root : Word) (s : State) : Res Word :=
  match walk s.pt va root with
  | .ok pa => .ok pa s
  | .error k => .err .pageFault (BitVec.ofNat 64 (k.val + 1)) s

end Sys2Proof.Machine
end

