-- ==== Sys2Proof/Machine/Translation.lean ====
section
/-! DEFINITION. The walker's commands XLT and PTWR (spec/41_translation.md R460, R461). -/

namespace Sys2Proof.Machine

/-- XLT (R460). -/
def execXlt (a b : Word) (s : State) : Host.Outcome State Fault Refusal :=
  endCommand (translateVa a b s)

/-- PTWR (R461). -/
def execPtwr (lvl : BitVec 2) (a b : Word) (present : Bool) (s : State) : Host.Outcome State Fault Refusal :=
  endCommand (.ok 0 (s.setPte (levelOf lvl) a { present, base := b }))

end Sys2Proof.Machine
end

