-- ==== Sys2Proof/Machine/Port.lean ====
section
/-! DEFINITION. The port that client and host share (spec/00_scope.md R9, spec/20_memory.md R225): the host's requests
that land between two block commands of one engine instruction (spec/70_reset_and_hazards.md R804). -/

namespace Sys2Proof.Machine

/-- A command's meaning. No request decodes to an engine instruction, which is none. -/
def runCommand (i : Instr) (s : State) : Host.Outcome State Fault Refusal :=
  match i with
  | .crd a => execCrd a s
  | .cwr a d => execCwr a d s
  | .xlt a b => execXlt a b s
  | .rrd cell view => execRrd cell view s
  | .rwr cell view a => execRwr cell view a s
  | .iprd => execIprd s
  | .ipwr a => execIpwr a s
  | .frd => execFrd s
  | .fclr => execFclr s
  | .aluAdd a b => execAluAdd a b s
  | .aluSub a b => execAluSub a b s
  | .aluCmp a b => execAluCmp a b s
  | .ptwr lvl a b present => execPtwr lvl a b present s
  | .brd64 a => execBrd64 a s
  | .bwr64 a b => execBwr64 a b s
  | .reservedOp0 low => execReservedOp0 low s
  | .reservedOp16to31 low => execReservedOp16to31 low s
  | .mov _ _ => .next s
  | .push _ _ => .next s
  | .pop _ _ => .next s
  | .leave _ _ => .next s
  | .call _ _ => .next s
  | .ret _ _ => .next s
  | .add _ _ => .next s
  | .sub _ _ => .next s
  | .cmp _ _ => .next s
  | .jne _ _ => .next s
  | .jmp _ _ => .next s
  | .reservedTag11 _ _ => .next s
  | .reservedTag12 _ _ => .next s
  | .reservedTag13 _ _ => .next s
  | .reservedTag14 _ _ => .next s
  | .reservedTag15 _ _ => .next s

/-- What a request comes to: its command's meaning, or NotImplemented where the word is none (R303, R308). -/
def serveRequest (r : Request) (s : State) : Host.Outcome State Fault Refusal :=
  match decodeRequest r with
  | .ok i => runCommand i s
  | .error _ => notImplementedCommand r.cmd s

/-- The state once a request has been served; every request is (R300). -/
def afterRequest (r : Request) (s : State) : State :=
  match serveRequest r s with
  | .next t => t
  | .fault _ => s
  | .refused _ => s

/-- Serves up to n of the requests at the head of the inbox, oldest first (R225). -/
def serveRequests : Nat → State → State
  | 0, s => s
  | n + 1, s =>
    match s.inbox with
    | .command r :: rest => serveRequests n (afterRequest r { s with inbox := rest })
    | [] => s
    | .launch _ _ :: _ => s
    | .engineTurn _ :: _ => s

/-- The host's turn before the engine's next command (R804; log 7). -/
def hostTurn (s : State) : State :=
  match s.gaps with
  | [] => s
  | n :: rest => serveRequests n { s with gaps := rest }

/-- The engine issues one block command, once the host has had its turn (R225). -/
def issue {α : Type} (command : State → Res α) (s : State) : Res α := command (hostTurn s)

end Sys2Proof.Machine
end

