-- ==== Sys2Proof/Machine/Operands.lean ====
section
/-! DEFINITION. The engine's operand forms and word accesses (spec/46_engine.md R651 to R656, spec/30_encoding.md R314),
each as the block commands it issues. Before each of them the host may have its turn (`issue`). -/

namespace Sys2Proof.Machine

/-- Cell 4, rsp (R102, R104). -/
def rspCell : BitVec 4 := 4

/-- Cell 5, rbp (R102, R104). -/
def rbpCell : BitVec 4 := 5

/-- VIEW 0, the Q view (R304). -/
def qView : BitVec 3 := 0

/-- The operand kinds an opcode takes a value from: Immediate, Register or Memory (R656). -/
inductive Source where
  | imm (v : Word)
  | reg (cell : BitVec 4) (view : BitVec 3)
  | mem (e : AddrExpr)
  deriving DecidableEq, Repr

/-- The operand kinds an opcode writes to or compares: Register or Memory (R660, R668). -/
inductive Dest where
  | reg (cell : BitVec 4) (view : BitVec 3)
  | mem (e : AddrExpr)
  deriving DecidableEq, Repr

/-- The operand kinds a control transfer takes its target from (R656): a literal, or a register. -/
inductive Target where
  | literal (v : Word)
  | reg (cell : BitVec 4) (view : BitVec 3)
  deriving DecidableEq, Repr

/-- A literal address as an address expression (R313(5)). -/
def directAddr (a : Word) : AddrExpr := { disp := a, base := none, index := none, scale := 1 }

/-- The kinds ValueOf admits (R656). -/
def asSource : Operand → Option Source
  | .empty => none
  | .imm v => some (.imm v)
  | .reg cell view => some (.reg cell view)
  | .memDirect a => some (.mem (directAddr a))
  | .memIndirect e => some (.mem e)

/-- Register or Memory (R660). -/
def asDest : Operand → Option Dest
  | .empty => none
  | .imm _ => none
  | .reg cell view => some (.reg cell view)
  | .memDirect a => some (.mem (directAddr a))
  | .memIndirect e => some (.mem e)

/-- Register only (R662, R666). -/
def asRegister : Operand → Option (BitVec 4 × BitVec 3)
  | .empty => none
  | .imm _ => none
  | .reg cell view => some (cell, view)
  | .memDirect _ => none
  | .memIndirect _ => none

/-- Memory only (R668). -/
def asMemory : Operand → Option AddrExpr
  | .empty => none
  | .imm _ => none
  | .reg _ _ => none
  | .memDirect a => some (directAddr a)
  | .memIndirect e => some e

/-- The kinds TargetOf admits: a MemoryDirect target is its literal address (R656). -/
def asTarget : Operand → Option Target
  | .empty => none
  | .imm v => some (.literal v)
  | .reg cell view => some (.reg cell view)
  | .memDirect a => some (.literal a)
  | .memIndirect _ => none

/-- The Q view of an address register; a missing one contributes 0 (R314). -/
def addrRegister : Option (BitVec 4) → State → Res Word
  | none, s => .ok 0 s
  | some c, s => issue (readReg c qView) s

/-- EA = disp + x_base + x_index * scale modulo 2^64 (R314); base is read before index. -/
def effectiveAddress (e : AddrExpr) (s : State) : Res Word :=
  (addrRegister e.base s).bind fun base s =>
  (addrRegister e.index s).bind fun index s =>
  .ok (e.disp + base + index * e.scale) s

/-- Root(), read at the time of each XLT (R651). -/
def root (s : State) : Res Word :=
  match s.params.rootSrc with
  | .gprRbp => issue (readReg rbpCell qView) s
  | .const r => .ok r s

/-- A word at va stays in its 4 KiB page (R655). -/
def inOnePage (va : Word) : Bool := !(0xFF8 : Word).ult (va &&& 0xFFF)

/-- Bytes k, k+1, … of ReadWord(va), `n` of them: each is translated, then read (R655). -/
def readWordFrom (va : Word) : Nat → Nat → State → Res Word
  | _, 0, s => .ok 0 s
  | k, n + 1, s =>
    (root s).bind fun r s =>
    (issue (translateVa (va + BitVec.ofNat 64 k) r) s).bind fun pa s =>
    (issue (readByte pa) s).bind fun b s =>
    (readWordFrom va (k + 1) n s).bind fun rest s =>
    .ok ((zext64 b <<< (8 * k)) ||| rest) s

/-- ReadWord(va) (R655). -/
def readWord (va : Word) (s : State) : Res Word :=
  if inOnePage va then readWordFrom va 0 8 s else .refused (.pageCrossingWord s.unwritten)

/-- Bytes k, k+1, … of WriteWord(va, v), `n` of them: each is translated, then written (R655). -/
def writeWordFrom (va v : Word) : Nat → Nat → State → Res Unit
  | _, 0, s => .ok () s
  | k, n + 1, s =>
    (root s).bind fun r s =>
    (issue (translateVa (va + BitVec.ofNat 64 k) r) s).bind fun pa s =>
    (issue (writeByte pa (byteOf v k)) s).bind fun _ s =>
    writeWordFrom va v (k + 1) n s

/-- WriteWord(va, v) (R655). -/
def writeWord (va v : Word) (s : State) : Res Unit :=
  if inOnePage va then writeWordFrom va v 0 8 s else .refused (.pageCrossingWord s.unwritten)

/-- A source once resolved: a value, or the address of a memory operand (R654). -/
inductive Resolved where
  | value (v : Word)
  | addr (va : Word)
  deriving DecidableEq, Repr

/-- Fixes a source at the start of the instruction: a register's value, a memory operand's address (R654). -/
def resolveSource (src : Source) (s : State) : Res Resolved :=
  match src with
  | .imm v => .ok (.value v) s
  | .reg cell view => (issue (readReg cell view) s).bind fun v s => .ok (.value v) s
  | .mem e => (effectiveAddress e s).bind fun va s => .ok (.addr va) s

/-- The value of a resolved source; a memory operand is 8 bytes, read during execution (R654, R656). -/
def valueOf (r : Resolved) (s : State) : Res Word :=
  match r with
  | .value v => .ok v s
  | .addr va => readWord va s

/-- TargetOf (R656). -/
def targetOf (t : Target) (s : State) : Res Word :=
  match t with
  | .literal v => .ok v s
  | .reg cell view => issue (readReg cell view) s

/-- The generic advance, `rip <- rip + SLOT` modulo 2^64 (R652). -/
def advance (s : State) : Res Unit := (issue readRip s).bind fun ip s => issue (writeRip (ip + slot)) s

/-- FCLR, then the generic advance. -/
def clearAndAdvance (s : State) : Res Unit := (issue clearFlags s).bind fun _ s => advance s

/-- The body of Pop into a register: read the word at sp, write the register, then add 8 to rsp as it then stands
(R662, R663). -/
def popInto (cell : BitVec 4) (view : BitVec 3) (s : State) : Res Unit :=
  (issue (readReg rspCell qView) s).bind fun sp s =>
  (readWord sp s).bind fun v s =>
  (issue (writeReg cell view v) s).bind fun _ s =>
  (issue (readReg rspCell qView) s).bind fun sp s =>
  issue (writeReg rspCell qView (sp + 8)) s

/-- Store a word below the stack pointer, then move the pointer (R661, R664). -/
def pushWord (v : Word) (s : State) : Res Unit :=
  (issue (readReg rspCell qView) s).bind fun sp s =>
  (writeWord (sp - 8) v s).bind fun _ s =>
  issue (writeReg rspCell qView (sp - 8)) s

end Sys2Proof.Machine
end

