-- ==== Sys2Proof/Machine/Engine.lean ====
section
/-! DEFINITION. The engine's eleven opcodes as sequences of block commands (spec/46_engine.md R660 to R670). Each first
checks that its operand kinds are admitted; an operand no rule uses must be Empty (R310, R657; log 14). -/

namespace Sys2Proof.Machine

/-- Mov into a register: the value, the register write (R660). -/
def movToRegister (src : Source) (cell : BitVec 4) (view : BitVec 3) (s : State) : Res Unit :=
  (resolveSource src s).bind fun r s =>
  (valueOf r s).bind fun v s =>
  (issue (writeReg cell view v) s).bind fun _ s =>
  clearAndAdvance s

/-- Mov into memory: both addresses are fixed, then the value is read and written (R654, R660). -/
def movToMemory (src : Source) (e : AddrExpr) (s : State) : Res Unit :=
  (resolveSource src s).bind fun r s =>
  (effectiveAddress e s).bind fun va s =>
  (valueOf r s).bind fun v s =>
  (writeWord va v s).bind fun _ s =>
  clearAndAdvance s

/-- Mov (R660). -/
def execMov (src dst : Operand) (s : State) : Host.Outcome State Fault Refusal :=
  match asSource src, asDest dst with
  | some src, some (.reg cell view) => endEngine (movToRegister src cell view s)
  | some src, some (.mem e) => endEngine (movToMemory src e s)
  | _, _ => engineNotImplemented s

/-- Push (R661). -/
def execPush (src dst : Operand) (s : State) : Host.Outcome State Fault Refusal :=
  match asSource src, dst with
  | some src, .empty => endEngine (
      (resolveSource src s).bind fun r s =>
      (valueOf r s).bind fun v s =>
      (pushWord v s).bind fun _ s =>
      clearAndAdvance s)
  | _, _ => engineNotImplemented s

/-- Pop (R662). -/
def execPop (src dst : Operand) (s : State) : Host.Outcome State Fault Refusal :=
  match src, asRegister dst with
  | .empty, some (cell, view) => endEngine ((popInto cell view s).bind fun _ s => clearAndAdvance s)
  | _, _ => engineNotImplemented s

/-- Leave (R663). -/
def execLeave (src dst : Operand) (s : State) : Host.Outcome State Fault Refusal :=
  match src, dst with
  | .empty, .empty => endEngine (
      (issue (readReg rbpCell qView) s).bind fun bp s =>
      (issue (writeReg rspCell qView bp) s).bind fun _ s =>
      (popInto rbpCell qView s).bind fun _ s =>
      clearAndAdvance s)
  | _, _ => engineNotImplemented s

/-- Call (R664). -/
def execCall (src dst : Operand) (s : State) : Host.Outcome State Fault Refusal :=
  match asTarget src, dst with
  | some t, .empty => endEngine (
      (targetOf t s).bind fun target s =>
      (issue readRip s).bind fun ip s =>
      (pushWord (ip + slot) s).bind fun _ s =>
      (issue (writeRip target) s).bind fun _ s =>
      issue clearFlags s)
  | _, _ => engineNotImplemented s

/-- Ret (R665). -/
def execRet (src dst : Operand) (s : State) : Host.Outcome State Fault Refusal :=
  match src, dst with
  | .empty, .empty => endEngine (
      (issue (readReg rspCell qView) s).bind fun sp s =>
      (readWord sp s).bind fun ra s =>
      (issue (writeRip ra) s).bind fun _ s =>
      (issue (writeReg rspCell qView (sp + 8)) s).bind fun _ s =>
      issue clearFlags s)
  | _, _ => engineNotImplemented s

/-- The register forms of Add and Sub (R666, R667): src is resolved and the register dst is read at the start, src
first (R654); then the value of a memory src, the flag unit's command and the write-back. -/
def aluToRegister (op : Word → Word → State → Res Word) (src : Source) (cell : BitVec 4) (view : BitVec 3)
    (s : State) : Res Unit :=
  (resolveSource src s).bind fun r s =>
  (issue (readReg cell view) s).bind fun a s =>
  (valueOf r s).bind fun b s =>
  (issue (op a b) s).bind fun r s =>
  (issue (writeReg cell view r) s).bind fun _ s =>
  advance s

/-- Add (R666). -/
def execAdd (src dst : Operand) (s : State) : Host.Outcome State Fault Refusal :=
  match asSource src, asRegister dst with
  | some src, some (cell, view) => endEngine (aluToRegister aluAdd src cell view s)
  | _, _ => engineNotImplemented s

/-- Sub (R667). -/
def execSub (src dst : Operand) (s : State) : Host.Outcome State Fault Refusal :=
  match asSource src, asRegister dst with
  | some src, some (cell, view) => endEngine (aluToRegister aluSub src cell view s)
  | _, _ => engineNotImplemented s

/-- Cmp (R668). -/
def execCmp (src dst : Operand) (s : State) : Host.Outcome State Fault Refusal :=
  match asSource src, asMemory dst with
  | some src, some e => endEngine (
      (resolveSource src s).bind fun r s =>
      (effectiveAddress e s).bind fun va s =>
      (valueOf r s).bind fun b s =>
      (readWord va s).bind fun a s =>
      (issue (aluCmp a b) s).bind fun _ s =>
      advance s)
  | _, _ => engineNotImplemented s

/-- Jne (R669). -/
def execJne (src dst : Operand) (s : State) : Host.Outcome State Fault Refusal :=
  match asTarget src, dst with
  | some t, .empty => endEngine (
      (targetOf t s).bind fun target s =>
      (issue readFlags s).bind fun f s =>
      if f.zf then advance s else issue (writeRip target) s)
  | _, _ => engineNotImplemented s

/-- Jmp (R670). -/
def execJmp (src dst : Operand) (s : State) : Host.Outcome State Fault Refusal :=
  match asTarget src, dst with
  | some t, .empty => endEngine (
      (targetOf t s).bind fun target s =>
      (issue (writeRip target) s).bind fun _ s =>
      issue clearFlags s)
  | _, _ => engineNotImplemented s

end Sys2Proof.Machine
end

