-- ==== Sys2Proof/Machine/Dispatch.lean ====
section
/-! DEFINITION. The meaning of every instruction, one arm each. -/

namespace Sys2Proof.Machine

/-- One arm per constructor of Instr. -/
def exec (i : Instr) (s : State) : Host.Outcome State Fault Refusal :=
  match i with
  -- the block's commands
  | .crd a => Sys2Proof.Machine.execCrd a s
  | .cwr a d => Sys2Proof.Machine.execCwr a d s
  | .xlt a b => Sys2Proof.Machine.execXlt a b s
  | .rrd cell view => Sys2Proof.Machine.execRrd cell view s
  | .rwr cell view a => Sys2Proof.Machine.execRwr cell view a s
  | .iprd => Sys2Proof.Machine.execIprd s
  | .ipwr a => Sys2Proof.Machine.execIpwr a s
  | .frd => Sys2Proof.Machine.execFrd s
  | .fclr => Sys2Proof.Machine.execFclr s
  | .aluAdd a b => Sys2Proof.Machine.execAluAdd a b s
  | .aluSub a b => Sys2Proof.Machine.execAluSub a b s
  | .aluCmp a b => Sys2Proof.Machine.execAluCmp a b s
  | .ptwr lvl a b present => Sys2Proof.Machine.execPtwr lvl a b present s
  | .brd64 a => Sys2Proof.Machine.execBrd64 a s
  | .bwr64 a b => Sys2Proof.Machine.execBwr64 a b s
  | .reservedOp0 low => Sys2Proof.Machine.execReservedOp0 low s
  | .reservedOp16to31 low => Sys2Proof.Machine.execReservedOp16to31 low s
  -- the engine's opcodes
  | .mov src dst => Sys2Proof.Machine.execMov src dst s
  | .push src dst => Sys2Proof.Machine.execPush src dst s
  | .pop src dst => Sys2Proof.Machine.execPop src dst s
  | .leave src dst => Sys2Proof.Machine.execLeave src dst s
  | .call src dst => Sys2Proof.Machine.execCall src dst s
  | .ret src dst => Sys2Proof.Machine.execRet src dst s
  | .add src dst => Sys2Proof.Machine.execAdd src dst s
  | .sub src dst => Sys2Proof.Machine.execSub src dst s
  | .cmp src dst => Sys2Proof.Machine.execCmp src dst s
  | .jne src dst => Sys2Proof.Machine.execJne src dst s
  | .jmp src dst => Sys2Proof.Machine.execJmp src dst s
  | .reservedTag11 _ _ => Sys2Proof.Machine.execReservedTag11 s
  | .reservedTag12 _ _ => Sys2Proof.Machine.execReservedTag12 s
  | .reservedTag13 _ _ => Sys2Proof.Machine.execReservedTag13 s
  | .reservedTag14 _ _ => Sys2Proof.Machine.execReservedTag14 s
  | .reservedTag15 _ _ => Sys2Proof.Machine.execReservedTag15 s

end Sys2Proof.Machine
end

