-- ==== Sys2Proof/Machine/Fetch.lean ====
section
/-! DEFINITION. Where a step takes its instruction from: a request on the port (spec/30_encoding.md R300, R308), or the
engine's program at rip (spec/46_engine.md R650). -/

namespace Sys2Proof.Machine

/-- What a step is to do: run an instruction from a state, or answer at once. -/
inductive Fetched where
  | instr (i : Instr) (s : State)
  | done (o : Host.Outcome State Fault Refusal)

/-- A request (R308): a word the decoder does not accept is answered NotImplemented (R303). -/
def fetchRequest (r : Request) (s : State) : Fetched :=
  match decodeRequest r with
  | .ok i => .instr i s
  | .error _ => .done (notImplementedCommand r.cmd s)

/-- A record (R650): one the decoder does not accept faults the engine with the error's status and changes nothing
else (R314, R671). -/
def fetchRecord (r : Record) (s : State) : Fetched :=
  match decodeRecord r with
  | .ok i => .instr i s
  | .error e => .done (.next (s.engineFault e.status e.info))

/-- One engine step (R650). It reads rip, a read like any other (R105). The spec gives no order between Unwritten of that
read and NoInstruction: the step answers NoInstruction, and the fault carries the record of both (DESIGN CHOICE, log 2).
An engine that is not running issues nothing (log 8, log 9). -/
def fetchEngine (s : State) : Fetched :=
  match s.run with
  | .running exitRip =>
    let s := s.noteRead s.ripWr
    if s.rip = exitRip then .done (.next { s with run := .ended })
    else
      match lookupKey s.prog s.rip.toNat with
      | some r => fetchRecord r s
      | none => .done (.fault (.noInstruction s.unwritten))
  | .idle => .done (.next s)
  | .ended => .done (.next s)
  | .faulted _ _ => .done (.next s)

/-- What the next step does: the oldest input, and with none the engine (log 7). -/
def fetch (s : State) : Fetched :=
  match s.inbox with
  | [] => fetchEngine { s with gaps := [] }
  | .command r :: rest => fetchRequest r { s with inbox := rest }
  | .launch prog exitRip :: rest => .done (.next { s with inbox := rest, prog, run := .running exitRip })
  | .engineTurn gaps :: rest => fetchEngine { s with inbox := rest, gaps }

/-- Places a request, or a record at rip, where the next step takes it from. For a record the engine has the turn, is
running, and rip is not the exit address (log 8). -/
def placeEncoded (s : State) : Encoded → State
  | .request r => { s with inbox := .command r :: s.inbox }
  | .record r =>
    { s with
      inbox := .engineTurn [] :: s.inbox
      prog := insertKey s.prog s.rip.toNat r
      run := match s.run with
        | .running exitRip => if exitRip = s.rip then .running (s.rip + slot) else .running exitRip
        | .idle => .running (s.rip + slot)
        | .ended => .running (s.rip + slot)
        | .faulted _ _ => .running (s.rip + slot) }

end Sys2Proof.Machine
end

