-- ==== Sys2Proof/Machine/Step.lean ====
section
/-! DEFINITION. One step of the machine, and how an instruction is placed where the next step takes it from. -/

namespace Sys2Proof.Machine

/-- One step: one command, one engine instruction, or one launch (spec/30_encoding.md R300, spec/46_engine.md R650). -/
def step (s : State) : Host.Outcome State Fault Refusal :=
  match fetch s with
  | .instr i s => exec i s
  | .done o => o

/-- The state with an opcode-table word placed so that the next step runs it (log 8, log 11). -/
def State.withFetchWord (s : State) (nbits w : Nat) : State := placeEncoded s (tableEncoded nbits w)

end Sys2Proof.Machine
end

