-- ==== Sys2Proof/Safety.lean ====
section
/-! DEFINITION. The terms claims are made in: the invariants of spec/10_state.md R112, the coherence condition of
spec/20_memory.md R221, what an instruction's operands come to in a state, and how memory may change. -/

namespace Sys2Proof

/-- The instructions of space 1, the block's commands (R302); the others are the engine's. -/
def Instr.isCommand : Instr → Bool
  | .crd _ => true
  | .cwr _ _ => true
  | .xlt _ _ => true
  | .rrd _ _ => true
  | .rwr _ _ _ => true
  | .iprd => true
  | .ipwr _ => true
  | .frd => true
  | .fclr => true
  | .aluAdd _ _ => true
  | .aluSub _ _ => true
  | .aluCmp _ _ => true
  | .ptwr _ _ _ _ => true
  | .brd64 _ => true
  | .bwr64 _ _ => true
  | .reservedOp0 _ => true
  | .reservedOp16to31 _ => true
  | .mov _ _ => false
  | .push _ _ => false
  | .pop _ _ => false
  | .leave _ _ => false
  | .call _ _ => false
  | .ret _ _ => false
  | .add _ _ => false
  | .sub _ _ => false
  | .cmp _ _ => false
  | .jne _ _ => false
  | .jmp _ _ => false
  | .reservedTag11 _ _ => false
  | .reservedTag12 _ _ => false
  | .reservedTag13 _ _ => false
  | .reservedTag14 _ _ => false
  | .reservedTag15 _ _ => false

/-- Immediate, Register or Memory: what ValueOf admits (R656). -/
def Operand.isValue : Operand → Bool
  | .empty => false
  | .imm _ => true
  | .reg _ _ => true
  | .memDirect _ => true
  | .memIndirect _ => true

/-- Immediate, MemoryDirect or Register: what TargetOf admits (R656). -/
def Operand.isTarget : Operand → Bool
  | .empty => false
  | .imm _ => true
  | .reg _ _ => true
  | .memDirect _ => true
  | .memIndirect _ => false

/-- Register. -/
def Operand.isRegister : Operand → Bool
  | .empty => false
  | .imm _ => false
  | .reg _ _ => true
  | .memDirect _ => false
  | .memIndirect _ => false

/-- MemoryDirect or MemoryIndirect. -/
def Operand.isMemory : Operand → Bool
  | .empty => false
  | .imm _ => false
  | .reg _ _ => false
  | .memDirect _ => true
  | .memIndirect _ => true

/-- The operand kinds each engine opcode admits, as the Operands and Exceptions lines of R660 to R670 list them; an
operand no rule uses is Empty (R310; log 14). No reserved TAG admits any (R671). A command has no kinds to check. -/
def Instr.admitted : Instr → Bool
  | .crd _ => true
  | .cwr _ _ => true
  | .xlt _ _ => true
  | .rrd _ _ => true
  | .rwr _ _ _ => true
  | .iprd => true
  | .ipwr _ => true
  | .frd => true
  | .fclr => true
  | .aluAdd _ _ => true
  | .aluSub _ _ => true
  | .aluCmp _ _ => true
  | .ptwr _ _ _ _ => true
  | .brd64 _ => true
  | .bwr64 _ _ => true
  | .reservedOp0 _ => true
  | .reservedOp16to31 _ => true
  | .mov src dst => src.isValue && (dst.isRegister || dst.isMemory)
  | .push src dst => src.isValue && dst == .empty
  | .pop src dst => src == .empty && dst.isRegister
  | .leave src dst => src == .empty && dst == .empty
  | .call src dst => src.isTarget && dst == .empty
  | .ret src dst => src == .empty && dst == .empty
  | .add src dst => src.isValue && dst.isRegister
  | .sub src dst => src.isValue && dst.isRegister
  | .cmp src dst => src.isValue && dst.isMemory
  | .jne src dst => src.isTarget && dst == .empty
  | .jmp src dst => src.isTarget && dst == .empty
  | .reservedTag11 _ _ => false
  | .reservedTag12 _ _ => false
  | .reservedTag13 _ _ => false
  | .reservedTag14 _ _ => false
  | .reservedTag15 _ _ => false

namespace Machine

/-! ### Invariants -/

/-- A line holds valid data. -/
abbrev Line.valid (l : Line) : Prop := l.state ≠ .invalid

/-- R112(a), (c), (d) for a line of set i. -/
abbrev LineWf (memSize : Nat) (i : Fin 64) (l : Line) : Prop :=
  (l.state = .invalid ↔ l.time = -1) ∧
  (l.valid → 0 ≤ l.time.toInt) ∧
  (l.valid → (wbAddr i l.tag).toNat < memSize)

/-- R112(b): no two valid lines of a set have the same tag. -/
abbrev TagsDiffer (set : CacheSet) : Prop := set.Pairwise fun a b => a.valid → b.valid → a.tag ≠ b.tag

/-- R412: two valid lines of a set have equal times only once both are saturated. -/
abbrev TimesDiffer (set : CacheSet) : Prop :=
  set.Pairwise fun a b => a.valid → b.valid → a.time = b.time → a.time.toInt = maxTime

/-- What every reachable state keeps: R10's parameters, N_WAYS lines a set (R110), R112, the canonical memory inside
MEM_SIZE (R209), and level maps in canonical form. -/
structure State.Inv (s : State) : Prop where
  params : s.params.wf
  ways : ∀ i : Fin 64, s.cache[i].length = s.params.nWays
  lines : ∀ i : Fin 64, ∀ l ∈ s.cache[i], LineWf s.params.memSize i l
  tags : ∀ i : Fin 64, TagsDiffer s.cache[i]
  memory : s.mem.wf
  inside : ∀ c ∈ s.mem, c.1 < s.params.memSize
  maps : ∀ k : Fin 4, KeysRise s.pt[k]

/-- The condition of R221, as a property of the state: every Clean line equals the store at its address. It holds as
long as no BWR64 writes a block that a line holds. -/
def State.Coherent (s : State) : Prop :=
  ∀ i : Fin 64, ∀ l ∈ s.cache[i], l.state = .clean → l.block = busReadLine s.mem (wbAddr i l.tag).toNat

/-- The set of an index, cache[i] (R110). -/
def State.setAt (s : State) (i : Fin 64) : CacheSet := s.cache[i]

/-- The line of way v of set i, for a v below the set's length (R110). -/
def State.way (s : State) (i : Fin 64) (v : Nat) : Line := wayOf (s.setAt i) v

/-- Some line holds the block of p (R222, R812). -/
def State.holds (s : State) (p : Word) : Prop := ∃ l ∈ s.cache[setIndexOf p], l.holds (tagOf p)

/-- The normal end of a run (R650). A faulted or refused step is never one (R657, R703), nor is a run in whose state
the model fault Unwritten is recorded (R105, R703; log 2). -/
def State.endedNormally (s : State) : Prop := s.run = .ended ∧ s.unwritten = false

/-- The requests at the head of the inbox. -/
def leadingRequests : List Input → List Request
  | .command r :: rest => r :: leadingRequests rest
  | [] => []
  | .launch _ _ :: _ => []
  | .engineTurn _ :: _ => []

/-- The host's requests that may land inside the engine's instruction (R804; log 7). -/
def State.mayLand (s : State) : List Request := (leadingRequests s.inbox).take s.gaps.sum

/-! ### What operands come to -/

/-- The value of a register view, where the selector names one (R502). -/
def State.regValue (s : State) (cell : BitVec 4) (view : BitVec 3) : Option Word :=
  (viewOfSel cell view).map fun v => viewRead v (s.cell cell)

/-- An address register's contribution: its Q view, and 0 for a missing one (R314). -/
def State.addrValue (s : State) : Option (BitVec 4) → Word
  | none => 0
  | some c => s.cell c

/-- The effective address (R314). -/
def State.ea (s : State) (e : AddrExpr) : Word := e.disp + s.addrValue e.base + s.addrValue e.index * e.scale

/-- The root key (R651). -/
def State.rootKey (s : State) : Word :=
  match s.params.rootSrc with
  | .gprRbp => s.cell rbpCell
  | .const r => r

/-- The physical address of a word at va: in one page, translated, and wholly in bounds (R655). -/
def State.wordAddr (s : State) (va : Word) : Option Word :=
  if inOnePage va then
    match walk s.pt va s.rootKey with
    | .ok pa => if pa.toNat + 8 ≤ s.params.memSize then some pa else none
    | .error _ => none
  else none

/-- The client's view of the word at a physical address (R212, R220). -/
def State.effWord (s : State) (pa : Word) : Word :=
  wordOfBytes ((List.range 8).map fun k => s.eff (pa + BitVec.ofNat 64 k))

/-- The word ReadWord(va) reads, where it can (R655). -/
def State.wordValue (s : State) (va : Word) : Option Word := (s.wordAddr va).map s.effWord

/-- ValueOf, where it has a value (R656). -/
def State.sourceValue (s : State) : Source → Option Word
  | .imm v => some v
  | .reg cell view => s.regValue cell view
  | .mem e => s.wordValue (s.ea e)

/-- A source once resolved, where it can be: an address needs no register that could be missing (R654). -/
def State.resolved (s : State) : Source → Option Resolved
  | .imm v => some (.value v)
  | .reg cell view => (s.regValue cell view).map .value
  | .mem e => some (.addr (s.ea e))

/-- The first byte of a word at va, in one page, has no translation: level k + 1 is the first that is missing (R453,
R655). -/
def State.PageFaultAt (s : State) (va : Word) (k : Fin 4) : Prop :=
  inOnePage va = true ∧ walk s.pt va s.rootKey = .error k

/-- The word at va, in one page, translates to pa and does not lie wholly in bounds (R209, R655). -/
def State.BoundsFaultAt (s : State) (va pa : Word) : Prop :=
  inOnePage va = true ∧ walk s.pt va s.rootKey = .ok pa ∧ s.params.memSize < pa.toNat + 8

/-- The first address of the word at pa that is out of bounds: the info of its OutOfBounds (R402, R655). -/
def State.boundsInfo (s : State) (pa : Word) : Word := BitVec.ofNat 64 (max pa.toNat s.params.memSize)

/-- The state in which the engine has the turn, if it has it (R650; log 7). -/
def State.engineTurn (s : State) : Option State :=
  match s.inbox with
  | [] => some { s with gaps := [] }
  | .engineTurn gaps :: rest => some { s with inbox := rest, gaps }
  | .command _ :: _ => none
  | .launch _ _ :: _ => none

/-- TargetOf, where it has a value (R656). -/
def State.targetValue (s : State) : Target → Option Word
  | .literal v => some v
  | .reg cell view => s.regValue cell view

/-! ### Whether what an operand reads has been written (R105; log 2) -/

/-- Every lane of the view has, where the selector names one. -/
def State.viewWritten (s : State) (cell : BitVec 4) (view : BitVec 3) : Bool :=
  match viewOfSel cell view with
  | some v => s.laneWritten cell v
  | none => true

/-- An address register. -/
def State.addrWritten (s : State) : Option (BitVec 4) → Bool
  | none => true
  | some c => s.laneWritten c .q

/-- The registers of an address. -/
def State.eaWritten (s : State) (e : AddrExpr) : Bool := s.addrWritten e.base && s.addrWritten e.index

/-- The root, where it is a register (R651). -/
def State.rootWritten (s : State) : Bool :=
  match s.params.rootSrc with
  | .gprRbp => s.laneWritten rbpCell .q
  | .const _ => true

/-- All that resolving a source reads (R654). -/
def State.resolveWritten (s : State) : Source → Bool
  | .imm _ => true
  | .reg cell view => s.viewWritten cell view
  | .mem e => s.eaWritten e

/-- All that ValueOf reads. -/
def State.sourceWritten (s : State) : Source → Bool
  | .imm _ => true
  | .reg cell view => s.viewWritten cell view
  | .mem e => s.eaWritten e && s.rootWritten

/-- All that TargetOf reads. -/
def State.targetWritten (s : State) : Target → Bool
  | .literal _ => true
  | .reg cell view => s.viewWritten cell view

/-- The refusal PageCrossingWord (R655) of an instruction whose reads before that access have, or have not, all been
written. -/
def State.pageCrossing (s : State) (written : Bool) : Host.Outcome State Fault Refusal :=
  .refused (.pageCrossingWord (s.noteRead written).unwritten)

/-! ### Page-table entries -/

/-- The map has a present entry of this base for the key (R452). -/
def PresentAt (m : PageMap) (key base : Word) : Prop := lookupKey m key.toNat = some { present := true, base }

/-- The key has no entry, or one that is not present (R450). -/
def AbsentAt (m : PageMap) (key : Word) : Prop := ∀ e, lookupKey m key.toNat = some e → e.present = false

/-! ### How state may change -/

/-- The state after a view of a cell is written (R503). -/
def State.writeView (s : State) (cell : BitVec 4) (v : View) (value : Word) : State :=
  s.setCell cell (viewWrite v (s.cell cell) value) (s.marks cell ||| viewLanes v)

/-- t is s but for the cache and the backing store. -/
def SameButMemory (s t : State) : Prop := t = { s with cache := t.cache, mem := t.mem }

/-- Outside the n bytes from a physical address up, the client reads what it read before, and a byte of the backing
store is as before or holds what the client read there (R221; a write-back moves such a byte). -/
def MemoryKept (s t : State) (lo n : Nat) : Prop :=
  ∀ q : Word, q.toNat < s.params.memSize → ¬(lo ≤ q.toNat ∧ q.toNat < lo + n) →
    t.eff q = s.eff q ∧
    (t.mem.read q.toNat = s.mem.read q.toNat ∨ t.mem.read q.toNat = s.eff q)

/-- Two states the client cannot tell apart: they differ in cache and store alone, and every byte reads the same (R220). -/
def SameToClient (s t : State) : Prop :=
  SameButMemory s t ∧ ∀ q : Word, q.toNat < s.params.memSize → t.eff q = s.eff q

/-- Two outcomes the client cannot tell apart. -/
def SameOutcome : Host.Outcome State Fault Refusal → Host.Outcome State Fault Refusal → Prop
  | .next s, .next t => SameToClient s t
  | .fault f, .fault g => f = g
  | .refused f, .refused g => f = g
  | .next _, .fault _ => False
  | .next _, .refused _ => False
  | .fault _, .next _ => False
  | .fault _, .refused _ => False
  | .refused _, .next _ => False
  | .refused _, .fault _ => False

/-- The client's view of the 8 bytes at a physical address is the little-endian word v (R212). -/
def WordStored (t : State) (pa v : Word) : Prop :=
  ∀ k : Nat, k < 8 → t.eff (pa + BitVec.ofNat 64 k) = byteOf v k

end Machine

end Sys2Proof
end

