-- ==== Sys2Proof/Certificates/Slice0/Obligations.lean ====
section
/-! DEFINITION. The statements for the provers, family by family. Two premises recur. `State.Inv` is the invariant of
spec/10_state.md R112 with the canonical form of the model's data: every step keeps it (StepKeepsInv) and reset has it.
`State.Coherent` is the condition of spec/20_memory.md R221, under which the client sees a plain memory: every step
keeps it but a BWR64 to a block that a line holds (StepKeepsCoherence), which R804 and R812 forbid the host. A third,
`s.gaps = []`, is that no request of the host lands inside the instruction (R804; log 7); PtwrLandsBetweenXlts says what
one does. `noteRead` is the record of the model fault Unwritten (R105; log 2): no other field depends on it. -/

section

open Sys2Proof Sys2Proof.Machine

/-! ### The address codec -/

/-- R201 to R203: the slices are the bit fields a[11:0], a[51:12], a[5:0] and a[11:6]. -/
def Obligations.CodecSlicesAreBitFields : Prop :=
  ∀ a : Word,
    pageOffset a = zext64 (a.extractLsb' 0 12) ∧
    pageNumber a = zext64 (a.extractLsb' 12 40) ∧
    blockOffset a = zext64 (a.extractLsb' 0 6) ∧
    setIndex a = zext64 (a.extractLsb' 6 6)

/-- R207, all four laws; R205 and R206 say which bits the two functions replace. -/
def Obligations.CodecRoundTrips : Prop :=
  ∀ a p q : Word,
    withPageOffset a (pageOffset a) = a ∧
    withPageNumber a (pageNumber a) = a ∧
    pageNumber (withPageNumber a p) = p &&& 0xFFFFFFFFFF ∧
    pageOffset (withPageOffset a q) = q &&& 0xFFF

/-- R204: the tag is a[51:12], and tag, set and offset name every byte address below 2^52 exactly once. -/
def Obligations.AddressNamesOneByte : Prop :=
  (∀ a : Word, blockTag a = pageNumber a ∧ blockTag a = zext64 (a.extractLsb' 12 40) ∧ blockTag a = zext64 (tagOf a) ∧
    (setIndex a).toNat = (setIndexOf a).val ∧ (blockOffset a).toNat = (offsetOf a).val) ∧
  (∀ (tag : BitVec 40) (i o : Fin 64), ∃ p : Word,
    p.toNat < 2 ^ 52 ∧ tagOf p = tag ∧ setIndexOf p = i ∧ offsetOf p = o ∧
    ∀ q : Word, q.toNat < 2 ^ 52 → tagOf q = tag → setIndexOf q = i → offsetOf q = o → q = p)

/-! ### The cache -/

/-- R220, R221: CRD returns the client's byte and changes no byte the client reads; CWR sets that one byte. Both
complete for every address in bounds. -/
def Obligations.ClientSeesPlainMemory : Prop :=
  ∀ (s : State) (p : Word) (d : Byte), s.Inv → s.Coherent → p.toNat < s.params.memSize →
    (∃ t, exec (.crd p) s = .next t ∧
      t = { s with cache := t.cache, mem := t.mem, resp := some { status := .ok, rdata := zext64 (s.eff p) } } ∧
      (∀ q : Word, q.toNat < s.params.memSize → t.eff q = s.eff q) ∧ MemoryKept s t 0 0) ∧
    (∃ t, exec (.cwr p d) s = .next t ∧
      t = { s with cache := t.cache, mem := t.mem, resp := some { status := .ok, rdata := 0 } } ∧
      t.eff p = d ∧
      (∀ q : Word, q.toNat < s.params.memSize → q ≠ p → t.eff q = s.eff q) ∧ MemoryKept s t p.toNat 1)

/-- R402: out of bounds, both commands answer OutOfBounds with the address and change nothing; an address with any of
bits 63 to 52 set is always out of bounds. -/
def Obligations.CacheOutOfBounds : Prop :=
  (∀ (s : State) (p : Word) (d : Byte), s.params.memSize ≤ p.toNat →
    exec (.crd p) s = .next { s with resp := some { status := .outOfBounds, rdata := p } } ∧
    exec (.cwr p d) s = .next { s with resp := some { status := .outOfBounds, rdata := p } }) ∧
  (∀ (s : State) (p : Word), s.params.wf → p.extractLsb' 52 12 ≠ 0 → s.params.memSize ≤ p.toNat)

/-- R403: at most one way hits; a hit changes no tag, no state but that a CWR makes the line Dirty, no block byte but
the written one, and does not touch the backing store or another set. -/
def Obligations.HitLeavesTagsAndStore : Prop :=
  ∀ (s : State) (p : Word) (d : Byte) (w : Nat), s.Inv → p.toNat < s.params.memSize →
    w < (s.setAt (setIndexOf p)).length →
    (s.way (setIndexOf p) w).holds (tagOf p) = true →
    (∀ v < (s.setAt (setIndexOf p)).length, (s.way (setIndexOf p) v).holds (tagOf p) = true → v = w) ∧
    (∃ t, exec (.crd p) s = .next t ∧ t.mem = s.mem ∧ (∀ j : Fin 64, j ≠ setIndexOf p → t.setAt j = s.setAt j) ∧
      (t.setAt (setIndexOf p)).length = (s.setAt (setIndexOf p)).length ∧
      ∀ v < (s.setAt (setIndexOf p)).length,
        (t.way (setIndexOf p) v).tag = (s.way (setIndexOf p) v).tag ∧
        (t.way (setIndexOf p) v).state = (s.way (setIndexOf p) v).state ∧
        (t.way (setIndexOf p) v).block = (s.way (setIndexOf p) v).block) ∧
    (∃ t, exec (.cwr p d) s = .next t ∧ t.mem = s.mem ∧ (∀ j : Fin 64, j ≠ setIndexOf p → t.setAt j = s.setAt j) ∧
      (t.setAt (setIndexOf p)).length = (s.setAt (setIndexOf p)).length ∧
      ∀ v < (s.setAt (setIndexOf p)).length,
        (t.way (setIndexOf p) v).tag = (s.way (setIndexOf p) v).tag ∧
        (t.way (setIndexOf p) v).state = (if v = w then .dirty else (s.way (setIndexOf p) v).state) ∧
        (t.way (setIndexOf p) v).block =
          (if v = w then (s.way (setIndexOf p) v).block.set (offsetOf p).val d else (s.way (setIndexOf p) v).block))

/-- R404: the victim is the lowest Invalid way, and in a full set the lowest way of the maximum time. -/
def Obligations.VictimIsLowestInvalidElseOldest : Prop :=
  ∀ set : CacheSet, 0 < set.length →
    victim set < set.length ∧
    ((∃ l ∈ set, l.state = .invalid) →
      (wayOf set (victim set)).state = .invalid ∧ ∀ v < victim set, (wayOf set v).state ≠ .invalid) ∧
    ((∀ l ∈ set, l.state ≠ .invalid) →
      (∀ v < set.length, (wayOf set v).time.toInt ≤ (wayOf set (victim set)).time.toInt) ∧
      ∀ v < victim set, (wayOf set v).time.toInt < (wayOf set (victim set)).time.toInt)

/-- R405, R407: a miss writes a Dirty victim back to its own address first, drops any other, and then holds the whole
block of p, read from the store as it then stands; a CWR replaces its one byte and makes the line Dirty. -/
def Obligations.MissFillsTheVictim : Prop :=
  ∀ (s : State) (p : Word) (d : Byte) (w : Nat) (old : Line), s.Inv → p.toNat < s.params.memSize →
    (∀ l ∈ s.setAt (setIndexOf p), l.holds (tagOf p) = false) →
    w = victim (s.setAt (setIndexOf p)) → old = s.way (setIndexOf p) w →
    ∃ t u, exec (.crd p) s = .next t ∧ exec (.cwr p d) s = .next u ∧ u.mem = t.mem ∧
      (old.state ≠ .dirty → t.mem = s.mem) ∧
      (old.state = .dirty →
        (∀ o : Fin 64, t.mem.read (old.tag.toNat * 4096 + (setIndexOf p).val * 64 + o.val) = old.block[o]) ∧
        ∀ a : Nat, ¬(old.tag.toNat * 4096 + (setIndexOf p).val * 64 ≤ a ∧
          a < old.tag.toNat * 4096 + (setIndexOf p).val * 64 + 64) → t.mem.read a = s.mem.read a) ∧
      t.way (setIndexOf p) w =
        { state := .clean, tag := tagOf p, time := 0, block := busReadLine t.mem (p.toNat / 64 * 64) } ∧
      u.way (setIndexOf p) w =
        { state := .dirty, tag := tagOf p, time := 0
          block := (busReadLine t.mem (p.toNat / 64 * 64)).set (offsetOf p).val d }

/-- R406: every access in bounds sets the accessed way's time to 0, makes every other valid line of the set one access
older up to 2^63 - 1, and leaves Invalid lines and other sets as they were. -/
def Obligations.TouchAgesTheSet : Prop :=
  ∀ (s : State) (p : Word) (d : Byte) (i : Instr), s.Inv → p.toNat < s.params.memSize → i = .crd p ∨ i = .cwr p d →
    ∃ t w, exec i s = .next t ∧ (∀ j : Fin 64, j ≠ setIndexOf p → t.setAt j = s.setAt j) ∧
      (t.setAt (setIndexOf p)).length = (s.setAt (setIndexOf p)).length ∧ w < (s.setAt (setIndexOf p)).length ∧
      (t.way (setIndexOf p) w).holds (tagOf p) = true ∧ (t.way (setIndexOf p) w).time = 0 ∧
      ∀ v < (s.setAt (setIndexOf p)).length, v ≠ w →
        t.way (setIndexOf p) v =
          { s.way (setIndexOf p) v with
            time := if (s.way (setIndexOf p) v).state = .invalid then (s.way (setIndexOf p) v).time
              else BitVec.ofInt 64 (min ((s.way (setIndexOf p) v).time.toInt + 1) (2 ^ 63 - 1)) }

/-- R229, R408, R801: no step makes a valid line Invalid. -/
def Obligations.NoStepInvalidatesALine : Prop :=
  ∀ (s t : State), step s = .next t → ∀ (i : Fin 64), ∀ w < (s.setAt i).length, (s.way i w).valid →
    w < (t.setAt i).length ∧ (t.way i w).valid

/-! ### The walker -/

/-- R453, R454: with a chain present from L1 to L4, XLT returns the composed address; bits 51 to 12 are the low 40 bits
of the L4 base, bits 11 to 0 the page offset, bits 63 to 52 zero. -/
def Obligations.XltComposes : Prop :=
  ∀ (s : State) (va r b1 b2 b3 ppn : Word), PresentAt s.pt[0] r b1 → PresentAt s.pt[1] b1 b2 → PresentAt s.pt[2] b2 b3 →
    PresentAt s.pt[3] b3 ppn → ∃ pa : Word,
      exec (.xlt va r) s = .next { s with resp := some { status := .ok, rdata := pa } } ∧
      pa = ((ppn <<< 12) &&& 0x000FFFFFFFFFF000) ||| (va &&& 0xFFF) ∧
      pa.extractLsb' 12 40 = ppn.setWidth 40 ∧ pa.extractLsb' 0 12 = va.setWidth 12 ∧ pa.extractLsb' 52 12 = 0

/-- R450, R452, R453, R455: the first level that is absent or not present decides the PageFault and its number, and
nothing else changes. -/
def Obligations.XltFaultsAtFirstMissingLevel : Prop :=
  ∀ (s : State) (va r b1 b2 b3 : Word),
    (AbsentAt s.pt[0] r → exec (.xlt va r) s = .next { s with resp := some { status := .pageFault, rdata := 1 } }) ∧
    (PresentAt s.pt[0] r b1 → AbsentAt s.pt[1] b1 →
      exec (.xlt va r) s = .next { s with resp := some { status := .pageFault, rdata := 2 } }) ∧
    (PresentAt s.pt[0] r b1 → PresentAt s.pt[1] b1 b2 → AbsentAt s.pt[2] b2 →
      exec (.xlt va r) s = .next { s with resp := some { status := .pageFault, rdata := 3 } }) ∧
    (PresentAt s.pt[0] r b1 → PresentAt s.pt[1] b1 b2 → PresentAt s.pt[2] b2 b3 → AbsentAt s.pt[3] b3 →
      exec (.xlt va r) s = .next { s with resp := some { status := .pageFault, rdata := 4 } })

/-- R456: addresses with one page offset translate alike. -/
def Obligations.XltIgnoresPageNumber : Prop :=
  ∀ (s : State) (va va' r : Word), va.extractLsb' 0 12 = va'.extractLsb' 0 12 → exec (.xlt va r) s = exec (.xlt va' r) s

/-- R461: PTWR completes, sets the one entry of its level and key, and changes no other entry and nothing else. -/
def Obligations.PtwrReplacesOneEntry : Prop :=
  ∀ (s : State) (lvl : BitVec 2) (a b : Word) (present : Bool), ∃ t, exec (.ptwr lvl a b present) s = .next t ∧
    t = { s with pt := t.pt, resp := some { status := .ok, rdata := 0 } } ∧
    lookupKey t.pt[lvl.toNat] a.toNat = some { present, base := b } ∧
    ∀ (k : Fin 4) (key : Nat), ¬(k.val = lvl.toNat ∧ key = a.toNat) → lookupKey t.pt[k] key = lookupKey s.pt[k] key

/-! ### The register file -/

/-- R304: which bits of the cell a valid selector names, for every CELL and VIEW, and that any other selector is
UnknownRegister for RRD and RWR, with the command word as its info and nothing changed. -/
def Obligations.SelectorsNameViews : Prop :=
  ∀ (s : State) (cell : BitVec 4) (view : BitVec 3) (a : Word),
    (view = 0 → ∃ v, viewOfSel cell view = some v ∧ viewLo v = 0 ∧ viewWidth v = 64) ∧
    (view = 1 → ∃ v, viewOfSel cell view = some v ∧ viewLo v = 0 ∧ viewWidth v = 32) ∧
    (view = 2 → ∃ v, viewOfSel cell view = some v ∧ viewLo v = 0 ∧ viewWidth v = 16) ∧
    (view = 3 → ∃ v, viewOfSel cell view = some v ∧ viewLo v = 0 ∧ viewWidth v = 8) ∧
    (view = 4 ∧ cell.toNat < 4 → ∃ v, viewOfSel cell view = some v ∧ viewLo v = 8 ∧ viewWidth v = 8) ∧
    (5 ≤ view.toNat ∨ (view = 4 ∧ 4 ≤ cell.toNat) →
      exec (.rrd cell view) s = .next { s with
        resp := some { status := .unknownRegister
                       rdata := BitVec.ofNat 64 (0x2000 + 128 * cell.toNat + 16 * view.toNat) } } ∧
      exec (.rwr cell view a) s = .next { s with
        resp := some { status := .unknownRegister
                       rdata := BitVec.ofNat 64 (0x2800 + 128 * cell.toNat + 16 * view.toNat) } })

/-- R502: a read through any valid selector completes with the view's bits, zero-extended. Beside the response it
changes only the record of the model fault Unwritten (log 2: the spec calls the read of an unwritten lane that fault;
the model goes on with the lane's contents): the record is set exactly where a lane of the view has not been written. -/
def Obligations.RrdReadsView : Prop :=
  ∀ (s : State) (cell : BitVec 4) (view : BitVec 3) (v : View), viewOfSel cell view = some v → ∃ u : Bool,
    exec (.rrd cell view) s = .next { s with
      unwritten := s.unwritten || u
      resp := some { status := .ok, rdata := zext64 ((s.cell cell).extractLsb' (viewLo v) (viewWidth v)) } } ∧
    (u = false ↔ ∀ j < 8, viewLo v ≤ 8 * j → 8 * j < viewLo v + viewWidth v → (s.marks cell).getLsbD j = true)

/-- R503, R504: RWR sets the view's bits from the low bits of the value and the marks of the view's lanes; every other
bit, mark and cell, and everything else, is unchanged; so a D view replaces bits 31 to 0 and keeps bits 63 to 32. -/
def Obligations.RwrWritesView : Prop :=
  ∀ (s : State) (cell : BitVec 4) (view : BitVec 3) (v : View) (a : Word), viewOfSel cell view = some v →
    ∃ t, exec (.rwr cell view a) s = .next t ∧
      t = { s with gpr := t.gpr, wr := t.wr, resp := some { status := .ok, rdata := 0 } } ∧
      (t.cell cell).extractLsb' (viewLo v) (viewWidth v) = a.setWidth (viewWidth v) ∧
      (∀ j < 64, j < viewLo v ∨ viewLo v + viewWidth v ≤ j → (t.cell cell).getLsbD j = (s.cell cell).getLsbD j) ∧
      (∀ j < 8, (t.marks cell).getLsbD j =
        ((s.marks cell).getLsbD j || decide (viewLo v ≤ 8 * j ∧ 8 * j < viewLo v + viewWidth v))) ∧
      (∀ c : BitVec 4, c ≠ cell → t.cell c = s.cell c ∧ t.marks c = s.marks c) ∧
      (v = .d → (t.cell cell).extractLsb' 0 32 = a.extractLsb' 0 32 ∧
        (t.cell cell).extractLsb' 32 32 = (s.cell cell).extractLsb' 32 32)

/-- R106, R507, R508: IPRD returns rip, recording the model fault Unwritten where nothing has written it (log 2); IPWR
writes any value and marks rip. Nothing else changes. -/
def Obligations.RipReadsAndWrites : Prop :=
  ∀ (s : State) (a : Word),
    exec .iprd s = .next { s with
      unwritten := s.unwritten || !s.ripWr, resp := some { status := .ok, rdata := s.rip } } ∧
    exec (.ipwr a) s = .next { s with rip := a, ripWr := true, resp := some { status := .ok, rdata := 0 } }

/-! ### The flag unit -/

/-- R550 to R553: the result and the four flags of ADD, SUB and CMP as the pseudocode gives them; nothing else
changes. -/
def Obligations.FlagUnitComputes : Prop :=
  ∀ (s : State) (a b : Word),
    exec (.aluAdd a b) s = .next { s with
      flags := { cf := decide ((a + b).toNat < b.toNat), zf := decide (a + b = 0), sf := (a + b).getLsbD 63
                 ovf := decide (a.getLsbD 63 = b.getLsbD 63 ∧ (a + b).getLsbD 63 ≠ a.getLsbD 63) }
      resp := some { status := .ok, rdata := a + b } } ∧
    exec (.aluSub a b) s = .next { s with
      flags := { cf := decide (a.toNat < (a - b).toNat), zf := decide (a - b = 0), sf := (a - b).getLsbD 63
                 ovf := decide (a.getLsbD 63 ≠ b.getLsbD 63 ∧ (a - b).getLsbD 63 ≠ a.getLsbD 63) }
      resp := some { status := .ok, rdata := a - b } } ∧
    exec (.aluCmp a b) s = .next { s with
      flags := { cf := decide (a.toNat < (a - b).toNat), zf := decide (a - b = 0), sf := (a - b).getLsbD 63
                 ovf := decide (a.getLsbD 63 ≠ b.getLsbD 63 ∧ (a - b).getLsbD 63 ≠ a.getLsbD 63) }
      resp := some { status := .ok, rdata := 0 } }

/-- R561: the exact equivalences, for all operands and states. -/
def Obligations.FlagsAreExact : Prop :=
  ∀ (s : State) (a b : Word), ∃ t u v,
    exec (.aluAdd a b) s = .next t ∧ exec (.aluSub a b) s = .next u ∧ exec (.aluCmp a b) s = .next v ∧
    (t.flags.cf = true ↔ 2 ^ 64 ≤ a.toNat + b.toNat) ∧
    (t.flags.ovf = true ↔ ¬(-(2 ^ 63) ≤ a.toInt + b.toInt ∧ a.toInt + b.toInt ≤ 2 ^ 63 - 1)) ∧
    (u.flags.cf = true ↔ a.toNat < b.toNat) ∧
    (u.flags.ovf = true ↔ ¬(-(2 ^ 63) ≤ a.toInt - b.toInt ∧ a.toInt - b.toInt ≤ 2 ^ 63 - 1)) ∧
    (u.flags.zf = true ↔ a = b) ∧ (v.flags.zf = true ↔ a = b) ∧
    (u.flags.sf ≠ u.flags.ovf ↔ a.toInt < b.toInt)

/-- R554, R555: FRD packs CF, ZF, SF, OF into bits 0 to 3; FCLR makes all four false. Nothing else changes. -/
def Obligations.FlagsReadAndClear : Prop :=
  ∀ s : State,
    (∃ r : Word, exec .frd s = .next { s with resp := some { status := .ok, rdata := r } } ∧
      r.getLsbD 0 = s.flags.cf ∧ r.getLsbD 1 = s.flags.zf ∧ r.getLsbD 2 = s.flags.sf ∧ r.getLsbD 3 = s.flags.ovf ∧
      r.toNat < 16) ∧
    exec .fclr s = .next { s with
      flags := { cf := false, zf := false, sf := false, ovf := false }
      resp := some { status := .ok, rdata := 0 } }

/-- R107: which commands change the flags, and to what: ADD and SUB all four from their result, CMP the same and no
other state, FCLR all to false, FRD reads them, no other command changes them. -/
def Obligations.OnlyFlagCommandsChangeFlags : Prop :=
  (∀ (s t : State) (i : Instr), i.isCommand = true → exec i s = .next t →
    (∀ a b, i ≠ .aluAdd a b) → (∀ a b, i ≠ .aluSub a b) → (∀ a b, i ≠ .aluCmp a b) → i ≠ .fclr →
    t.flags = s.flags) ∧
  (∀ (s t : State) (a b : Word),
    (exec (.aluAdd a b) s = .next t → t.flags = (addResult a b).2) ∧
    (exec (.aluSub a b) s = .next t → t.flags = (subResult a b).2) ∧
    (exec (.aluCmp a b) s = .next t → t = { s with flags := (subResult a b).2, resp := t.resp }) ∧
    (exec .fclr s = .next t → t.flags = Flags.clear) ∧
    (exec .frd s = .next t → t.resp = some { status := .ok, rdata := packFlags s.flags }))

/-! ### The word port -/

/-- R601: an aligned BRD64 in bounds returns the eight bytes of the store, least significant first, and changes
nothing, whatever the cache holds. -/
def Obligations.Brd64ReadsStore : Prop :=
  ∀ (s : State) (a : Word), a.toNat % 8 = 0 → a.toNat + 8 ≤ s.params.memSize →
    ∃ v : Word, exec (.brd64 a) s = .next { s with resp := some { status := .ok, rdata := v } } ∧
      ∀ k < 8, v.extractLsb' (8 * k) 8 = s.mem.read (a.toNat + k)

/-- R602: an aligned BWR64 in bounds stores v[8k+7:8k] at a + k and changes no other byte of the store and nothing
else; BRD64 then returns the value. -/
def Obligations.Bwr64WritesStore : Prop :=
  ∀ (s : State) (a b : Word), a.toNat % 8 = 0 → a.toNat + 8 ≤ s.params.memSize →
    ∃ t, exec (.bwr64 a b) s = .next t ∧ t = { s with mem := t.mem, resp := some { status := .ok, rdata := 0 } } ∧
      (∀ k < 8, t.mem.read (a.toNat + k) = b.extractLsb' (8 * k) 8) ∧
      (∀ q : Nat, ¬(a.toNat ≤ q ∧ q < a.toNat + 8) → t.mem.read q = s.mem.read q) ∧
      exec (.brd64 a) t = .next { t with resp := some { status := .ok, rdata := b } }

/-- R600, R704: alignment is checked before bounds, and either error changes nothing. -/
def Obligations.WordPortChecks : Prop :=
  ∀ (s : State) (a b : Word),
    (a.toNat % 8 ≠ 0 →
      exec (.brd64 a) s = .next { s with resp := some { status := .misaligned, rdata := a } } ∧
      exec (.bwr64 a b) s = .next { s with resp := some { status := .misaligned, rdata := a } }) ∧
    (a.toNat % 8 = 0 → s.params.memSize < a.toNat + 8 →
      exec (.brd64 a) s = .next { s with resp := some { status := .outOfBounds, rdata := a } } ∧
      exec (.bwr64 a b) s = .next { s with resp := some { status := .outOfBounds, rdata := a } })

/-- R222, R812: the client does not see a BWR64 to a block that a line holds; where no line holds the block it reads
the host's bytes. -/
def Obligations.HostWriteHazard : Prop :=
  ∀ (s t : State) (a b q : Word), a.toNat % 8 = 0 → a.toNat + 8 ≤ s.params.memSize → exec (.bwr64 a b) s = .next t →
    (s.holds q → t.eff q = s.eff q) ∧
    (∀ k < 8, q.toNat = a.toNat + k → ¬ s.holds q → t.eff q = b.extractLsb' (8 * k) 8)

/-! ### Decoding of requests, and errors -/

/-- R307: OP 0 and 16 to 31 answer NotImplemented with the command word and change nothing, whatever the buses hold. -/
def Obligations.ReservedOpcodes : Prop :=
  (∀ (s : State) (r : Request) (rest : List Input), s.inbox = .command r :: rest →
    r.cmd.toNat / 2048 = 0 ∨ 16 ≤ r.cmd.toNat / 2048 →
    step s = .next { s with inbox := rest, resp := some { status := .notImplemented, rdata := zext64 r.cmd } }) ∧
  (∀ (s : State) (low : BitVec 11), exec (.reservedOp0 low) s =
    .next { s with resp := some { status := .notImplemented, rdata := BitVec.ofNat 64 low.toNat } }) ∧
  (∀ (s : State) (low : BitVec 15), exec (.reservedOp16to31 low) s =
    .next { s with resp := some { status := .notImplemented, rdata := BitVec.ofNat 64 (0x8000 + low.toNat) } })

/-- R303: a non-zero must-be-zero field is NotImplemented; a bus the command does not use is ignored. -/
def Obligations.UnusedFieldsAndBuses : Prop :=
  (∀ (s : State) (r : Request) (rest : List Input), s.inbox = .command r :: rest →
    ((opOf r.cmd ≠ 4 ∧ opOf r.cmd ≠ 5 ∧ (cellOf r.cmd ≠ 0 ∨ viewOf r.cmd ≠ 0)) ∨
      (opOf r.cmd ≠ 13 ∧ lvlOf r.cmd ≠ 0) ∨ r.cmd.extractLsb' 0 2 ≠ 0) →
    step s = .next { s with inbox := rest, resp := some { status := .notImplemented, rdata := zext64 r.cmd } }) ∧
  (∀ r r' : Request, r.cmd = r'.cmd →
    ((opOf r.cmd).toNat ∈ [1, 2, 3, 5, 7, 10, 11, 12, 13, 14, 15] → r.a = r'.a) →
    ((opOf r.cmd).toNat ∈ [3, 10, 11, 12, 13, 15] → r.b = r'.b) →
    ((opOf r.cmd).toNat = 2 → r.d = r'.d) →
    ((opOf r.cmd).toNat = 13 → r.d.getLsbD 0 = r'.d.getLsbD 0) →
    decodeRequest r = decodeRequest r')

/-- R702: a command that answers with an error status changes no state: every request, every command word. -/
def Obligations.ErrorsChangeNothing : Prop :=
  ∀ (s t : State) (r : Request) (rest : List Input) (a : Response), s.inbox = .command r :: rest → step s = .next t →
    t.resp = some a → a.status ≠ .ok → t = { s with inbox := rest, resp := some a }

/-- R300, R306, R700: every request is answered, whatever the state: none stops the machine and none is refused. STATUS
is the number R700 gives, 0 for OK alone and never 7; MalformedOperand is the client's and never the block's. -/
def Obligations.EveryRequestIsAnswered : Prop :=
  (∀ (s : State) (r : Request) (rest : List Input), s.inbox = .command r :: rest →
    ∃ t a, step s = .next t ∧ t.resp = some a ∧ t.inbox = rest ∧ t.run = s.run ∧ t.gaps = s.gaps ∧
      a.status ≠ .malformedOperand) ∧
  (∀ e : Status, (e.code = 0 ↔ e = .ok) ∧ e.code ≠ 7) ∧
  Status.code .malformedOperand = 1 ∧ Status.code .unknownRegister = 2 ∧ Status.code .notImplemented = 3 ∧
  Status.code .outOfBounds = 4 ∧ Status.code .pageFault = 5 ∧ Status.code .misaligned = 6

/-- R100, the column "written by": what each command can change beside the response. -/
def Obligations.CommandFrame : Prop :=
  ∀ (s t : State) (i : Instr), i.isCommand = true → exec i s = .next t →
    (t.gpr = s.gpr ∧ t.wr = s.wr ∨ ∃ cell view a, i = .rwr cell view a) ∧
    (t.rip = s.rip ∧ t.ripWr = s.ripWr ∨ ∃ a, i = .ipwr a) ∧
    (t.cache = s.cache ∨ (∃ a, i = .crd a) ∨ ∃ a d, i = .cwr a d) ∧
    (t.pt = s.pt ∨ ∃ lvl a b present, i = .ptwr lvl a b present) ∧
    (t.mem = s.mem ∨ (∃ a, i = .crd a) ∨ (∃ a d, i = .cwr a d) ∨ ∃ a b, i = .bwr64 a b) ∧
    (t.unwritten = s.unwritten ∨ (∃ cell view, i = .rrd cell view) ∨ i = .iprd) ∧
    t.params = s.params ∧ t.prog = s.prog ∧ t.run = s.run ∧ t.inbox = s.inbox ∧ t.gaps = s.gaps

/-! ### The engine's opcodes -/

/-- R660: Mov into a register: the view takes the value, the flags are cleared, rip advances by SLOT. The model's in it:
no request of the host lands inside (log 7), and the record of unwritten reads (log 2). -/
def Obligations.MovToRegister : Prop :=
  ∀ (s : State) (src : Operand) (x : Source) (cell : BitVec 4) (view : BitVec 3) (v : View) (value : Word),
    s.Inv → s.Coherent → s.gaps = [] → asSource src = some x → viewOfSel cell view = some v →
    s.sourceValue x = some value →
    ∃ t, exec (.mov src (.reg cell view)) s = .next t ∧
      t = { (s.noteRead (s.sourceWritten x && s.ripWr)).writeView cell v value with
        flags := Flags.clear, rip := s.rip + 0x40, ripWr := true, cache := t.cache, mem := t.mem } ∧
      MemoryKept s t 0 0 ∧ ((∀ e, x ≠ .mem e) → t.cache = s.cache ∧ t.mem = s.mem)

/-- R654, R655, R660: Mov into memory: the client then reads the word there and every other byte as before. The model's
in it: no request of the host lands inside (log 7), and the record of unwritten reads (log 2). -/
def Obligations.MovToMemory : Prop :=
  ∀ (s : State) (src dst : Operand) (x : Source) (e : AddrExpr) (value pa : Word),
    s.Inv → s.Coherent → s.gaps = [] → asSource src = some x → asDest dst = some (.mem e) →
    s.sourceValue x = some value → s.wordAddr (s.ea e) = some pa →
    ∃ t, exec (.mov src dst) s = .next t ∧
      t = { s.noteRead (s.sourceWritten x && s.eaWritten e && s.rootWritten && s.ripWr) with
        flags := Flags.clear, rip := s.rip + 0x40, ripWr := true, cache := t.cache, mem := t.mem } ∧
      WordStored t pa value ∧ MemoryKept s t pa.toNat 8

/-- R661: Push stores the value below the stack pointer, then moves the pointer there. The model's in it: no request of
the host lands inside (log 7), and the record of unwritten reads (log 2). -/
def Obligations.PushStores : Prop :=
  ∀ (s : State) (src : Operand) (x : Source) (value pa : Word),
    s.Inv → s.Coherent → s.gaps = [] → asSource src = some x → s.sourceValue x = some value →
    s.wordAddr (s.cell rspCell - 8) = some pa →
    ∃ t, exec (.push src .empty) s = .next t ∧
      t = { (s.noteRead (s.sourceWritten x && s.laneWritten rspCell .q && s.rootWritten && s.ripWr)).writeView
          rspCell .q (s.cell rspCell - 8) with
        flags := Flags.clear, rip := s.rip + 0x40, ripWr := true, cache := t.cache, mem := t.mem } ∧
      WordStored t pa value ∧ MemoryKept s t pa.toNat 8

/-- R662: Pop writes the word at the stack pointer into the view, then adds 8 to rsp as it then stands, so that pop of
rsp leaves the word plus 8. The model's in it: no request of the host lands inside (log 7), and the record of unwritten
reads (log 2). -/
def Obligations.PopLoads : Prop :=
  ∀ (s u : State) (cell : BitVec 4) (view : BitVec 3) (v : View) (value : Word),
    s.Inv → s.Coherent → s.gaps = [] → viewOfSel cell view = some v → s.wordValue (s.cell rspCell) = some value →
    u = (s.noteRead (s.laneWritten rspCell .q && s.rootWritten && s.ripWr)).writeView cell v value →
    ∃ t, exec (.pop .empty (.reg cell view)) s = .next t ∧
      t = { u.writeView rspCell .q (u.cell rspCell + 8) with
        flags := Flags.clear, rip := s.rip + 0x40, ripWr := true, cache := t.cache, mem := t.mem } ∧
      MemoryKept s t 0 0 ∧
      (cell ≠ rspCell → u.cell rspCell = s.cell rspCell) ∧
      (cell = rspCell → v = .q → u.cell rspCell = value)

/-- R663: Leave sets rsp to rbp + 8 and rbp to the word at the old rbp, which it reads with the old root. The model's in
it: no request of the host lands inside (log 7), and the record of unwritten reads (log 2). -/
def Obligations.LeaveUnwinds : Prop :=
  ∀ (s : State) (value : Word), s.Inv → s.Coherent → s.gaps = [] → s.wordValue (s.cell rbpCell) = some value →
    ∃ t, exec (.leave .empty .empty) s = .next t ∧
      t = { ((s.noteRead (s.laneWritten rbpCell .q && s.rootWritten && s.ripWr)).writeView
          rspCell .q (s.cell rbpCell + 8)).writeView rbpCell .q value with
        flags := Flags.clear, rip := s.rip + 0x40, ripWr := true, cache := t.cache, mem := t.mem } ∧
      MemoryKept s t 0 0

/-- R664: Call stores the address of the next slot below the stack pointer, moves the pointer, and jumps. The model's in
it: no request of the host lands inside (log 7), and the record of unwritten reads (log 2). -/
def Obligations.CallStoresReturn : Prop :=
  ∀ (s : State) (src : Operand) (x : Target) (target pa : Word),
    s.Inv → s.Coherent → s.gaps = [] → asTarget src = some x → s.targetValue x = some target →
    s.wordAddr (s.cell rspCell - 8) = some pa →
    ∃ t, exec (.call src .empty) s = .next t ∧
      t = { (s.noteRead (s.targetWritten x && s.ripWr && s.laneWritten rspCell .q && s.rootWritten)).writeView
          rspCell .q (s.cell rspCell - 8) with
        flags := Flags.clear, rip := target, ripWr := true, cache := t.cache, mem := t.mem } ∧
      WordStored t pa (s.rip + 0x40) ∧ MemoryKept s t pa.toNat 8

/-- R665: Ret takes rip from the word at the stack pointer and moves the pointer by 8; it does not read rip. The model's
in it: no request of the host lands inside (log 7), and the record of unwritten reads (log 2). -/
def Obligations.RetReturns : Prop :=
  ∀ (s : State) (ra : Word), s.Inv → s.Coherent → s.gaps = [] → s.wordValue (s.cell rspCell) = some ra →
    ∃ t, exec (.ret .empty .empty) s = .next t ∧
      t = { (s.noteRead (s.laneWritten rspCell .q && s.rootWritten)).writeView rspCell .q (s.cell rspCell + 8) with
        flags := Flags.clear, rip := ra, ripWr := true, cache := t.cache, mem := t.mem } ∧
      MemoryKept s t 0 0

/-- R666, R667: Add and Sub write the 64-bit result through the destination view and set the flags from it. The model's
in it: no request of the host lands inside (log 7), and the record of unwritten reads (log 2). -/
def Obligations.AddSubToRegister : Prop :=
  ∀ (s s' : State) (src : Operand) (x : Source) (cell : BitVec 4) (view : BitVec 3) (v : View) (a b : Word),
    s.Inv → s.Coherent → s.gaps = [] → asSource src = some x → viewOfSel cell view = some v →
    s.sourceValue x = some b → s.regValue cell view = some a →
    s' = s.noteRead (s.sourceWritten x && s.laneWritten cell v && s.ripWr) →
    (∃ t, exec (.add src (.reg cell view)) s = .next t ∧
      t = { s'.writeView cell v (a + b) with
        flags := (addResult a b).2, rip := s.rip + 0x40, ripWr := true, cache := t.cache, mem := t.mem } ∧
      MemoryKept s t 0 0 ∧ ((∀ e, x ≠ .mem e) → t.cache = s.cache ∧ t.mem = s.mem)) ∧
    (∃ t, exec (.sub src (.reg cell view)) s = .next t ∧
      t = { s'.writeView cell v (a - b) with
        flags := (subResult a b).2, rip := s.rip + 0x40, ripWr := true, cache := t.cache, mem := t.mem } ∧
      MemoryKept s t 0 0 ∧ ((∀ e, x ≠ .mem e) → t.cache = s.cache ∧ t.mem = s.mem))

/-- R668: Cmp sets the flags of the word at dst minus the value of src; no register and no byte changes. The model's in
it: no request of the host lands inside (log 7), and the record of unwritten reads (log 2). -/
def Obligations.CmpSetsFlags : Prop :=
  ∀ (s : State) (src dst : Operand) (x : Source) (e : AddrExpr) (a b : Word),
    s.Inv → s.Coherent → s.gaps = [] → asSource src = some x → asDest dst = some (.mem e) →
    s.sourceValue x = some b → s.wordValue (s.ea e) = some a →
    ∃ t, exec (.cmp src dst) s = .next t ∧
      t = { s.noteRead (s.sourceWritten x && s.eaWritten e && s.rootWritten && s.ripWr) with
        flags := (subResult a b).2, rip := s.rip + 0x40, ripWr := true, cache := t.cache, mem := t.mem } ∧
      MemoryKept s t 0 0

/-- R669, R670: Jne goes to its target when ZF is 0 and advances when it is 1, flags unchanged; Jmp goes to its target
and clears the flags. A transfer does not read rip; the advance does. The model's in it: no request of the host lands
inside (log 7), and the record of unwritten reads (log 2). -/
def Obligations.JumpsTransfer : Prop :=
  ∀ (s : State) (src : Operand) (x : Target) (target : Word), s.gaps = [] → asTarget src = some x →
    s.targetValue x = some target →
    (s.flags.zf = false → exec (.jne src .empty) s =
      .next { s.noteRead (s.targetWritten x) with rip := target, ripWr := true }) ∧
    (s.flags.zf = true → exec (.jne src .empty) s =
      .next { s.noteRead (s.targetWritten x && s.ripWr) with rip := s.rip + 0x40, ripWr := true }) ∧
    exec (.jmp src .empty) s =
      .next { s.noteRead (s.targetWritten x) with rip := target, ripWr := true, flags := Flags.clear }

/-- R657, R671 and the kinds R660 to R670 list: an opcode whose operand kinds are not admitted, and every reserved TAG,
faults the run with NotImplemented and changes nothing else, nor does a host's request land. The model's readings in
it: the kinds are checked before any command and an unused operand must be Empty (log 14); the faulting step is a next
state (log 9), without an info, since no command failed (log 16). -/
def Obligations.KindsNotAdmitted : Prop :=
  ∀ (s : State) (i : Instr), i.isCommand = false → i.admitted = false →
    exec i s = .next { s with run := .faulted .notImplemented none }

/-- R304, R505, R506, R654, R657: a register operand whose selector names no register faults the run with
UnknownRegister, when the command for it is issued. As a source it is resolved before anything else, and the info is
RRD's word. As a destination of Add and Sub, which read it at the start, it comes once the source is resolved and before
a memory source is read: RRD's word again. As a destination of Mov, whatever its source, and of Pop it comes after the
value: RWR's word. Nothing else changes but what the reads before it did. The model's readings in it: that a record with
such a selector decodes, and faults at that command (log 15); that the register Add and Sub write is read before the
memory source (log 24); the info (log 16); the next state (log 9); the record of unwritten reads (log 2). -/
def Obligations.UnknownRegisterOperands : Prop :=
  ∀ (s : State) (i : Instr) (src dst : Operand) (cell : BitVec 4) (view : BitVec 3),
    s.Inv → s.Coherent → s.gaps = [] → viewOfSel cell view = none →
    (src = .reg cell view → i.admitted = true →
      i = .mov src dst ∨ i = .push src dst ∨ i = .call src dst ∨ i = .add src dst ∨ i = .sub src dst ∨
        i = .cmp src dst ∨ i = .jne src dst ∨ i = .jmp src dst →
      exec i s = .next { s with run := .faulted .unknownRegister (some (zext64 (rrdCmd cell view))) }) ∧
    (∀ x, asSource src = some x →
      (s.sourceValue x ≠ none → ∃ t, exec (.mov src (.reg cell view)) s = .next t ∧
        t = { s.noteRead (s.sourceWritten x) with
          run := .faulted .unknownRegister (some (zext64 (rwrCmd cell view))), cache := t.cache, mem := t.mem } ∧
        MemoryKept s t 0 0) ∧
      (s.resolved x ≠ none → i = .add src (.reg cell view) ∨ i = .sub src (.reg cell view) →
        exec i s = .next { s.noteRead (s.resolveWritten x) with
          run := .faulted .unknownRegister (some (zext64 (rrdCmd cell view))) })) ∧
    (s.wordValue (s.cell rspCell) ≠ none → ∃ t, exec (.pop .empty (.reg cell view)) s = .next t ∧
      t = { s.noteRead (s.laneWritten rspCell .q && s.rootWritten) with
        run := .faulted .unknownRegister (some (zext64 (rwrCmd cell view))), cache := t.cache, mem := t.mem } ∧
      MemoryKept s t 0 0)

/-- R655, R703: an engine load or store whose word crosses a 4 KiB page is the refusal PageCrossingWord, for every
instruction that loads or stores. What the instruction does before that access completes first: the value of its
source, the address of its destination, and for Add and Sub the read of their destination (log 24). Where Mov or Pop
writes a register it does not matter whether the register exists, since the value is read first (log 15). The refusal
carries the record of unwritten reads, those of this instruction before that access in it (log 2). -/
def Obligations.PageCrossingRefused : Prop :=
  ∀ (s : State) (src dst : Operand) (va : Word), s.Inv → s.Coherent → s.gaps = [] → 0xFF8 < va.toNat % 4096 →
    (s.cell rspCell = va → ∀ cell view,
      exec (.pop .empty (.reg cell view)) s = s.pageCrossing (s.laneWritten rspCell .q) ∧
      exec (.ret .empty .empty) s = s.pageCrossing (s.laneWritten rspCell .q)) ∧
    (s.cell rbpCell = va → exec (.leave .empty .empty) s = s.pageCrossing (s.laneWritten rbpCell .q)) ∧
    (∀ e, asSource src = some (.mem e) → s.ea e = va →
      exec (.push src .empty) s = s.pageCrossing (s.eaWritten e) ∧
      (∀ cell view,
        exec (.mov src (.reg cell view)) s = s.pageCrossing (s.eaWritten e) ∧
        (viewOfSel cell view ≠ none →
          exec (.add src (.reg cell view)) s = s.pageCrossing (s.eaWritten e && s.viewWritten cell view) ∧
          exec (.sub src (.reg cell view)) s = s.pageCrossing (s.eaWritten e && s.viewWritten cell view))) ∧
      ∀ e', asDest dst = some (.mem e') →
        exec (.mov src dst) s = s.pageCrossing (s.eaWritten e && s.eaWritten e') ∧
        exec (.cmp src dst) s = s.pageCrossing (s.eaWritten e && s.eaWritten e')) ∧
    (∀ x, asSource src = some x → s.sourceValue x ≠ none →
      (s.cell rspCell = va + 8 →
        exec (.push src .empty) s = s.pageCrossing (s.sourceWritten x && s.laneWritten rspCell .q)) ∧
      (∀ e, asDest dst = some (.mem e) → s.ea e = va →
        exec (.mov src dst) s = s.pageCrossing (s.sourceWritten x && s.eaWritten e) ∧
        exec (.cmp src dst) s = s.pageCrossing (s.sourceWritten x && s.eaWritten e))) ∧
    (∀ x, asTarget src = some x → s.targetValue x ≠ none → s.cell rspCell = va + 8 →
      exec (.call src .empty) s = s.pageCrossing (s.targetWritten x && s.ripWr && s.laneWritten rspCell .q))

/-- R655, R657, R661, R664: a store whose first byte has no translation faults the run with PageFault and its level and
stores nothing; one that leaves the store's bounds faults with OutOfBounds and the first such address, and keeps the
bytes already written. Push and Call leave rsp and rip, Mov leaves rip. The model's readings in it: that the faulting
step is a next state (log 9), with the failing command's RDATA as info (log 16), and the record of unwritten reads
(log 2). -/
def Obligations.StoreFaults : Prop :=
  ∀ (s : State) (i : Instr) (src dst : Operand) (value va : Word) (written : Bool),
    s.Inv → s.Coherent → s.gaps = [] →
    ((∃ x, asSource src = some x ∧ s.sourceValue x = some value ∧
        ((i = .push src .empty ∧ s.cell rspCell = va + 8 ∧
            written = (s.sourceWritten x && s.laneWritten rspCell .q && s.rootWritten)) ∨
          ∃ e, i = .mov src dst ∧ asDest dst = some (.mem e) ∧ s.ea e = va ∧
            written = (s.sourceWritten x && s.eaWritten e && s.rootWritten))) ∨
      ∃ x, asTarget src = some x ∧ s.targetValue x ≠ none ∧ value = s.rip + 0x40 ∧ i = .call src .empty ∧
        s.cell rspCell = va + 8 ∧
        written = (s.targetWritten x && s.ripWr && s.laneWritten rspCell .q && s.rootWritten)) →
    (∀ k, s.PageFaultAt va k → ∃ t, exec i s = .next t ∧
      t = { s.noteRead written with
        run := .faulted .pageFault (some (BitVec.ofNat 64 (k.val + 1))), cache := t.cache, mem := t.mem } ∧
      MemoryKept s t 0 0) ∧
    (∀ pa, s.BoundsFaultAt va pa → ∃ t, exec i s = .next t ∧
      t = { s.noteRead written with
        run := .faulted .outOfBounds (some (s.boundsInfo pa)), cache := t.cache, mem := t.mem } ∧
      (∀ j < 8, pa.toNat + j < s.params.memSize → t.eff (pa + BitVec.ofNat 64 j) = byteOf value j) ∧
      MemoryKept s t pa.toNat (s.params.memSize - pa.toNat))

/-- R655, R657, R663, R665, R668: a load that faults changes no register and no byte, but that Leave has already set rsp
to rbp: the loads of Pop, Ret and Leave, the source word of every opcode that takes one from memory, and Cmp's word at
dst. The model's readings in it: Mov and Pop look at a register destination after the load (log 15), Add and Sub read
theirs before it (log 24); the faulting step is a next state (log 9), with the failing command's RDATA as info (log 16);
the record of unwritten reads (log 2). -/
def Obligations.LoadFaults : Prop :=
  ∀ (s s' : State) (i : Instr) (src dst : Operand) (va : Word) (written : Bool), s.Inv → s.Coherent → s.gaps = [] →
    ((s' = s ∧ s.cell rspCell = va ∧ written = (s.laneWritten rspCell .q && s.rootWritten) ∧
        (i = .ret .empty .empty ∨ ∃ cell view, i = .pop .empty (.reg cell view))) ∨
      (s' = s.writeView rspCell .q va ∧ s.cell rbpCell = va ∧
        written = (s.laneWritten rbpCell .q && s.rootWritten) ∧ i = .leave .empty .empty) ∨
      (s' = s ∧ ∃ e, asSource src = some (.mem e) ∧ s.ea e = va ∧
        ((written = (s.eaWritten e && s.rootWritten) ∧
            (i = .push src .empty ∨ ∃ cell view, i = .mov src (.reg cell view))) ∨
          (∃ cell view, viewOfSel cell view ≠ none ∧
            written = (s.eaWritten e && s.viewWritten cell view && s.rootWritten) ∧
            (i = .add src (.reg cell view) ∨ i = .sub src (.reg cell view))) ∨
          ∃ e', asDest dst = some (.mem e') ∧ written = (s.eaWritten e && s.eaWritten e' && s.rootWritten) ∧
            (i = .mov src dst ∨ i = .cmp src dst))) ∨
      (s' = s ∧ ∃ x e, asSource src = some x ∧ s.sourceValue x ≠ none ∧ asDest dst = some (.mem e) ∧ s.ea e = va ∧
        written = (s.sourceWritten x && s.eaWritten e && s.rootWritten) ∧ i = .cmp src dst)) →
    (∀ k, s.PageFaultAt va k → ∃ t, exec i s = .next t ∧
      t = { s'.noteRead written with
        run := .faulted .pageFault (some (BitVec.ofNat 64 (k.val + 1))), cache := t.cache, mem := t.mem } ∧
      MemoryKept s t 0 0) ∧
    (∀ pa, s.BoundsFaultAt va pa → ∃ t, exec i s = .next t ∧
      t = { s'.noteRead written with
        run := .faulted .outOfBounds (some (s.boundsInfo pa)), cache := t.cache, mem := t.mem } ∧
      MemoryKept s t 0 0)

/-- R455, R804, R225: a PTWR of the host that lands before the XLT of byte j of the store of a Mov of an immediate to a
literal address is seen by that XLT and by those after it, and by none before it. Bytes below j are at the old physical
address. Where the new walk has no translation, the run faults with PageFault and those bytes are all that is stored.
Where the new word lies wholly in bounds, the bytes from j up are at the new address and the Mov completes. Where it
does not, those of them that are in bounds are, and the run faults with OutOfBounds at the first that is not. The
model's readings in it: where the request lands is what `State.gaps` says (log 7), here before the engine's command that
is that XLT: with a constant root byte k is the commands 2k and 2k + 1, and with the root in rbp 3k to 3k + 2; the fault
as a next state with its info (log 9, log 16); the record of unwritten reads (log 2). -/
def Obligations.PtwrLandsBetweenXlts : Prop :=
  ∀ (s s' : State) (r : Request) (rest : List Input) (lvl : BitVec 2) (a b value va pa : Word) (present : Bool)
    (j : Nat), s.Inv → s.Coherent → s.inbox = .command r :: rest → decodeRequest r = .ok (.ptwr lvl a b present) →
    s.wordAddr va = some pa → j < 8 →
    s.gaps = List.replicate (match s.params.rootSrc with | .const _ => 2 * j | .gprRbp => 3 * j + 1) 0 ++ [1] →
    s' = { s.setPte (levelOf lvl) a { present, base := b } with
      inbox := rest, gaps := [], resp := some { status := .ok, rdata := 0 } } →
    (∀ k, walk s'.pt va s.rootKey = .error k →
      ∃ t, exec (.mov (.imm value) (.memDirect va)) s = .next t ∧
        t = { s'.noteRead s.rootWritten with
          run := .faulted .pageFault (some (BitVec.ofNat 64 (k.val + 1))), cache := t.cache, mem := t.mem } ∧
        (∀ i < j, t.eff (pa + BitVec.ofNat 64 i) = byteOf value i) ∧ MemoryKept s t pa.toNat j) ∧
    (∀ pa', walk s'.pt va s.rootKey = .ok pa' →
      ∃ t, exec (.mov (.imm value) (.memDirect va)) s = .next t ∧
        (pa'.toNat + 8 ≤ s.params.memSize →
          t = { s'.noteRead (s.rootWritten && s.ripWr) with
            flags := Flags.clear, rip := s.rip + 0x40, ripWr := true, cache := t.cache, mem := t.mem }) ∧
        (s.params.memSize < pa'.toNat + 8 →
          t = { s'.noteRead s.rootWritten with
            run := .faulted .outOfBounds (some (BitVec.ofNat 64 (max (pa'.toNat + j) s.params.memSize)))
            cache := t.cache, mem := t.mem }) ∧
        (∀ i < j, t.eff (pa + BitVec.ofNat 64 i) = byteOf value i) ∧
        (∀ i < 8, j ≤ i → pa'.toNat + i < s.params.memSize → t.eff (pa' + BitVec.ofNat 64 i) = byteOf value i) ∧
        ∀ q : Word, q.toNat < s.params.memSize → ¬(pa.toNat ≤ q.toNat ∧ q.toNat < pa.toNat + j) →
          ¬(pa'.toNat + j ≤ q.toNat ∧ q.toNat < pa'.toNat + 8) →
          t.eff q = s.eff q ∧ (t.mem.read q.toNat = s.mem.read q.toNat ∨ t.mem.read q.toNat = s.eff q))

/-- R100, R650: the engine itself writes no PTE and issues no BWR64: where no request of the host lands inside the
instruction, no engine instruction changes the page tables, the parameters, the program, the response or what is still
to come. -/
def Obligations.EngineFrame : Prop :=
  ∀ (s t : State) (i : Instr), i.isCommand = false → s.gaps = [] → exec i s = .next t →
    t.pt = s.pt ∧ t.params = s.params ∧ t.prog = s.prog ∧ t.resp = s.resp ∧ t.inbox = s.inbox ∧ t.gaps = []

/-! ### Steps -/

/-- R300, R308, R650: a step on a request that decodes is exec of the decoded instruction, on the state with the request
taken; a step of a running engine away from EXIT_RIP is exec of what PROG(rip) decodes to. That step first reads rip
(log 2 records it where nothing has written rip) and adds nothing else around exec: the instruction itself moves
rip. -/
def Obligations.StepRunsDecodedInstruction : Prop :=
  ∀ (s : State) (i : Instr),
    (∀ r rest, s.inbox = .command r :: rest → decodeRequest r = .ok i → step s = exec i { s with inbox := rest }) ∧
    (∀ s' exitRip r, s.engineTurn = some s' → s'.run = .running exitRip → s'.rip ≠ exitRip →
      lookupKey s'.prog s'.rip.toNat = some r → decodeRecord r = .ok i → step s = exec i (s'.noteRead s'.ripWr))

/-- R650, R657, R802: a launch fixes PROG and EXIT_RIP and starts a run (log 8). An engine step ends the run at EXIT_RIP
(log 9), having read rip (log 2), and is the model fault NoInstruction where PROG has nothing; that fault carries the
record of unwritten reads, this step's read of rip in it (log 2). Where the engine is idle, has ended or has faulted, its
step only takes its turn: nothing runs on after EXIT_RIP or after a fault (log 8, log 9). -/
def Obligations.EngineRunLaunchesAndEnds : Prop :=
  (∀ (s : State) (prog : Program) (exitRip : Word) (rest : List Input), s.inbox = .launch prog exitRip :: rest →
    step s = .next { s with inbox := rest, prog, run := .running exitRip }) ∧
  ∀ s s' : State, s.engineTurn = some s' →
    (∀ exitRip, s'.run = .running exitRip →
      (s'.rip = exitRip → step s = .next { s'.noteRead s'.ripWr with run := .ended }) ∧
      (s'.rip ≠ exitRip → lookupKey s'.prog s'.rip.toNat = none →
        step s = .fault (.noInstruction (s'.noteRead s'.ripWr).unwritten))) ∧
    (s'.run = .idle ∨ s'.run = .ended ∨ (∃ e info, s'.run = .faulted e info) → step s = .next s')

/-- R671: a record with a reserved TAG or a reserved operand KIND faults the run with NotImplemented, whatever its other
fields are. R314, R700: one whose address has a scale outside 1, 2, 4 and 8 faults it with MalformedOperand and info
0, whatever its SEL is; src comes before dst. Nothing else changes. The model's readings in it: which of several errors
of one record decides (log 28), that the faulting step is a next state (log 9), that the engine's NotImplemented has no
info (log 16), that a record may hold the parts of an address (log 13), and the record of an unwritten rip (log 2). -/
def Obligations.BadRecordsFault : Prop :=
  ∀ (s s' : State) (exitRip : Word) (r : Record), s.engineTurn = some s' → s'.run = .running exitRip →
    s'.rip ≠ exitRip → lookupKey s'.prog s'.rip.toNat = some r →
    (11 ≤ r.tag.toNat ∨ 5 ≤ r.src.kind.toNat ∨ 5 ≤ r.dst.kind.toNat →
      step s = .next { s'.noteRead s'.ripWr with run := .faulted .notImplemented none }) ∧
    (∀ p : AddrParts, r.tag.toNat < 11 → r.src.kind.toNat < 5 → r.dst.kind.toNat < 5 →
      p.scale ∉ ([1, 2, 4, 8] : List Word) →
      (r.src.kind = 4 ∧ r.src.parts = some p) ∨
        (∃ o, decodeOperand r.src = .ok o) ∧ r.dst.kind = 4 ∧ r.dst.parts = some p →
      step s = .next { s'.noteRead s'.ripWr with run := .faulted .malformedOperand (some 0) })

/-- The model's choice of log 8: an opcode-table word placed by withFetchWord is what the very next step runs: a command
word on the state as it is, a record once the step has read rip, with no request of the host inside it. -/
def Obligations.PlacedWordRuns : Prop :=
  ∀ (s : State) (nbits w : Nat) (i : Instr), decodeTableWord nbits w = some i →
    (nbits = 16 → step (s.withFetchWord nbits w) = exec i s) ∧
    (nbits ≠ 16 → ∃ prog exitRip,
      step (s.withFetchWord nbits w) =
        exec i { s.noteRead s.ripWr with prog, run := .running exitRip, gaps := [] } ∧
      exitRip ≠ s.rip ∧ ∀ key, key ≠ s.rip.toNat → lookupKey prog key = lookupKey s.prog key)

/-- R301 to R314: for every well-formed instruction of either space, decoding its encoding gives it back, with every
operand at every value. -/
def Obligations.DecodeEncode : Prop := ∀ i : Instr, i.wf = true → decode (encode i) = .ok i

/-- R302, R310, R311, R505: words and records written out from the spec's encodings decode to what they stand for. -/
def Obligations.SpecWordsDecode : Prop :=
  decodeRequest { cmd := 0x0800, a := 0x1005, b := 7, d := 9 } = .ok (.crd 0x1005) ∧
  decodeRequest { cmd := 0x2040, a := 0, b := 0, d := 0 } = .ok (.rrd 0 4) ∧
  decodeRequest { cmd := 0x2FB0, a := 0x1FF, b := 0, d := 0 } = .ok (.rwr 15 3 0x1FF) ∧
  decodeRequest { cmd := 0x680C, a := 0x4000, b := 0x7, d := 0xFE } = .ok (.ptwr 3 0x4000 0x7 false) ∧
  decodeRequest { cmd := 0x5800, a := 5, b := 7, d := 0 } = .ok (.aluSub 5 7) ∧
  decodeRequest { cmd := 0x7800, a := 0x10, b := 0x1122334455667788, d := 0 } = .ok (.bwr64 0x10 0x1122334455667788) ∧
  decodeRecord { tag := 6, src := { kind := 2, val := 0, sel := 0x30, parts := none }
                 dst := { kind := 2, val := 0, sel := 0x00, parts := none } } = .ok (.add (.reg 6 0) (.reg 0 0)) ∧
  decodeRecord { tag := 4, src := { kind := 3, val := 0x400100, sel := 0, parts := none }
                 dst := { kind := 0, val := 0, sel := 0, parts := none } } = .ok (.call (.memDirect 0x400100) .empty)

/-! ### The whole machine -/

/-- R112: every step keeps the invariant, for any state that has it. -/
def Obligations.StepKeepsInv : Prop := ∀ s t : State, s.Inv → step s = .next t → t.Inv

/-- R120, R112, R10: the machine after reset has the invariant and the condition of R221, for any legal parameters and
any image inside the store. -/
def Obligations.ResetSatisfiesInv : Prop :=
  State.reset.Inv ∧ State.reset.Coherent ∧
  ∀ (p : Params) (image : Memory), p.wf → image.wf → (∀ c ∈ image, c.1 < p.memSize) →
    (State.resetOf p image).Inv ∧ (State.resetOf p image).Coherent

/-- R221, R812: every step keeps the condition under which the client sees a plain memory, but a BWR64 to a block that
a line holds; inside an engine instruction, whose own accesses fill lines, the premise leaves out BWR64 altogether. -/
def Obligations.StepKeepsCoherence : Prop :=
  ∀ s t : State, s.Inv → s.Coherent →
    (∀ r rest a b, s.inbox = .command r :: rest → decodeRequest r = .ok (.bwr64 a b) → ¬ s.holds a) →
    (∀ s', s.engineTurn = some s' → ∀ r ∈ s'.mayLand, ∀ a b, decodeRequest r ≠ .ok (.bwr64 a b)) →
    step s = .next t → t.Coherent

/-- R412: every step keeps the times of a set's valid lines distinct until they saturate, so that the highest time is
the least recently touched line. -/
def Obligations.StepKeepsTimesDistinct : Prop :=
  ∀ s t : State, s.Inv → (∀ i : Fin 64, TimesDiffer s.cache[i]) → step s = .next t →
    ∀ i : Fin 64, TimesDiffer t.cache[i]

/-- R111, R221: what the cache holds, and so what the store holds behind it, is invisible to the client: from two states
that read alike, every instruction but the host's BRD64 and BWR64 has the same outcome and leaves states that read
alike, whatever other requests of the host land inside it. -/
def Obligations.CacheIsInvisible : Prop :=
  ∀ (s t : State) (i : Instr), s.Inv → s.Coherent → t.Inv → t.Coherent → SameToClient s t →
    (∀ a, i ≠ .brd64 a) → (∀ a b, i ≠ .bwr64 a b) →
    (i.isCommand = false → ∀ r ∈ s.mayLand, (∀ a, decodeRequest r ≠ .ok (.brd64 a)) ∧
      ∀ a b, decodeRequest r ≠ .ok (.bwr64 a b)) →
    SameOutcome (exec i s) (exec i t)

/-- R120 to R124, R800: what the spec says of the state after reset, for any parameters and image. -/
def Obligations.ResetState : Prop :=
  ∀ (p : Params) (image : Memory),
    (∀ i : Fin 64, (State.resetOf p image).cache[i].length = p.nWays ∧
      ∀ l ∈ (State.resetOf p image).cache[i], l.state = .invalid ∧ l.time.toInt = -1) ∧
    (∀ c : BitVec 4, (State.resetOf p image).marks c = 0) ∧ (State.resetOf p image).ripWr = false ∧
    (State.resetOf p image).flags = { cf := false, zf := false, sf := false, ovf := false } ∧
    (∀ k : Fin 4, (State.resetOf p image).pt[k] = []) ∧ (State.resetOf p image).mem = image

end
end

