-- ==== Sys2Proof/Laws/Codec.lean ====
section
/-! SUPPORT. The address slices as numbers: how tag, set and offset make an address (spec/20_memory.md R204). -/

namespace Sys2Proof.Machine

theorem setIndexOf_val (p : Word) : (setIndexOf p).val = p.toNat / 64 % 64 := by
  simp [setIndexOf, Fin.ofNat, BitVec.extractLsb'_toNat, Nat.shiftRight_eq_div_pow]

theorem offsetOf_val (p : Word) : (offsetOf p).val = p.toNat % 64 := by
  simp [offsetOf, Fin.ofNat, BitVec.extractLsb'_toNat]

theorem tagOf_toNat (p : Word) : (tagOf p).toNat = p.toNat / 4096 % 2 ^ 40 := by
  simp [tagOf, BitVec.extractLsb'_toNat, Nat.shiftRight_eq_div_pow]

theorem wbAddr_toNat (i : Fin 64) (t : BitVec 40) : (wbAddr i t).toNat = t.toNat * 4096 + i.val * 64 := by
  have ht := t.isLt
  have hi := i.isLt
  have h : (zext64 t <<< 12) &&& (BitVec.ofNat 64 i.val <<< 6) = 0#64 := by
    apply BitVec.eq_of_toNat_eq
    have h₁ : (zext64 t <<< 12).toNat = t.toNat * 2 ^ 12 := by
      simp [zext64, BitVec.toNat_shiftLeft, Nat.shiftLeft_eq]; omega
    have h₂ : (BitVec.ofNat 64 i.val <<< 6).toNat = i.val * 64 := by
      simp [BitVec.toNat_shiftLeft, Nat.shiftLeft_eq]; omega
    rw [BitVec.toNat_and, h₁, h₂]
    have h₃ : i.val * 64 < 2 ^ 12 := by omega
    rw [← Nat.shiftLeft_eq]
    apply Nat.eq_of_testBit_eq
    intro j
    simp only [Nat.testBit_and, Nat.testBit_shiftLeft, BitVec.toNat_ofNat, Nat.zero_mod, Nat.zero_testBit]
    by_cases hj : j < 12
    · simp [show ¬12 ≤ j by omega]
    · rw [Nat.testBit_lt_two_pow (Nat.lt_of_lt_of_le h₃ (Nat.pow_le_pow_right (by omega) (by omega)))]; simp
  unfold wbAddr
  rw [← BitVec.add_eq_or_of_and_eq_zero _ _ h, BitVec.toNat_add]
  simp [zext64, BitVec.toNat_shiftLeft, Nat.shiftLeft_eq]
  omega

theorem blockAddr_toNat (p : Word) : (blockAddr p).toNat = p.toNat / 64 * 64 := by
  have h : blockAddr p = (p >>> 6) <<< 6 := by
    have hm : ∀ j < 64, (0x3F : Word).getLsbD j = decide (j < 6) := by decide
    unfold blockAddr
    apply BitVec.eq_of_getLsbD_eq
    intro j hj
    rw [BitVec.getLsbD_and, BitVec.getLsbD_not, hm j hj, BitVec.getLsbD_shiftLeft, BitVec.getLsbD_ushiftRight]
    by_cases h6 : j < 6
    · simp [h6]
    · simp [h6, hj, show 6 + (j - 6) = j by omega]
  have hp := p.isLt
  rw [h, BitVec.toNat_shiftLeft, BitVec.toNat_ushiftRight, Nat.shiftRight_eq_div_pow, Nat.shiftLeft_eq]
  omega

/-- Below 2^52 an address is its tag, set and offset (R204). -/
theorem toNat_eq_slices {p : Word} (h : p.toNat < 2 ^ 52) :
    p.toNat = (wbAddr (setIndexOf p) (tagOf p)).toNat + (offsetOf p).val := by
  rw [wbAddr_toNat, setIndexOf_val, offsetOf_val, tagOf_toNat]; omega

theorem blockAddr_eq_wbAddr {p : Word} (h : p.toNat < 2 ^ 52) :
    (blockAddr p).toNat = (wbAddr (setIndexOf p) (tagOf p)).toNat := by
  rw [blockAddr_toNat, wbAddr_toNat, setIndexOf_val, tagOf_toNat]; omega

/-- Two line addresses agree only if set and tag do. -/
theorem wbAddr_inj {i j : Fin 64} {t u : BitVec 40} (h : (wbAddr i t).toNat / 64 = (wbAddr j u).toNat / 64) :
    i = j ∧ t = u := by
  rw [wbAddr_toNat, wbAddr_toNat] at h
  have := i.isLt
  have := j.isLt
  refine ⟨Fin.ext (by omega), BitVec.eq_of_toNat_eq (by omega)⟩

/-- A byte address inside a line's block has the line's set and tag. -/
theorem slices_of_mem_block {i : Fin 64} {t : BitVec 40} {p : Word} (h : p.toNat < 2 ^ 52)
    (hl : (wbAddr i t).toNat ≤ p.toNat) (hu : p.toNat < (wbAddr i t).toNat + 64) : setIndexOf p = i ∧ tagOf p = t := by
  have hw := wbAddr_toNat i t
  have := i.isLt
  have hs := toNat_eq_slices h
  have ho := (offsetOf p).isLt
  have hw' := wbAddr_toNat (setIndexOf p) (tagOf p)
  have := (setIndexOf p).isLt
  apply wbAddr_inj
  omega

end Sys2Proof.Machine
end

