-- ==== Sys2Proof/Laws/Lists.lean ====
section
/-! SUPPORT. Laws of the keyed lists: what a lookup finds after a change, and that keys stay rising. -/

namespace Sys2Proof.Machine

variable {α : Type}

@[simp] theorem lookupKey_nil (k : Nat) : lookupKey ([] : List (Nat × α)) k = none := rfl

theorem lookupKey_insertKey_self (l : List (Nat × α)) (k : Nat) (v : α) : lookupKey (insertKey l k v) k = some v := by
  induction l with
  | nil => simp [insertKey, lookupKey]
  | cons e l ih =>
    obtain ⟨k', u⟩ := e
    unfold insertKey
    split
    · simp [lookupKey]
    · split
      · simp [lookupKey]
      · rename_i h; simp [lookupKey, h, ih]

theorem lookupKey_insertKey_ne (l : List (Nat × α)) {k k' : Nat} (v : α) (h : k' ≠ k) :
    lookupKey (insertKey l k v) k' = lookupKey l k' := by
  induction l with
  | nil => simp [insertKey, lookupKey, Ne.symm h]
  | cons e l ih =>
    obtain ⟨k₀, u⟩ := e
    unfold insertKey
    split
    · simp [lookupKey, Ne.symm h]
    · split
      · rename_i h₀; subst h₀; simp [lookupKey, Ne.symm h]
      · simp [lookupKey, ih]

theorem lookupKey_insertKey (l : List (Nat × α)) (k k' : Nat) (v : α) :
    lookupKey (insertKey l k v) k' = if k' = k then some v else lookupKey l k' := by
  split
  · rename_i h; rw [h]; exact lookupKey_insertKey_self l k v
  · exact lookupKey_insertKey_ne l v ‹_›

theorem lookupKey_eraseKey (l : List (Nat × α)) (k k' : Nat) :
    lookupKey (eraseKey l k) k' = if k' = k then none else lookupKey l k' := by
  induction l with
  | nil => simp [eraseKey, lookupKey]
  | cons e l ih =>
    obtain ⟨k₀, u⟩ := e
    simp only [eraseKey] at ih
    by_cases h : k₀ = k
    · subst h; simp only [eraseKey, List.filter, bne_self_eq_false, ih, lookupKey]
      split <;> simp_all [eq_comm]
    · have hb : (k₀ != k) = true := by simpa using h
      simp only [eraseKey, List.filter, hb, lookupKey, ih]
      split <;> simp_all

theorem mem_insertKey {l : List (Nat × α)} {k : Nat} {v : α} {e : Nat × α} (h : e ∈ insertKey l k v) :
    e = (k, v) ∨ e ∈ l := by
  induction l with
  | nil => simpa [insertKey] using h
  | cons e₀ l ih =>
    obtain ⟨k₀, u⟩ := e₀
    unfold insertKey at h
    split at h
    · simpa using h
    · split at h
      · rcases List.mem_cons.1 h with h | h
        · exact .inl h
        · exact .inr (List.mem_cons_of_mem _ h)
      · rcases List.mem_cons.1 h with h | h
        · exact .inr (by simp [h])
        · exact (ih h).imp id (List.mem_cons_of_mem _)

theorem keysRise_eraseKey {l : List (Nat × α)} (h : KeysRise l) (k : Nat) : KeysRise (eraseKey l k) :=
  h.sublist ((List.filter_sublist).map _)

theorem keysRise_insertKey {l : List (Nat × α)} (h : KeysRise l) (k : Nat) (v : α) : KeysRise (insertKey l k v) := by
  induction l with
  | nil => simp [insertKey, KeysRise]
  | cons e l ih =>
    obtain ⟨k₀, u⟩ := e
    obtain ⟨h₁, h₂⟩ := List.pairwise_cons.1 h
    unfold insertKey
    split
    · rename_i hk
      refine List.pairwise_cons.2 ⟨fun x hx => ?_, h⟩
      rcases List.mem_cons.1 hx with rfl | hx
      · exact hk
      · exact Nat.lt_trans hk (h₁ x hx)
    · split
      · rename_i hk; subst hk; exact List.pairwise_cons.2 ⟨h₁, h₂⟩
      · refine List.pairwise_cons.2 ⟨fun x hx => ?_, ih h₂⟩
        obtain ⟨e, he, rfl⟩ := List.mem_map.1 hx
        rcases mem_insertKey he with rfl | he
        · simp only; omega
        · exact h₁ _ (List.mem_map_of_mem he)

end Sys2Proof.Machine
end

