-- ==== Sys2Proof/Laws/Memory.lean ====
section
/-! SUPPORT. Laws of the backing store: read after write, the canonical form, and words as bytes. -/

namespace Sys2Proof.Machine

theorem Memory.read_write (m : Memory) (a q : Nat) (v : Byte) :
    (m.write a v).read q = if q = a then v else m.read q := by
  unfold Memory.read Memory.write
  split
  · rw [lookupKey_eraseKey]; split <;> simp_all
  · rw [lookupKey_insertKey]; split <;> simp_all

theorem Memory.wf_write {m : Memory} (h : m.wf) (a : Nat) (v : Byte) : (m.write a v).wf := by
  unfold Memory.write
  split
  · exact ⟨keysRise_eraseKey h.1 a, fun c hc => h.2 c (List.mem_of_mem_filter hc)⟩
  · rename_i hv
    refine ⟨keysRise_insertKey h.1 a v, fun c hc => ?_⟩
    rcases mem_insertKey hc with rfl | hc
    · exact hv
    · exact h.2 c hc

theorem Memory.mem_write {m : Memory} {a : Nat} {v : Byte} {c : Host.Cell} (h : c ∈ m.write a v) :
    c.1 = a ∨ c ∈ m := by
  unfold Memory.write at h
  split at h
  · exact .inr (List.mem_of_mem_filter h)
  · rcases mem_insertKey h with rfl | h
    · exact .inl rfl
    · exact .inr h

theorem Memory.read_writeBytes (m : Memory) (a q : Nat) (bs : List Byte) :
    (m.writeBytes a bs).read q = if a ≤ q ∧ q < a + bs.length then bs.getD (q - a) 0 else m.read q := by
  induction bs generalizing m a with
  | nil => simp [Memory.writeBytes]
  | cons b bs ih =>
    simp only [Memory.writeBytes, ih, Memory.read_write, List.length_cons]
    by_cases h : q = a
    · subst h; simp
    · by_cases h' : a ≤ q ∧ q < a + (bs.length + 1)
      · have h₁ : a + 1 ≤ q ∧ q < a + 1 + bs.length := by omega
        have h₂ : q - a = (q - (a + 1)) + 1 := by omega
        simp only [h₁, h', and_self, if_true, h₂, List.getD_cons_succ]
      · have h₁ : ¬(a + 1 ≤ q ∧ q < a + 1 + bs.length) := by omega
        simp only [h₁, h', if_false, h]

theorem Memory.wf_writeBytes {m : Memory} (h : m.wf) (a : Nat) (bs : List Byte) : (m.writeBytes a bs).wf := by
  induction bs generalizing m a with
  | nil => exact h
  | cons b bs ih => exact ih (Memory.wf_write h a b) (a + 1)

theorem Memory.mem_writeBytes {m : Memory} {a : Nat} {bs : List Byte} {c : Host.Cell} (h : c ∈ m.writeBytes a bs) :
    (a ≤ c.1 ∧ c.1 < a + bs.length) ∨ c ∈ m := by
  induction bs generalizing m a with
  | nil => exact .inr h
  | cons b bs ih =>
    rcases ih h with h | h
    · exact .inl (by simp only [List.length_cons]; omega)
    · rcases Memory.mem_write h with h | h
      · exact .inl (by simp only [List.length_cons]; omega)
      · exact .inr h

@[simp] theorem busReadLine_getElem (m : Memory) (a i : Nat) (h : i < 64) : (busReadLine m a)[i] = m.read (a + i) := by
  simp [busReadLine]

theorem read_busWriteLine (m : Memory) (a q : Nat) (blk : Vector Byte 64) :
    (busWriteLine m a blk).read q = if h : a ≤ q ∧ q < a + 64 then blk[q - a]'(by omega) else m.read q := by
  unfold busWriteLine
  rw [Memory.read_writeBytes]
  simp only [Vector.length_toList]
  split
  · rw [List.getD_eq_getElem _ _ (by simp; omega)]; simp
  · rfl

theorem wf_busWriteLine {m : Memory} (h : m.wf) (a : Nat) (blk : Vector Byte 64) : (busWriteLine m a blk).wf :=
  Memory.wf_writeBytes h a _

@[simp] theorem length_bytesOfWord (v : Word) : (bytesOfWord v).length = 8 := by simp [bytesOfWord]

theorem getD_bytesOfWord (v : Word) (k : Nat) (h : k < 8) : (bytesOfWord v).getD k 0 = byteOf v k := by
  simp [bytesOfWord, List.getD_eq_getElem?_getD, h]

/-- BWR64 seen through a read of one byte (R602). -/
theorem Memory.read_writeWord (m : Memory) (a q : Nat) (v : Word) :
    (m.writeWord a v).read q = if a ≤ q ∧ q < a + 8 then byteOf v (q - a) else m.read q := by
  unfold Memory.writeWord
  rw [Memory.read_writeBytes, length_bytesOfWord]
  split
  · rw [getD_bytesOfWord _ _ (by omega)]
  · rfl

theorem Memory.wf_writeWord {m : Memory} (h : m.wf) (a : Nat) (v : Word) : (m.writeWord a v).wf :=
  Memory.wf_writeBytes h a _

theorem Memory.readBytes_eq (m : Memory) (a n : Nat) :
    m.readBytes a n = (List.range n).map fun k => m.read (a + k) := by
  induction n generalizing a with
  | zero => rfl
  | succ n ih =>
    rw [Memory.readBytes, ih, List.range_succ_eq_map]
    simp [Function.comp_def, Nat.add_assoc, Nat.add_comm 1]

/-- The bytes of a word make the word again (R212). -/
theorem wordOfBytes_bytesOfWord (v : Word) : wordOfBytes (bytesOfWord v) = v := by
  have h : bytesOfWord v = [byteOf v 0, byteOf v 1, byteOf v 2, byteOf v 3, byteOf v 4, byteOf v 5, byteOf v 6,
      byteOf v 7] := rfl
  rw [h]
  ext i hi
  simp only [wordOfBytes, zext64, byteOf, BitVec.getElem_or, BitVec.getElem_shiftLeft, BitVec.getElem_setWidth,
    BitVec.getLsbD_extractLsb']
  interval_cases i <;> simp [BitVec.getLsbD_eq_getElem]

theorem Memory.readWord_writeWord (m : Memory) (a : Nat) (v : Word) : (m.writeWord a v).readWord a = v := by
  have h : (m.writeWord a v).readBytes a 8 = bytesOfWord v := by
    rw [Memory.readBytes_eq]
    simp only [bytesOfWord]
    refine List.map_congr_left fun k hk => ?_
    have hk := List.mem_range.1 hk
    rw [Memory.read_writeWord, if_pos (by omega), Nat.add_sub_cancel_left]
  unfold Memory.readWord
  rw [h, wordOfBytes_bytesOfWord]

theorem State.reset_mem_wf : State.reset.mem.wf := by decide

end Sys2Proof.Machine
end

