-- ==== Sys2Proof/Laws/Cache.lean ====
section
/-! SUPPORT. What an access does to its set and to the store: the hit, the victim, the fill, the touch, and the client's
view after it (spec/40_cache.md R400 to R408, spec/20_memory.md R220, R221). -/

namespace Sys2Proof.Machine

/-! ### The client's view through one set -/

/-- Eff(p) where `x` holds p's set and the store. -/
def SetMem.view (x : SetMem) (p : Word) : Byte :=
  match x.set.find? fun l => l.holds (tagOf p) with
  | some l => l.block[offsetOf p]
  | none => x.mem.read p.toNat

theorem State.eff_eq_view (s : State) (p : Word) :
    s.eff p = SetMem.view { set := s.cache[setIndexOf p], mem := s.mem } p := rfl

theorem Line.holds_iff (l : Line) (t : BitVec 40) : l.holds t = true ↔ l.valid ∧ l.tag = t := by
  simp [Line.holds, Line.valid]

theorem tagsDiffer_iff (set : CacheSet) :
    TagsDiffer set ↔ ∀ (v w : Nat) (hv : v < set.length) (hw : w < set.length),
      set[v].valid → set[w].valid → set[v].tag = set[w].tag → v = w := by
  rw [TagsDiffer, List.pairwise_iff_getElem]
  constructor
  · intro h v w hv hw vv vw ht
    rcases Nat.lt_trichotomy v w with hlt | heq | hlt
    · exact absurd ht (h v w hv hw hlt vv vw)
    · exact heq
    · exact absurd ht.symm (h w v hw hv hlt vw vv)
  · intro h v w hv hw hlt vv vw ht
    exact absurd (h v w hv hw vv vw ht) (Nat.ne_of_lt hlt)

theorem find_of_holds {set : CacheSet} (ht : TagsDiffer set) {t : BitVec 40} {w : Nat} (hw : w < set.length)
    (h : set[w].holds t) : set.find? (fun l => l.holds t) = some set[w] := by
  rw [List.find?_eq_some_iff_getElem]
  refine ⟨h, w, hw, rfl, fun j hj => ?_⟩
  by_contra hc
  have hjh : (set[j]'(Nat.lt_trans hj hw)).holds t := by simpa using hc
  rw [Line.holds_iff] at h hjh
  have := (tagsDiffer_iff set).1 ht j w (Nat.lt_trans hj hw) hw hjh.1 h.1 (hjh.2.trans h.2.symm)
  omega

theorem SetMem.view_of_holds {x : SetMem} (ht : TagsDiffer x.set) {p : Word} {w : Nat} (hw : w < x.set.length)
    (h : x.set[w].holds (tagOf p)) : x.view p = x.set[w].block[offsetOf p] := by
  rw [SetMem.view, find_of_holds ht hw h]

theorem SetMem.view_of_none {x : SetMem} {p : Word}
    (h : ∀ (w : Nat) (hw : w < x.set.length), x.set[w].holds (tagOf p) = false) : x.view p = x.mem.read p.toNat := by
  have : x.set.find? (fun l => l.holds (tagOf p)) = none := by
    rw [List.find?_eq_none]
    intro l hl
    obtain ⟨w, hw, rfl⟩ := List.mem_iff_getElem.1 hl
    simp [h w hw]
  rw [SetMem.view, this]

/-! ### The victim (R404) -/

theorem maxTimeWay_spec (l : List Line) (i best : Nat) (top : Int) :
    (maxTimeWay l i best top = best ∧ ∀ x ∈ l, x.time.toInt ≤ top) ∨
    ∃ (k : Nat) (hk : k < l.length), maxTimeWay l i best top = i + k ∧ top < l[k].time.toInt ∧
      (∀ (j : Nat) (hj : j < l.length), l[j].time.toInt ≤ l[k].time.toInt) ∧
      ∀ (j : Nat) (hj : j < k), (l[j]'(Nat.lt_trans hj hk)).time.toInt < l[k].time.toInt := by
  induction l generalizing i best top with
  | nil => exact .inl ⟨rfl, by simp⟩
  | cons a l ih =>
    unfold maxTimeWay
    split
    · rename_i ha
      right
      rcases ih (i + 1) i a.time.toInt with ⟨h₁, h₂⟩ | ⟨k, hk, h₁, h₂, h₃, h₄⟩
      · refine ⟨0, by simp, by simpa using h₁, by simpa using ha, fun j hj => ?_, fun j hj => absurd hj (by omega)⟩
        rcases j with _ | j
        · simp
        · simpa using h₂ _ (List.getElem_mem (by simpa using hj))
      · refine ⟨k + 1, by simpa using hk, by simp only [h₁]; omega, by simp only [List.getElem_cons_succ]; omega,
          fun j hj => ?_, fun j hj => ?_⟩
        · rcases j with _ | j
          · simp only [List.getElem_cons_zero, List.getElem_cons_succ]; omega
          · simpa using h₃ j (by simpa using hj)
        · rcases j with _ | j
          · simpa using h₂
          · simpa using h₄ j (by omega)
    · rename_i ha
      rcases ih (i + 1) best top with ⟨h₁, h₂⟩ | ⟨k, hk, h₁, h₂, h₃, h₄⟩
      · refine .inl ⟨h₁, fun x hx => ?_⟩
        rcases List.mem_cons.1 hx with rfl | hx
        · omega
        · exact h₂ x hx
      · refine .inr ⟨k + 1, by simpa using hk, by simp only [h₁]; omega, by simpa using h₂, fun j hj => ?_,
          fun j hj => ?_⟩
        · rcases j with _ | j
          · simp only [List.getElem_cons_zero, List.getElem_cons_succ]; omega
          · simpa using h₃ j (by simpa using hj)
        · rcases j with _ | j
          · simp only [List.getElem_cons_zero, List.getElem_cons_succ]; omega
          · simpa using h₄ j (by omega)

theorem victim_lt {set : CacheSet} (h : 0 < set.length) : victim set < set.length := by
  unfold victim
  split
  · rename_i w hw
    exact (List.findIdx?_eq_some_iff_getElem.1 hw).1
  · rcases maxTimeWay_spec set 0 0 (-(2 ^ 63) - 1) with ⟨h₁, _⟩ | ⟨k, hk, h₁, _⟩
    · rw [h₁]; exact h
    · rw [h₁]; omega

theorem hitWay_some {set : CacheSet} {t : BitVec 40} {w : Nat} (h : hitWay set t = some w) :
    ∃ hw : w < set.length, set[w].holds t := by
  obtain ⟨hw, h, _⟩ := List.findIdx?_eq_some_iff_getElem.1 h
  exact ⟨hw, h⟩

theorem hitWay_none {set : CacheSet} {t : BitVec 40} (h : hitWay set t = none) (w : Nat) (hw : w < set.length) :
    set[w].holds t = false := by
  have := List.findIdx?_eq_none_iff.1 h set[w] (List.getElem_mem hw)
  simpa using this

theorem wayOf_eq {set : CacheSet} {w : Nat} (hw : w < set.length) : wayOf set w = set[w] := by
  simp [wayOf, List.getD_eq_getElem?_getD, hw]

/-- The two things `place` can do: a hit, which changes nothing, or a miss, which fills the victim (R403, R405). -/
theorem place_cases (i : Fin 64) (p : Word) (x : SetMem) (hlen : 0 < x.set.length) :
    (∃ (w : Nat) (hw : w < x.set.length), place i p x = (w, x) ∧ x.set[w].holds (tagOf p)) ∨
    (∃ (w : Nat) (_ : w < x.set.length), w = victim x.set ∧ place i p x = (w, fill i w p x) ∧
      ∀ (v : Nat) (hv : v < x.set.length), x.set[v].holds (tagOf p) = false) := by
  unfold place
  split
  · rename_i w h
    obtain ⟨hw, hh⟩ := hitWay_some h
    exact .inl ⟨w, hw, rfl, hh⟩
  · rename_i h
    exact .inr ⟨victim x.set, victim_lt hlen, rfl, rfl, fun v hv => hitWay_none h v hv⟩

/-! ### Touch (R406) -/

@[simp] theorem length_touch (set : CacheSet) (w : Nat) : (touch set w).length = set.length := by simp [touch]

@[simp] theorem getElem_touch (set : CacheSet) (w v : Nat) (hv : v < (touch set w).length) :
    (touch set w)[v] = touchLine w v (set[v]'(by simpa using hv)) := by simp [touch]

@[simp] theorem touchLine_state (w v : Nat) (l : Line) : (touchLine w v l).state = l.state := by
  unfold touchLine; split <;> (try split) <;> rfl

@[simp] theorem touchLine_tag (w v : Nat) (l : Line) : (touchLine w v l).tag = l.tag := by
  unfold touchLine; split <;> (try split) <;> rfl

@[simp] theorem touchLine_block (w v : Nat) (l : Line) : (touchLine w v l).block = l.block := by
  unfold touchLine; split <;> (try split) <;> rfl

theorem toInt_older {t : BitVec 64} : (older t).toInt = min (t.toInt + 1) maxTime := by
  have h₁ := BitVec.toInt_lt (x := t)
  have h₂ := BitVec.le_toInt (x := t)
  unfold older
  rw [BitVec.toInt_ofInt]
  simp only [maxTime] at *
  rw [Int.bmod_eq_of_le] <;> omega

/-! ### An access of a set -/

/-- A set in order: N_WAYS lines, R112(a), (c), (d) for each, R112(b). -/
structure SetOk (n memSize : Nat) (i : Fin 64) (set : CacheSet) : Prop where
  ways : set.length = n
  lines : ∀ l ∈ set, LineWf memSize i l
  tags : TagsDiffer set

/-- Every Clean line of a set equals the store at its address. -/
def SetMem.Coherent (i : Fin 64) (x : SetMem) : Prop :=
  ∀ l ∈ x.set, l.state = .clean → l.block = busReadLine x.mem (wbAddr i l.tag).toNat

/-- What is asked of an access: an address in bounds of a legal store, and its set. -/
structure InSet (memSize : Nat) (i : Fin 64) (p : Word) : Prop where
  bound : p.toNat < memSize
  size : memSize ≤ 2 ^ 52
  aligned : memSize % 64 = 0
  set : setIndexOf p = i

theorem InSet.small {memSize : Nat} {i : Fin 64} {p : Word} (h : InSet memSize i p) : p.toNat < 2 ^ 52 :=
  Nat.lt_of_lt_of_le h.bound h.size

theorem InSet.blockAddr {memSize : Nat} {i : Fin 64} {p : Word} (h : InSet memSize i p) :
    (blockAddr p).toNat = (wbAddr i (tagOf p)).toNat := by
  rw [blockAddr_eq_wbAddr h.small, h.set]

theorem InSet.wbAddr_lt {memSize : Nat} {i : Fin 64} {p : Word} (h : InSet memSize i p) :
    (wbAddr i (tagOf p)).toNat < memSize := by
  rw [← h.blockAddr, blockAddr_toNat]
  have := h.bound
  omega

/-- The line a fill puts into the victim's way (R405). -/
def filled (i : Fin 64) (p : Word) (old : Line) (m : Memory) : Line :=
  { old with block := busReadLine (writeBack i old m) (blockAddr p).toNat, tag := tagOf p, state := .clean }

theorem fill_eq {i : Fin 64} {w : Nat} {p : Word} {x : SetMem} (hw : w < x.set.length) :
    fill i w p x = { set := x.set.set w (filled i p x.set[w] x.mem), mem := writeBack i x.set[w] x.mem } := by
  simp [fill, filled, wayOf_eq hw]

/-- The write-back changes only bytes of the victim's own block (R407). -/
theorem read_writeBack (i : Fin 64) (l : Line) (m : Memory) (q : Nat) :
    (writeBack i l m).read q =
      if h : l.state = .dirty ∧ (wbAddr i l.tag).toNat ≤ q ∧ q < (wbAddr i l.tag).toNat + 64 then
        l.block[q - (wbAddr i l.tag).toNat]'(by omega)
      else m.read q := by
  unfold writeBack
  split
  · rename_i hd
    rw [read_busWriteLine]
    simp only [hd, true_and]
  · rename_i hd
    simp [hd]

/-- A byte of another block survives the write-back. -/
theorem read_writeBack_other {i : Fin 64} {l : Line} {m : Memory} {q : Word} (hq : q.toNat < 2 ^ 52)
    (h : setIndexOf q = i → l.state = .dirty → tagOf q ≠ l.tag) : (writeBack i l m).read q.toNat = m.read q.toNat := by
  rw [read_writeBack]
  split
  · rename_i hb
    obtain ⟨h₁, h₂⟩ := slices_of_mem_block hq hb.2.1 hb.2.2
    exact absurd h₂ (h h₁ hb.1)
  · rfl

/-- A byte of a Dirty victim's block holds the line's byte after the write-back. -/
theorem read_writeBack_own {i : Fin 64} {l : Line} {m : Memory} {q : Word} (hq : q.toNat < 2 ^ 52) (hs : setIndexOf q = i)
    (ht : tagOf q = l.tag) (hd : l.state = .dirty) :
    (writeBack i l m).read q.toNat = l.block[offsetOf q] := by
  have h := toNat_eq_slices hq
  rw [hs, ht] at h
  have ho := (offsetOf q).isLt
  rw [read_writeBack, dif_pos ⟨hd, by omega, by omega⟩]
  have : q.toNat - (wbAddr i l.tag).toNat = (offsetOf q).val := by omega
  simp only [this]
  rfl

/-- What holds between `place` and Touch: way `w` holds p's block, the tags still differ, every other way is as it
was, and w's own line is as it was (a hit) or the fill of the victim. -/
structure Placed (n : Nat) (i : Fin 64) (p : Word) (x : SetMem) (w : Nat) (y : SetMem) : Prop where
  lt : w < y.set.length
  was : x.set.length = n
  ways : y.set.length = n
  holds : y.set[w].holds (tagOf p)
  tags : TagsDiffer y.set
  others : ∀ (v : Nat) (hv : v < y.set.length) (hv' : v < x.set.length), v ≠ w → y.set[v] = x.set[v]
  cases : y = x ∨
    (w = victim x.set ∧ (∀ (v : Nat) (hv : v < x.set.length), x.set[v].holds (tagOf p) = false) ∧
      ∃ hw : w < x.set.length,
        y = { set := x.set.set w (filled i p x.set[w] x.mem), mem := writeBack i x.set[w] x.mem })

theorem place_placed {n ms : Nat} {i : Fin 64} {p : Word} {x : SetMem} (hx : SetOk n ms i x.set) (hn : 1 ≤ n) :
    Placed n i p x (place i p x).1 (place i p x).2 := by
  have hlen : 0 < x.set.length := by rw [hx.ways]; omega
  rcases place_cases i p x hlen with ⟨w, hw, h, hh⟩ | ⟨w, hw, hv, h, hn⟩
  · rw [h]
    exact ⟨hw, hx.ways, hx.ways, hh, hx.tags, fun _ _ _ _ => rfl, .inl rfl⟩
  · rw [h, fill_eq hw]
    have hs : (filled i p x.set[w] x.mem).holds (tagOf p) = true := by simp [filled, Line.holds]
    refine ⟨by simpa using hw, hx.ways, by simpa using hx.ways, by simpa using hs, ?_,
      fun v _ _ hvw => by simp [Ne.symm hvw], .inr ⟨hv, hn, hw, rfl⟩⟩
    rw [tagsDiffer_iff]
    intro a b ha hb va vb ht
    simp only [List.length_set] at ha hb
    simp only [List.getElem_set] at va vb ht
    by_cases hwa : w = a <;> by_cases hwb : w = b
    · omega
    · simp only [if_pos hwa, if_neg hwb] at va vb ht
      have := hn b hb
      rw [Bool.eq_false_iff, Ne, Line.holds_iff] at this
      exact absurd ⟨vb, ht.symm⟩ this
    · simp only [if_neg hwa, if_pos hwb] at va vb ht
      have := hn a ha
      rw [Bool.eq_false_iff, Ne, Line.holds_iff] at this
      exact absurd ⟨va, ht⟩ this
    · simp only [if_neg hwa, if_neg hwb] at va vb ht
      exact (tagsDiffer_iff _).1 hx.tags a b ha hb va vb ht

/-- A fill of a Dirty or Invalid victim, or of a Clean one that equals the store, hides nothing from the client. -/
theorem place_view {n ms : Nat} {i : Fin 64} {p q : Word} {x y : SetMem} {w : Nat} (hx : SetOk n ms i x.set)
    (hp : InSet ms i p) (hy : Placed n i p x w y) (hq : q.toNat < 2 ^ 52) (hs : setIndexOf q = i)
    (hc : tagOf q = tagOf p ∨ x.Coherent i) : y.view q = x.view q := by
  rcases hy.cases with h | ⟨_, hnone, hw, h⟩
  · rw [h]
  have hyt := hy.tags
  have hyh := hy.holds
  have hyl := hy.lt
  subst h
  simp only [List.length_set] at hyl hyh hyt
  by_cases ht : tagOf q = tagOf p
  · -- the block of p itself: the fill copies the store
    rw [SetMem.view_of_none (x := x) (p := q) (by rw [ht]; exact hnone),
      SetMem.view_of_holds (w := w) hyt (by simpa using hw) (by rw [ht]; exact hyh)]
    have hb := toNat_eq_slices hq
    rw [hs, ht, ← hp.blockAddr] at hb
    have h₁ : (writeBack i x.set[w] x.mem).read q.toNat = x.mem.read q.toNat := by
      refine read_writeBack_other hq fun _ hd he => ?_
      have := hnone w hw
      rw [Bool.eq_false_iff, Ne, Line.holds_iff] at this
      exact this ⟨by simp [Line.valid, hd], he ▸ ht⟩
    simp only [filled, List.getElem_set_self, Fin.getElem_fin]
    rw [busReadLine_getElem, ← hb, h₁]
  · have hco := hc.resolve_left ht
    by_cases hh : ∃ (v : Nat) (hv : v < x.set.length), x.set[v].holds (tagOf q)
    · obtain ⟨v, hv, hh⟩ := hh
      rw [SetMem.view_of_holds hx.tags hv hh]
      by_cases hvw : v = w
      · -- the victim held q's block
        subst hvw
        have hh' := (Line.holds_iff _ _).1 hh
        have hnone' : ∀ (u : Nat) (hu : u < (x.set.set v (filled i p x.set[v] x.mem)).length),
            ((x.set.set v (filled i p x.set[v] x.mem))[u]).holds (tagOf q) = false := by
          intro u hu
          rw [Bool.eq_false_iff, Ne, Line.holds_iff]
          intro hc'
          rw [List.getElem_set] at hc'
          split at hc'
          · exact ht hc'.2.symm
          · rename_i huv
            have hu' : u < x.set.length := by simpa using hu
            exact huv ((tagsDiffer_iff _).1 hx.tags u v hu' hv hc'.1 hh'.1 (hc'.2.trans hh'.2.symm)).symm
        rw [SetMem.view_of_none hnone']
        by_cases hd : x.set[v].state = .dirty
        · exact read_writeBack_own hq hs hh'.2.symm hd
        · have hcl : x.set[v].state = .clean := by
            cases hst : x.set[v].state
            · exact absurd hst hh'.1
            · rfl
            · exact absurd hst hd
          have h₁ := hco _ (List.getElem_mem hv) hcl
          have h₂ := toNat_eq_slices hq
          rw [hs, ← hh'.2] at h₂
          simp only [writeBack, hd, if_false]
          rw [h₁, Fin.getElem_fin, busReadLine_getElem, ← h₂]
      · rw [SetMem.view_of_holds (w := v) hyt (by simpa using hv) (by simpa [Ne.symm hvw] using hh)]
        simp [Ne.symm hvw]
    · have hh' : ∀ (v : Nat) (hv : v < x.set.length), x.set[v].holds (tagOf q) = false := by
        intro v hv
        by_contra hc'
        exact hh ⟨v, hv, by simpa using hc'⟩
      rw [SetMem.view_of_none hh', SetMem.view_of_none]
      · refine read_writeBack_other hq fun _ hd he => ?_
        have := hh' w hw
        rw [Bool.eq_false_iff, Ne, Line.holds_iff] at this
        exact this ⟨by simp [Line.valid, hd], he.symm⟩
      · intro u hu
        have hu' : u < x.set.length := by simpa using hu
        simp only [List.getElem_set]
        split
        · rw [Bool.eq_false_iff, Ne, Line.holds_iff]
          exact fun hc' => ht hc'.2.symm
        · exact hh' u hu'

/-- After the access every byte of the store is as before, or holds what the client read there. -/
theorem place_mem {n ms : Nat} {i : Fin 64} {p q : Word} {x y : SetMem} {w : Nat} (hx : SetOk n ms i x.set)
    (hy : Placed n i p x w y) (hq : q.toNat < 2 ^ 52) :
    y.mem.read q.toNat = x.mem.read q.toNat ∨ (setIndexOf q = i ∧ y.mem.read q.toNat = x.view q) := by
  rcases hy.cases with h | ⟨_, _, hw, h⟩
  · exact .inl (by rw [h])
  subst h
  by_cases hb : setIndexOf q = i ∧ x.set[w].state = .dirty ∧ tagOf q = x.set[w].tag
  · obtain ⟨hs, hd, ht⟩ := hb
    refine .inr ⟨hs, ?_⟩
    rw [SetMem.view_of_holds hx.tags hw ((Line.holds_iff _ _).2 ⟨by simp [Line.valid, hd], ht.symm⟩)]
    exact read_writeBack_own hq hs ht hd
  · exact .inl (read_writeBack_other hq fun hs hd ht => hb ⟨hs, hd, ht⟩)

/-! ### The whole access -/

/-- Way v of the set after an access, from the line before Touch. -/
theorem length_storeIn (set : CacheSet) (w : Nat) (o : Fin 64) (d : Option Byte) :
    (storeIn set w o d).length = set.length := by cases d <;> simp [storeIn]

/-- The line an access leaves in way v: touched, and the accessed one written by a CWR. -/
def afterLine (w v : Nat) (o : Fin 64) (d : Option Byte) (l : Line) : Line :=
  match d with
  | none => touchLine w v l
  | some d => if v = w then (touchLine w v l).store o d else touchLine w v l

theorem getElem_storeIn_touch {set : CacheSet} {w v : Nat} {o : Fin 64} {d : Option Byte} (hw : w < set.length)
    (hv : v < (storeIn (touch set w) w o d).length) :
    (storeIn (touch set w) w o d)[v] = afterLine w v o d (set[v]'(by simpa [length_storeIn] using hv)) := by
  have hw' : w < (touch set w).length := by simpa using hw
  cases d with
  | none => simp [storeIn, afterLine]
  | some d =>
    simp only [storeIn, wayOf_eq hw', List.getElem_set, getElem_touch, afterLine]
    by_cases h : w = v
    · subst h; simp
    · simp [h, Ne.symm h]

@[simp] theorem afterLine_tag (w v : Nat) (o : Fin 64) (d : Option Byte) (l : Line) :
    (afterLine w v o d l).tag = l.tag := by
  unfold afterLine; split
  · simp
  · split <;> simp [Line.store]

theorem afterLine_valid (w v : Nat) (o : Fin 64) (d : Option Byte) (l : Line) :
    (afterLine w v o d l).valid ↔ l.valid ∨ (v = w ∧ d.isSome) := by
  unfold afterLine; split
  · simp [Line.valid]
  · split
    · rename_i h; simp [Line.valid, Line.store, h]
    · rename_i h; simp [Line.valid, h]

theorem afterLine_time (w v : Nat) (o : Fin 64) (d : Option Byte) (l : Line) :
    (afterLine w v o d l).time = (touchLine w v l).time := by
  unfold afterLine; split
  · rfl
  · split <;> rfl

/-- What an access comes to for its set and the store (R401). -/
structure Accessed (n ms : Nat) (i : Fin 64) (p : Word) (d : Option Byte) (x : SetMem) (w : Nat) (z : SetMem) :
    Prop where
  lt : w < z.set.length
  ok : SetOk n ms i z.set
  value : z.set[w].block[offsetOf p] = z.view p
  own : z.view p = d.getD (x.view p)
  other : ∀ q : Word, q.toNat < 2 ^ 52 → setIndexOf q = i → q ≠ p → (tagOf q = tagOf p ∨ x.Coherent i) →
    z.view q = x.view q
  store : ∀ q : Word, q.toNat < 2 ^ 52 →
    z.mem.read q.toNat = x.mem.read q.toNat ∨ (setIndexOf q = i ∧ z.mem.read q.toNat = x.view q)
  mem : z.mem = x.mem ∨ ∃ l ∈ x.set, l.state = .dirty ∧ z.mem = busWriteLine x.mem (wbAddr i l.tag).toNat l.block
  coherent : x.Coherent i → z.Coherent i
  stays : ∀ (v : Nat) (hv : v < x.set.length) (hv' : v < z.set.length), x.set[v].valid → z.set[v].valid
  times : TimesDiffer x.set → TimesDiffer z.set

theorem timesDiffer_iff (set : CacheSet) :
    TimesDiffer set ↔ ∀ (v w : Nat) (hv : v < set.length) (hw : w < set.length), v ≠ w →
      set[v].valid → set[w].valid → set[v].time = set[w].time → set[v].time.toInt = maxTime := by
  rw [TimesDiffer, List.pairwise_iff_getElem]
  constructor
  · intro h v w hv hw hne vv vw ht
    rcases Nat.lt_or_gt_of_ne hne with hlt | hlt
    · exact h v w hv hw hlt vv vw ht
    · rw [ht]; exact h w v hw hv hlt vw vv ht.symm
  · intro h v w hv hw hlt vv vw ht
    exact h v w hv hw (Nat.ne_of_lt hlt) vv vw ht

theorem toInt_zero_time : (0 : BitVec 64).toInt = 0 := by decide

theorem slices_inj {p q : Word} (hp : p.toNat < 2 ^ 52) (hq : q.toNat < 2 ^ 52) (hs : setIndexOf p = setIndexOf q)
    (ht : tagOf p = tagOf q) (ho : offsetOf p = offsetOf q) : p = q := by
  have h₁ := toNat_eq_slices hp
  have h₂ := toNat_eq_slices hq
  rw [hs, ht, ho, ← h₂] at h₁
  exact BitVec.eq_of_toNat_eq h₁

/-- The set and store once way `w` is touched and a CWR has written its byte. -/
def SetMem.after (y : SetMem) (w : Nat) (o : Fin 64) (d : Option Byte) : SetMem :=
  { set := storeIn (touch y.set w) w o d, mem := y.mem }

theorem SetMem.length_after (y : SetMem) (w : Nat) (o : Fin 64) (d : Option Byte) :
    (y.after w o d).set.length = y.set.length := by simp [SetMem.after, length_storeIn]

theorem SetMem.getElem_after {y : SetMem} {w v : Nat} {o : Fin 64} {d : Option Byte} (hw : w < y.set.length)
    (hv : v < (y.after w o d).set.length) :
    (y.after w o d).set[v] = afterLine w v o d (y.set[v]'(by simpa [SetMem.length_after] using hv)) :=
  getElem_storeIn_touch hw hv

section

variable {n ms : Nat} {i : Fin 64} {p : Word} {x y : SetMem} {w : Nat} {d : Option Byte}

theorem Placed.valid_after (hy : Placed n i p x w y) (v : Nat) (hv : v < y.set.length) :
    (afterLine w v (offsetOf p) d y.set[v]).valid ↔ y.set[v].valid := by
  have hyh := (Line.holds_iff _ _).1 hy.holds
  rw [afterLine_valid]
  constructor
  · rintro (h | ⟨rfl, _⟩)
    · exact h
    · exact hyh.1
  · exact .inl

theorem Placed.holds_after (hy : Placed n i p x w y) (v : Nat) (hv : v < y.set.length) (t : BitVec 40) :
    (afterLine w v (offsetOf p) d y.set[v]).holds t = y.set[v].holds t := by
  rw [Bool.eq_iff_iff, Line.holds_iff, Line.holds_iff, hy.valid_after v hv, afterLine_tag]

theorem Placed.tags_after (hy : Placed n i p x w y) : TagsDiffer (y.after w (offsetOf p) d).set := by
  rw [tagsDiffer_iff]
  intro a b ha hb va vb ht
  rw [SetMem.getElem_after hy.lt ha] at va ht
  rw [SetMem.getElem_after hy.lt hb] at vb ht
  exact (tagsDiffer_iff _).1 hy.tags a b _ _ ((hy.valid_after a _).1 va) ((hy.valid_after b _).1 vb) (by simpa using ht)

theorem Placed.view_after_other (hy : Placed n i p x w y) {q : Word}
    (hsame : ¬(tagOf q = tagOf p ∧ offsetOf q = offsetOf p)) : (y.after w (offsetOf p) d).view q = y.view q := by
  have hyh := (Line.holds_iff _ _).1 hy.holds
  by_cases hh : ∃ (v : Nat) (hv : v < y.set.length), y.set[v].holds (tagOf q)
  · obtain ⟨v, hv, hh⟩ := hh
    have hv' : v < (y.after w (offsetOf p) d).set.length := by rw [SetMem.length_after]; exact hv
    rw [SetMem.view_of_holds hy.tags hv hh, SetMem.view_of_holds hy.tags_after hv'
      (by rw [SetMem.getElem_after hy.lt, hy.holds_after]; exact hh)]
    simp only [SetMem.getElem_after hy.lt]
    unfold afterLine
    split
    · simp
    · split
      · rename_i hvw
        subst hvw
        have ht : tagOf q = tagOf p := ((Line.holds_iff _ _).1 hh).2.symm.trans hyh.2
        have ho' : (offsetOf p).val ≠ (offsetOf q).val := fun h => hsame ⟨ht, (Fin.ext h).symm⟩
        simp [Line.store, ho']
      · simp
  · have hh' : ∀ (v : Nat) (hv : v < y.set.length), y.set[v].holds (tagOf q) = false := by
      intro v hv
      by_contra hc'
      exact hh ⟨v, hv, by simpa using hc'⟩
    rw [SetMem.view_of_none hh', SetMem.view_of_none]
    · rfl
    · intro v hv
      rw [SetMem.getElem_after hy.lt, hy.holds_after]
      exact hh' v _

theorem Placed.view_after_own (hy : Placed n i p x w y) (hw : w < (y.after w (offsetOf p) d).set.length) :
    (y.after w (offsetOf p) d).view p = ((y.after w (offsetOf p) d).set[w]).block[offsetOf p] :=
  SetMem.view_of_holds hy.tags_after hw (by rw [SetMem.getElem_after hy.lt, hy.holds_after]; exact hy.holds)

theorem Placed.lines_after (hx : SetOk n ms i x.set) (hp : InSet ms i p) (hy : Placed n i p x w y) :
    ∀ l ∈ (y.after w (offsetOf p) d).set, LineWf ms i l := by
  have hyh := (Line.holds_iff _ _).1 hy.holds
  have hxy : y.set.length = x.set.length := by rw [hy.ways, hy.was]
  intro l hl
  obtain ⟨v, hv, rfl⟩ := List.mem_iff_getElem.1 hl
  have hv' : v < y.set.length := by rwa [SetMem.length_after] at hv
  rw [SetMem.getElem_after hy.lt hv]
  by_cases hvw : v = w
  · subst hvw
    have ht : (afterLine v v (offsetOf p) d y.set[v]).time = 0 := by simp [afterLine_time, touchLine]
    have hva := (hy.valid_after (d := d) v hv').2 hyh.1
    refine ⟨⟨fun h => absurd h hva, fun h => ?_⟩, fun _ => by rw [ht, toInt_zero_time], fun _ => ?_⟩
    · rw [ht] at h; exact absurd h (by decide)
    · rw [afterLine_tag, hyh.2]; exact hp.wbAddr_lt
  · have hv'' : v < x.set.length := by omega
    have hl := hx.lines _ (List.getElem_mem hv'')
    rw [hy.others v hv' hv'' hvw]
    have hcases : afterLine w v (offsetOf p) d x.set[v] = touchLine w v x.set[v] := by
      unfold afterLine; split
      · rfl
      · simp [hvw]
    rw [hcases]
    unfold touchLine
    rw [if_neg hvw]
    split
    · exact hl
    · rename_i hst
      have h₁ := hl.2.1 hst
      have h₂ : (older x.set[v].time).toInt = min (x.set[v].time.toInt + 1) maxTime := toInt_older
      have h₃ : 0 ≤ (older x.set[v].time).toInt := by rw [h₂]; simp only [maxTime]; omega
      refine ⟨⟨fun h => absurd h hst, fun h => ?_⟩, fun _ => h₃, fun _ => hl.2.2 hst⟩
      simp only at h
      rw [h] at h₃
      exact absurd h₃ (by decide)

theorem Placed.coherent_after (hx : SetOk n ms i x.set) (hp : InSet ms i p) (hy : Placed n i p x w y)
    (hco : x.Coherent i) : (y.after w (offsetOf p) d).Coherent i := by
  have hxy : y.set.length = x.set.length := by rw [hy.ways, hy.was]
  intro l hl hcl
  obtain ⟨v, hv, rfl⟩ := List.mem_iff_getElem.1 hl
  have hv' : v < y.set.length := by rwa [SetMem.length_after] at hv
  have hv'' : v < x.set.length := by omega
  rw [SetMem.getElem_after hy.lt hv] at hcl ⊢
  have hcl' : y.set[v].state = .clean ∧ (afterLine w v (offsetOf p) d y.set[v]).block = y.set[v].block := by
    unfold afterLine at hcl ⊢
    split at hcl
    · exact ⟨by simpa using hcl, by simp⟩
    · split at hcl
      · exact absurd hcl (by simp [Line.store])
      · rename_i hvw
        exact ⟨by simpa using hcl, by simp [hvw]⟩
  rw [hcl'.2, afterLine_tag]
  show _ = busReadLine y.mem _
  rcases hy.cases with h | ⟨_, hnone, hw', h⟩
  · have hxy' : y.set[v] = x.set[v] := by simp only [h]
    rw [hxy'] at hcl' ⊢
    rw [h]
    exact hco _ (List.getElem_mem hv'') hcl'.1
  · have hm : y.mem = writeBack i x.set[w] x.mem := by rw [h]
    by_cases hvw : v = w
    · subst hvw
      have hxy' : y.set[v] = filled i p x.set[v] x.mem := by simp [h]
      rw [hxy', hm]
      simp only [filled]
      rw [hp.blockAddr]
    · have hxy' := hy.others v hv' hv'' hvw
      rw [hxy'] at hcl' ⊢
      rw [hco _ (List.getElem_mem hv'') hcl'.1, hm]
      ext1 k hk
      simp only [busReadLine_getElem]
      rw [read_writeBack]
      split
      · rename_i hb
        have hi := i.isLt
        have h₁ := wbAddr_toNat i x.set[w].tag
        have h₂ := wbAddr_toNat i x.set[v].tag
        have : x.set[w].tag = x.set[v].tag := (wbAddr_inj (i := i) (j := i) (by omega)).2
        exact absurd ((tagsDiffer_iff _).1 hx.tags v w hv'' hw' (by simp [Line.valid, hcl'.1])
          (by simp [Line.valid, hb.1]) this.symm) hvw
      · rfl

theorem Placed.times_after (hx : SetOk n ms i x.set) (hy : Placed n i p x w y) (htd : TimesDiffer x.set) :
    TimesDiffer (y.after w (offsetOf p) d).set := by
  have hxy : y.set.length = x.set.length := by rw [hy.ways, hy.was]
  have hage : ∀ (v : Nat) (hv : v < y.set.length) (hv' : v < x.set.length), v ≠ w → y.set[v].valid →
      (touchLine w v y.set[v]).time.toInt = min (x.set[v].time.toInt + 1) maxTime ∧ x.set[v].valid ∧
        0 ≤ x.set[v].time.toInt := by
    intro v hv hv' hvw hva
    rw [hy.others v hv hv' hvw] at hva ⊢
    refine ⟨?_, hva, (hx.lines _ (List.getElem_mem hv')).2.1 hva⟩
    unfold touchLine
    rw [if_neg hvw, if_neg hva]
    exact toInt_older
  have hzero : ∀ (v : Nat) (hv : v < y.set.length), v = w → (touchLine w v y.set[v]).time.toInt = 0 := by
    intro v hv hvw
    simp [touchLine, hvw]
  rw [timesDiffer_iff]
  intro a b ha hb hne va vb ht
  have ha' : a < y.set.length := by rwa [SetMem.length_after] at ha
  have hb' : b < y.set.length := by rwa [SetMem.length_after] at hb
  have hax : a < x.set.length := by omega
  have hbx : b < x.set.length := by omega
  rw [SetMem.getElem_after hy.lt ha] at va ht ⊢
  rw [SetMem.getElem_after hy.lt hb] at vb ht
  rw [hy.valid_after a ha'] at va
  rw [hy.valid_after b hb'] at vb
  rw [afterLine_time] at ht ⊢
  rw [afterLine_time] at ht
  have ht' : (touchLine w a y.set[a]).time.toInt = (touchLine w b y.set[b]).time.toInt := by rw [ht]
  clear ht
  have hmax : maxTime = 2 ^ 63 - 1 := rfl
  by_cases haw : a = w
  · have h₁ := hage b hb' hbx (fun h => hne (haw.trans h.symm)) vb
    have h₂ := hzero a ha' haw
    omega
  · have h₁ := hage a ha' hax haw va
    by_cases hbw : b = w
    · have h₂ := hzero b hb' hbw
      omega
    · have h₂ := hage b hb' hbx hbw vb
      have h₅ := BitVec.toInt_lt (x := x.set[a].time)
      have h₆ := BitVec.toInt_lt (x := x.set[b].time)
      by_cases heq : x.set[a].time = x.set[b].time
      · have h₄ := (timesDiffer_iff _).1 htd a b hax hbx hne h₁.2.1 h₂.2.1 heq
        omega
      · have h₄ : x.set[a].time.toInt ≠ x.set[b].time.toInt := fun h => heq (BitVec.eq_of_toInt_eq h)
        omega

end

theorem accessSet_accessed {n ms : Nat} {i : Fin 64} {p : Word} {x : SetMem} (d : Option Byte)
    (hx : SetOk n ms i x.set) (hn : 1 ≤ n) (hp : InSet ms i p) :
    Accessed n ms i p d x (accessSet i p d x).1 (accessSet i p d x).2 := by
  have hy := place_placed (i := i) (p := p) hx hn
  generalize hw : (place i p x).1 = w at hy
  generalize hyy : (place i p x).2 = y at hy
  have he : accessSet i p d x = (w, y.after w (offsetOf p) d) := by simp [accessSet, hw, hyy, SetMem.after]
  rw [he]
  have hlen := SetMem.length_after y w (offsetOf p) d
  have hlt : w < (y.after w (offsetOf p) d).set.length := by rw [hlen]; exact hy.lt
  have hxy : y.set.length = x.set.length := by rw [hy.ways, hy.was]
  refine ⟨hlt, ⟨by rw [hlen, hy.ways], hy.lines_after hx hp, hy.tags_after⟩, (hy.view_after_own hlt).symm, ?_, ?_,
    fun q hq => place_mem (y := y) hx hy hq, ?_, hy.coherent_after hx hp, ?_, hy.times_after hx⟩
  · rw [hy.view_after_own hlt, SetMem.getElem_after hy.lt]
    cases d with
    | none =>
      simp only [afterLine, touchLine_block, Option.getD_none]
      rw [← SetMem.view_of_holds hy.tags hy.lt hy.holds]
      exact place_view hx hp hy hp.small hp.set (.inl rfl)
    | some d => simp [afterLine, Line.store]
  · intro q hq hs hne hc
    rw [← place_view hx hp hy hq hs hc]
    exact hy.view_after_other fun h => hne (slices_inj hq hp.small (hs.trans hp.set.symm) h.1 h.2)
  · rcases hy.cases with h | ⟨_, _, hw', h⟩
    · exact .inl (by rw [h]; rfl)
    · by_cases hd : x.set[w].state = .dirty
      · exact .inr ⟨_, List.getElem_mem hw', hd, by rw [h]; simp [SetMem.after, writeBack, hd]⟩
      · exact .inl (by rw [h]; simp [SetMem.after, writeBack, hd])
  · intro v hv hv' hva
    have hv'' : v < y.set.length := by omega
    rw [SetMem.getElem_after hy.lt hv', hy.valid_after v hv'']
    by_cases hvw : v = w
    · subst hvw; exact ((Line.holds_iff _ _).1 hy.holds).1
    · rw [hy.others v hv'' hv hvw]; exact hva

end Sys2Proof.Machine
end

