-- ==== Sys2Proof/Laws/State.lean ====
section
/-! SUPPORT. The state's small lemmas: every field after every named update, so that no later proof unfolds a record
update; what one register write does to the cells; and that notes of reads add up. -/

namespace Sys2Proof.Machine

variable (s : State)

/-! ### respond -/

@[simp] theorem State.respond_params (st : Status) (v : Word) : (s.respond st v).params = s.params := rfl
@[simp] theorem State.respond_gpr (st : Status) (v : Word) : (s.respond st v).gpr = s.gpr := rfl
@[simp] theorem State.respond_wr (st : Status) (v : Word) : (s.respond st v).wr = s.wr := rfl
@[simp] theorem State.respond_rip (st : Status) (v : Word) : (s.respond st v).rip = s.rip := rfl
@[simp] theorem State.respond_ripWr (st : Status) (v : Word) : (s.respond st v).ripWr = s.ripWr := rfl
@[simp] theorem State.respond_flags (st : Status) (v : Word) : (s.respond st v).flags = s.flags := rfl
@[simp] theorem State.respond_cache (st : Status) (v : Word) : (s.respond st v).cache = s.cache := rfl
@[simp] theorem State.respond_pt (st : Status) (v : Word) : (s.respond st v).pt = s.pt := rfl
@[simp] theorem State.respond_mem (st : Status) (v : Word) : (s.respond st v).mem = s.mem := rfl
@[simp] theorem State.respond_prog (st : Status) (v : Word) : (s.respond st v).prog = s.prog := rfl
@[simp] theorem State.respond_run (st : Status) (v : Word) : (s.respond st v).run = s.run := rfl
@[simp] theorem State.respond_resp (st : Status) (v : Word) :
    (s.respond st v).resp = some { status := st, rdata := v } := rfl
@[simp] theorem State.respond_unwritten (st : Status) (v : Word) : (s.respond st v).unwritten = s.unwritten := rfl
@[simp] theorem State.respond_inbox (st : Status) (v : Word) : (s.respond st v).inbox = s.inbox := rfl
@[simp] theorem State.respond_gaps (st : Status) (v : Word) : (s.respond st v).gaps = s.gaps := rfl

/-! ### engineFault -/

@[simp] theorem State.engineFault_params (st : Status) (info : Option Word) :
    (s.engineFault st info).params = s.params := rfl
@[simp] theorem State.engineFault_gpr (st : Status) (info : Option Word) : (s.engineFault st info).gpr = s.gpr := rfl
@[simp] theorem State.engineFault_wr (st : Status) (info : Option Word) : (s.engineFault st info).wr = s.wr := rfl
@[simp] theorem State.engineFault_rip (st : Status) (info : Option Word) : (s.engineFault st info).rip = s.rip := rfl
@[simp] theorem State.engineFault_ripWr (st : Status) (info : Option Word) :
    (s.engineFault st info).ripWr = s.ripWr := rfl
@[simp] theorem State.engineFault_flags (st : Status) (info : Option Word) :
    (s.engineFault st info).flags = s.flags := rfl
@[simp] theorem State.engineFault_cache (st : Status) (info : Option Word) :
    (s.engineFault st info).cache = s.cache := rfl
@[simp] theorem State.engineFault_pt (st : Status) (info : Option Word) : (s.engineFault st info).pt = s.pt := rfl
@[simp] theorem State.engineFault_mem (st : Status) (info : Option Word) : (s.engineFault st info).mem = s.mem := rfl
@[simp] theorem State.engineFault_prog (st : Status) (info : Option Word) : (s.engineFault st info).prog = s.prog := rfl
@[simp] theorem State.engineFault_run (st : Status) (info : Option Word) :
    (s.engineFault st info).run = .faulted st info := rfl
@[simp] theorem State.engineFault_resp (st : Status) (info : Option Word) : (s.engineFault st info).resp = s.resp := rfl
@[simp] theorem State.engineFault_unwritten (st : Status) (info : Option Word) :
    (s.engineFault st info).unwritten = s.unwritten := rfl
@[simp] theorem State.engineFault_inbox (st : Status) (info : Option Word) :
    (s.engineFault st info).inbox = s.inbox := rfl
@[simp] theorem State.engineFault_gaps (st : Status) (info : Option Word) : (s.engineFault st info).gaps = s.gaps := rfl

/-! ### noteRead -/

@[simp] theorem State.noteRead_params (w : Bool) : (s.noteRead w).params = s.params := rfl
@[simp] theorem State.noteRead_gpr (w : Bool) : (s.noteRead w).gpr = s.gpr := rfl
@[simp] theorem State.noteRead_wr (w : Bool) : (s.noteRead w).wr = s.wr := rfl
@[simp] theorem State.noteRead_rip (w : Bool) : (s.noteRead w).rip = s.rip := rfl
@[simp] theorem State.noteRead_ripWr (w : Bool) : (s.noteRead w).ripWr = s.ripWr := rfl
@[simp] theorem State.noteRead_flags (w : Bool) : (s.noteRead w).flags = s.flags := rfl
@[simp] theorem State.noteRead_cache (w : Bool) : (s.noteRead w).cache = s.cache := rfl
@[simp] theorem State.noteRead_pt (w : Bool) : (s.noteRead w).pt = s.pt := rfl
@[simp] theorem State.noteRead_mem (w : Bool) : (s.noteRead w).mem = s.mem := rfl
@[simp] theorem State.noteRead_prog (w : Bool) : (s.noteRead w).prog = s.prog := rfl
@[simp] theorem State.noteRead_run (w : Bool) : (s.noteRead w).run = s.run := rfl
@[simp] theorem State.noteRead_resp (w : Bool) : (s.noteRead w).resp = s.resp := rfl
@[simp] theorem State.noteRead_unwritten (w : Bool) : (s.noteRead w).unwritten = (s.unwritten || !w) := rfl
@[simp] theorem State.noteRead_inbox (w : Bool) : (s.noteRead w).inbox = s.inbox := rfl
@[simp] theorem State.noteRead_gaps (w : Bool) : (s.noteRead w).gaps = s.gaps := rfl

/-! ### setCell -/

@[simp] theorem State.setCell_params (c : BitVec 4) (x : Word) (m : BitVec 8) :
    (s.setCell c x m).params = s.params := rfl
@[simp] theorem State.setCell_gpr (c : BitVec 4) (x : Word) (m : BitVec 8) :
    (s.setCell c x m).gpr = s.gpr.set c.toNat x c.isLt := rfl
@[simp] theorem State.setCell_wr (c : BitVec 4) (x : Word) (m : BitVec 8) :
    (s.setCell c x m).wr = s.wr.set c.toNat m c.isLt := rfl
@[simp] theorem State.setCell_rip (c : BitVec 4) (x : Word) (m : BitVec 8) : (s.setCell c x m).rip = s.rip := rfl
@[simp] theorem State.setCell_ripWr (c : BitVec 4) (x : Word) (m : BitVec 8) : (s.setCell c x m).ripWr = s.ripWr := rfl
@[simp] theorem State.setCell_flags (c : BitVec 4) (x : Word) (m : BitVec 8) : (s.setCell c x m).flags = s.flags := rfl
@[simp] theorem State.setCell_cache (c : BitVec 4) (x : Word) (m : BitVec 8) : (s.setCell c x m).cache = s.cache := rfl
@[simp] theorem State.setCell_pt (c : BitVec 4) (x : Word) (m : BitVec 8) : (s.setCell c x m).pt = s.pt := rfl
@[simp] theorem State.setCell_mem (c : BitVec 4) (x : Word) (m : BitVec 8) : (s.setCell c x m).mem = s.mem := rfl
@[simp] theorem State.setCell_prog (c : BitVec 4) (x : Word) (m : BitVec 8) : (s.setCell c x m).prog = s.prog := rfl
@[simp] theorem State.setCell_run (c : BitVec 4) (x : Word) (m : BitVec 8) : (s.setCell c x m).run = s.run := rfl
@[simp] theorem State.setCell_resp (c : BitVec 4) (x : Word) (m : BitVec 8) : (s.setCell c x m).resp = s.resp := rfl
@[simp] theorem State.setCell_unwritten (c : BitVec 4) (x : Word) (m : BitVec 8) :
    (s.setCell c x m).unwritten = s.unwritten := rfl
@[simp] theorem State.setCell_inbox (c : BitVec 4) (x : Word) (m : BitVec 8) : (s.setCell c x m).inbox = s.inbox := rfl
@[simp] theorem State.setCell_gaps (c : BitVec 4) (x : Word) (m : BitVec 8) : (s.setCell c x m).gaps = s.gaps := rfl

/-! ### setRip -/

@[simp] theorem State.setRip_params (v : Word) : (s.setRip v).params = s.params := rfl
@[simp] theorem State.setRip_gpr (v : Word) : (s.setRip v).gpr = s.gpr := rfl
@[simp] theorem State.setRip_wr (v : Word) : (s.setRip v).wr = s.wr := rfl
@[simp] theorem State.setRip_rip (v : Word) : (s.setRip v).rip = v := rfl
@[simp] theorem State.setRip_ripWr (v : Word) : (s.setRip v).ripWr = true := rfl
@[simp] theorem State.setRip_flags (v : Word) : (s.setRip v).flags = s.flags := rfl
@[simp] theorem State.setRip_cache (v : Word) : (s.setRip v).cache = s.cache := rfl
@[simp] theorem State.setRip_pt (v : Word) : (s.setRip v).pt = s.pt := rfl
@[simp] theorem State.setRip_mem (v : Word) : (s.setRip v).mem = s.mem := rfl
@[simp] theorem State.setRip_prog (v : Word) : (s.setRip v).prog = s.prog := rfl
@[simp] theorem State.setRip_run (v : Word) : (s.setRip v).run = s.run := rfl
@[simp] theorem State.setRip_resp (v : Word) : (s.setRip v).resp = s.resp := rfl
@[simp] theorem State.setRip_unwritten (v : Word) : (s.setRip v).unwritten = s.unwritten := rfl
@[simp] theorem State.setRip_inbox (v : Word) : (s.setRip v).inbox = s.inbox := rfl
@[simp] theorem State.setRip_gaps (v : Word) : (s.setRip v).gaps = s.gaps := rfl

/-! ### setFlags -/

@[simp] theorem State.setFlags_params (f : Flags) : (s.setFlags f).params = s.params := rfl
@[simp] theorem State.setFlags_gpr (f : Flags) : (s.setFlags f).gpr = s.gpr := rfl
@[simp] theorem State.setFlags_wr (f : Flags) : (s.setFlags f).wr = s.wr := rfl
@[simp] theorem State.setFlags_rip (f : Flags) : (s.setFlags f).rip = s.rip := rfl
@[simp] theorem State.setFlags_ripWr (f : Flags) : (s.setFlags f).ripWr = s.ripWr := rfl
@[simp] theorem State.setFlags_flags (f : Flags) : (s.setFlags f).flags = f := rfl
@[simp] theorem State.setFlags_cache (f : Flags) : (s.setFlags f).cache = s.cache := rfl
@[simp] theorem State.setFlags_pt (f : Flags) : (s.setFlags f).pt = s.pt := rfl
@[simp] theorem State.setFlags_mem (f : Flags) : (s.setFlags f).mem = s.mem := rfl
@[simp] theorem State.setFlags_prog (f : Flags) : (s.setFlags f).prog = s.prog := rfl
@[simp] theorem State.setFlags_run (f : Flags) : (s.setFlags f).run = s.run := rfl
@[simp] theorem State.setFlags_resp (f : Flags) : (s.setFlags f).resp = s.resp := rfl
@[simp] theorem State.setFlags_unwritten (f : Flags) : (s.setFlags f).unwritten = s.unwritten := rfl
@[simp] theorem State.setFlags_inbox (f : Flags) : (s.setFlags f).inbox = s.inbox := rfl
@[simp] theorem State.setFlags_gaps (f : Flags) : (s.setFlags f).gaps = s.gaps := rfl

/-! ### setPte -/

@[simp] theorem State.setPte_params (k : Fin 4) (key : Word) (e : Pte) : (s.setPte k key e).params = s.params := rfl
@[simp] theorem State.setPte_gpr (k : Fin 4) (key : Word) (e : Pte) : (s.setPte k key e).gpr = s.gpr := rfl
@[simp] theorem State.setPte_wr (k : Fin 4) (key : Word) (e : Pte) : (s.setPte k key e).wr = s.wr := rfl
@[simp] theorem State.setPte_rip (k : Fin 4) (key : Word) (e : Pte) : (s.setPte k key e).rip = s.rip := rfl
@[simp] theorem State.setPte_ripWr (k : Fin 4) (key : Word) (e : Pte) : (s.setPte k key e).ripWr = s.ripWr := rfl
@[simp] theorem State.setPte_flags (k : Fin 4) (key : Word) (e : Pte) : (s.setPte k key e).flags = s.flags := rfl
@[simp] theorem State.setPte_cache (k : Fin 4) (key : Word) (e : Pte) : (s.setPte k key e).cache = s.cache := rfl
@[simp] theorem State.setPte_pt (k : Fin 4) (key : Word) (e : Pte) :
    (s.setPte k key e).pt = s.pt.set k.val (insertKey s.pt[k] key.toNat e) := rfl
@[simp] theorem State.setPte_mem (k : Fin 4) (key : Word) (e : Pte) : (s.setPte k key e).mem = s.mem := rfl
@[simp] theorem State.setPte_prog (k : Fin 4) (key : Word) (e : Pte) : (s.setPte k key e).prog = s.prog := rfl
@[simp] theorem State.setPte_run (k : Fin 4) (key : Word) (e : Pte) : (s.setPte k key e).run = s.run := rfl
@[simp] theorem State.setPte_resp (k : Fin 4) (key : Word) (e : Pte) : (s.setPte k key e).resp = s.resp := rfl
@[simp] theorem State.setPte_unwritten (k : Fin 4) (key : Word) (e : Pte) :
    (s.setPte k key e).unwritten = s.unwritten := rfl
@[simp] theorem State.setPte_inbox (k : Fin 4) (key : Word) (e : Pte) : (s.setPte k key e).inbox = s.inbox := rfl
@[simp] theorem State.setPte_gaps (k : Fin 4) (key : Word) (e : Pte) : (s.setPte k key e).gaps = s.gaps := rfl

/-! ### setMem -/

@[simp] theorem State.setMem_params (m : Memory) : (s.setMem m).params = s.params := rfl
@[simp] theorem State.setMem_gpr (m : Memory) : (s.setMem m).gpr = s.gpr := rfl
@[simp] theorem State.setMem_wr (m : Memory) : (s.setMem m).wr = s.wr := rfl
@[simp] theorem State.setMem_rip (m : Memory) : (s.setMem m).rip = s.rip := rfl
@[simp] theorem State.setMem_ripWr (m : Memory) : (s.setMem m).ripWr = s.ripWr := rfl
@[simp] theorem State.setMem_flags (m : Memory) : (s.setMem m).flags = s.flags := rfl
@[simp] theorem State.setMem_cache (m : Memory) : (s.setMem m).cache = s.cache := rfl
@[simp] theorem State.setMem_pt (m : Memory) : (s.setMem m).pt = s.pt := rfl
@[simp] theorem State.setMem_mem (m : Memory) : (s.setMem m).mem = m := rfl
@[simp] theorem State.setMem_prog (m : Memory) : (s.setMem m).prog = s.prog := rfl
@[simp] theorem State.setMem_run (m : Memory) : (s.setMem m).run = s.run := rfl
@[simp] theorem State.setMem_resp (m : Memory) : (s.setMem m).resp = s.resp := rfl
@[simp] theorem State.setMem_unwritten (m : Memory) : (s.setMem m).unwritten = s.unwritten := rfl
@[simp] theorem State.setMem_inbox (m : Memory) : (s.setMem m).inbox = s.inbox := rfl
@[simp] theorem State.setMem_gaps (m : Memory) : (s.setMem m).gaps = s.gaps := rfl

/-! ### setCache -/

@[simp] theorem State.setCache_params (i : Fin 64) (x : SetMem) : (s.setCache i x).params = s.params := rfl
@[simp] theorem State.setCache_gpr (i : Fin 64) (x : SetMem) : (s.setCache i x).gpr = s.gpr := rfl
@[simp] theorem State.setCache_wr (i : Fin 64) (x : SetMem) : (s.setCache i x).wr = s.wr := rfl
@[simp] theorem State.setCache_rip (i : Fin 64) (x : SetMem) : (s.setCache i x).rip = s.rip := rfl
@[simp] theorem State.setCache_ripWr (i : Fin 64) (x : SetMem) : (s.setCache i x).ripWr = s.ripWr := rfl
@[simp] theorem State.setCache_flags (i : Fin 64) (x : SetMem) : (s.setCache i x).flags = s.flags := rfl
@[simp] theorem State.setCache_cache (i : Fin 64) (x : SetMem) : (s.setCache i x).cache = s.cache.set i.val x.set := rfl
@[simp] theorem State.setCache_pt (i : Fin 64) (x : SetMem) : (s.setCache i x).pt = s.pt := rfl
@[simp] theorem State.setCache_mem (i : Fin 64) (x : SetMem) : (s.setCache i x).mem = x.mem := rfl
@[simp] theorem State.setCache_prog (i : Fin 64) (x : SetMem) : (s.setCache i x).prog = s.prog := rfl
@[simp] theorem State.setCache_run (i : Fin 64) (x : SetMem) : (s.setCache i x).run = s.run := rfl
@[simp] theorem State.setCache_resp (i : Fin 64) (x : SetMem) : (s.setCache i x).resp = s.resp := rfl
@[simp] theorem State.setCache_unwritten (i : Fin 64) (x : SetMem) : (s.setCache i x).unwritten = s.unwritten := rfl
@[simp] theorem State.setCache_inbox (i : Fin 64) (x : SetMem) : (s.setCache i x).inbox = s.inbox := rfl
@[simp] theorem State.setCache_gaps (i : Fin 64) (x : SetMem) : (s.setCache i x).gaps = s.gaps := rfl

/-! ### Notes of reads -/

@[simp] theorem State.noteRead_true : s.noteRead true = s := by simp [State.noteRead]

@[simp] theorem State.noteRead_noteRead (w w' : Bool) : (s.noteRead w).noteRead w' = s.noteRead (w && w') := by
  simp [State.noteRead, Bool.or_assoc]

theorem State.noteRead_of_unwritten {s : State} (h : s.unwritten = true) (w : Bool) : s.noteRead w = s := by
  cases s
  simp_all [State.noteRead]

@[simp] theorem State.noteRead_cell (w : Bool) (c : BitVec 4) : (s.noteRead w).cell c = s.cell c := rfl
@[simp] theorem State.noteRead_marks (w : Bool) (c : BitVec 4) : (s.noteRead w).marks c = s.marks c := rfl
@[simp] theorem State.noteRead_laneWritten (w : Bool) (c : BitVec 4) (v : View) :
    (s.noteRead w).laneWritten c v = s.laneWritten c v := rfl
@[simp] theorem State.noteRead_eff (w : Bool) (p : Word) : (s.noteRead w).eff p = s.eff p := rfl

/-! ### Cells and marks through a cell write -/

theorem State.cell_setCell (c c' : BitVec 4) (x : Word) (m : BitVec 8) :
    (s.setCell c x m).cell c' = if c' = c then x else s.cell c' := by
  simp only [State.cell, State.setCell_gpr, Vector.getElem_set]
  by_cases h : c' = c
  · simp [h]
  · have : c.toNat ≠ c'.toNat := fun h' => h (BitVec.eq_of_toNat_eq h'.symm)
    simp [h, this]

theorem State.marks_setCell (c c' : BitVec 4) (x : Word) (m : BitVec 8) :
    (s.setCell c x m).marks c' = if c' = c then m else s.marks c' := by
  simp only [State.marks, State.setCell_wr, Vector.getElem_set]
  by_cases h : c' = c
  · simp [h]
  · have : c.toNat ≠ c'.toNat := fun h' => h (BitVec.eq_of_toNat_eq h'.symm)
    simp [h, this]

end Sys2Proof.Machine
end

