-- ==== Sys2Proof/Laws/Access.lean ====
section
/-! SUPPORT. What a cache access does to the whole state: said once, for CRD and CWR and for every word access. -/

namespace Sys2Proof.Machine

theorem State.Inv.setOk {s : State} (h : s.Inv) (i : Fin 64) :
    SetOk s.params.nWays s.params.memSize i s.cache[i] := ⟨h.ways i, h.lines i, h.tags i⟩

/-- The store outside the accessed set's blocks is untouched. -/
theorem Accessed.read_outside {n ms : Nat} {i : Fin 64} {p : Word} {d : Option Byte} {x z : SetMem} {w : Nat}
    (h : Accessed n ms i p d x w z) (a : Nat)
    (ha : ∀ t : BitVec 40, ¬((wbAddr i t).toNat ≤ a ∧ a < (wbAddr i t).toNat + 64)) :
    z.mem.read a = x.mem.read a := by
  rcases h.mem with h | ⟨l, _, _, h⟩
  · rw [h]
  · rw [h, read_busWriteLine, dif_neg (ha l.tag)]

theorem Accessed.wf {n ms : Nat} {i : Fin 64} {p : Word} {d : Option Byte} {x z : SetMem} {w : Nat}
    (h : Accessed n ms i p d x w z) (hm : x.mem.wf) : z.mem.wf := by
  rcases h.mem with h | ⟨l, _, _, h⟩
  · rw [h]; exact hm
  · rw [h]; exact wf_busWriteLine hm _ _

theorem Accessed.inside {n ms : Nat} {i : Fin 64} {p : Word} {d : Option Byte} {x z : SetMem} {w : Nat}
    (h : Accessed n ms i p d x w z) (hx : SetOk n ms i x.set) (ha : ms % 64 = 0) (hm : ∀ c ∈ x.mem, c.1 < ms) :
    ∀ c ∈ z.mem, c.1 < ms := by
  rcases h.mem with h | ⟨l, hl, hd, h⟩
  · rw [h]; exact hm
  · intro c hc
    rw [h] at hc
    rcases Memory.mem_writeBytes hc with hc | hc
    · have h₁ := (hx.lines l hl).2.2 (by simp [Line.valid, hd])
      have h₂ := wbAddr_toNat i l.tag
      simp only [Vector.length_toList] at hc
      omega
    · exact hm c hc

/-- What an in-bounds access of p does; `d` is the byte a CWR writes. -/
structure AccessOk (p : Word) (d : Option Byte) (s : State) (b : Byte) (t : State) : Prop where
  frame : SameButMemory s t
  sets : ∀ j : Fin 64, j ≠ setIndexOf p → t.cache[j] = s.cache[j]
  value : b = t.eff p
  own : t.eff p = d.getD (s.eff p)
  inv : t.Inv
  coherent : s.Coherent → t.Coherent
  kept : s.Coherent → MemoryKept s t p.toNat (if d.isSome then 1 else 0)
  stays : ∀ (i : Fin 64) (v : Nat) (hv : v < s.cache[i].length) (hv' : v < t.cache[i].length),
    s.cache[i][v].valid → t.cache[i][v].valid
  times : (∀ i : Fin 64, TimesDiffer s.cache[i]) → ∀ i : Fin 64, TimesDiffer t.cache[i]

theorem getElem_set_fin {α : Type} {n : Nat} (v : Vector α n) (i j : Fin n) (x : α) :
    (v.set i.val x)[j] = if j = i then x else v[j] := by
  simp only [Fin.getElem_fin, Vector.getElem_set]
  by_cases h : j = i
  · simp [h]
  · have : i.val ≠ j.val := fun h' => h (Fin.ext h'.symm)
    simp [h, this]

theorem State.eff_of_set (s : State) {q : Word} {i : Fin 64} (h : setIndexOf q = i) :
    s.eff q = SetMem.view ⟨s.cache[i], s.mem⟩ q := by subst h; rfl

theorem access_outOfBounds {s : State} {p : Word} (d : Option Byte) (h : s.params.memSize ≤ p.toNat) :
    access p d s = .err .outOfBounds p s := by simp [access, h]

theorem access_ok {s : State} (h : s.Inv) {p : Word} (hp : p.toNat < s.params.memSize) (d : Option Byte) :
    ∃ b t, access p d s = .ok b t ∧ AccessOk p d s b t := by
  have hpar := h.params
  have hin : InSet s.params.memSize (setIndexOf p) p := ⟨hp, hpar.2.2.2, hpar.2.1, rfl⟩
  have ha := accessSet_accessed (x := ⟨s.cache[setIndexOf p], s.mem⟩) d (h.setOk (setIndexOf p)) hpar.1 hin
  generalize hr : accessSet (setIndexOf p) p d ⟨s.cache[setIndexOf p], s.mem⟩ = r at ha
  obtain ⟨w, z⟩ := r
  simp only at ha
  have hcache : ∀ j : Fin 64, (s.setCache (setIndexOf p) z).cache[j] = if j = setIndexOf p then z.set else s.cache[j] :=
    fun j => getElem_set_fin _ _ _ _
  have heff : ∀ q : Word, setIndexOf q = setIndexOf p → (s.setCache (setIndexOf p) z).eff q = z.view q := by
    intro q hq
    rw [State.eff_eq_view, hcache, if_pos hq]
    rfl
  have hother : ∀ q : Word, q.toNat < 2 ^ 52 → setIndexOf q ≠ setIndexOf p →
      z.mem.read q.toNat = s.mem.read q.toNat := fun q hq hne =>
    ha.read_outside q.toNat fun t ht => hne (slices_of_mem_block hq ht.1 ht.2).1
  have heff' : ∀ q : Word, q.toNat < 2 ^ 52 → setIndexOf q ≠ setIndexOf p → (s.setCache (setIndexOf p) z).eff q = s.eff q := by
    intro q hq hne
    rw [State.eff_eq_view, hcache, if_neg hne, State.eff_eq_view]
    simp only [SetMem.view, State.setCache_mem]
    rw [hother q hq hne]
  refine ⟨z.view p, s.setCache (setIndexOf p) z, ?_, rfl, fun j hj => by rw [hcache, if_neg hj], (heff p rfl).symm,
    by rw [heff p rfl]; exact ha.own, ⟨hpar, ?_, ?_, ?_, ha.wf h.memory, ?_, h.maps⟩, ?_, ?_, ?_, ?_⟩
  · have hlt := ha.lt
    simp only [access, Nat.not_le.2 hp, if_false, hr]
    simp only [wayOf_eq hlt, ha.value]
  · intro i
    rw [hcache]
    split
    · exact ha.ok.ways
    · exact h.ways i
  · intro i l hl
    rw [hcache] at hl
    split at hl
    · rename_i hi; subst hi; exact ha.ok.lines l hl
    · exact h.lines i l hl
  · intro i
    rw [hcache]
    split
    · exact ha.ok.tags
    · exact h.tags i
  · exact ha.inside (h.setOk (setIndexOf p)) hpar.2.1 h.inside
  · intro hco i l hl hcl
    rw [hcache] at hl
    split at hl
    · rename_i hi; subst hi
      exact ha.coherent (hco (setIndexOf p)) l hl hcl
    · rename_i hi
      rw [hco i l hl hcl]
      show _ = busReadLine z.mem _
      ext1 k hk
      simp only [busReadLine_getElem]
      refine (ha.read_outside _ fun t ht => hi ?_).symm
      have h₁ := wbAddr_toNat i l.tag
      have h₂ := wbAddr_toNat (setIndexOf p) t
      have h₃ := i.isLt
      have h₄ := (setIndexOf p).isLt
      exact (wbAddr_inj (i := i) (j := setIndexOf p) (t := l.tag) (u := t) (by omega)).1
  · intro hco q hq hne
    have hq' : q.toNat < 2 ^ 52 := Nat.lt_of_lt_of_le hq hpar.2.2.2
    by_cases hs : setIndexOf q = setIndexOf p
    · rw [heff q hs]
      rw [s.eff_of_set hs]
      constructor
      · by_cases hqp : q = p
        · subst hqp
          cases d with
          | none => exact ha.own
          | some d => exact absurd ⟨Nat.le_refl _, by simp⟩ hne
        · exact ha.other q hq' hs hqp (.inr (hco (setIndexOf p)))
      · exact (ha.store q hq').imp id And.right
    · exact ⟨heff' q hq' hs, .inl (hother q hq' hs)⟩
  · intro i v hv hv' hva
    simp only [hcache] at hv' ⊢
    by_cases hi : i = setIndexOf p
    · subst hi
      simp only [if_true] at hv' ⊢
      exact ha.stays v hv hv' hva
    · simp only [if_neg hi] at hv' ⊢
      exact hva
  · intro htd i
    rw [hcache]
    split
    · exact ha.times (htd (setIndexOf p))
    · exact htd i

end Sys2Proof.Machine
end

