-- ==== Sys2Proof/Laws/Keeps.lean ====
section
/-! SUPPORT. What a step can do to the state, said once: every engine instruction is made of accesses, register writes,
rip writes, flag writes, notes of reads and the host's turns, and every command of one update. A property those keep,
every instruction keeps. -/

namespace Sys2Proof.Machine

/-- The property holds of the state a sequence leaves, whether it ends OK or with an error status. -/
def Res.All {α : Type} (P : State → Prop) : Res α → Prop
  | .ok _ s => P s
  | .err _ _ s => P s
  | .fault _ => True
  | .refused _ => True

theorem Res.All.bind {α β : Type} {P : State → Prop} {r : Res α} {f : α → State → Res β} (h : r.All P)
    (hf : ∀ v s, P s → (f v s).All P) : (r.bind f).All P := by
  cases r with
  | ok v s => exact hf v s h
  | err e info s => exact h
  | fault t => trivial
  | refused t => trivial

/-- A property that a cache access, a cell write, a rip write, a flag write, the note of a read and the host's turn
keep. -/
structure EngineStable (P : State → Prop) : Prop where
  access : ∀ p d s, P s → (access p d s).All P
  setCell : ∀ s c x m, P s → P (s.setCell c x m)
  setRip : ∀ s x, P s → P (s.setRip x)
  setFlags : ∀ s f, P s → P (s.setFlags f)
  noteRead : ∀ s w, P s → P (s.noteRead w)
  host : ∀ s, P s → P (hostTurn s)

section

variable {P : State → Prop} (hP : EngineStable P)

include hP

/-- A command that keeps the property keeps it after the host's turn. -/
theorem issue_all {α : Type} {f : State → Res α} {s : State} (h : P s) (hf : ∀ s, P s → (f s).All P) :
    (issue f s).All P := hf _ (hP.host s h)

theorem readReg_all {s : State} (h : P s) (c : BitVec 4) (view : BitVec 3) : (readReg c view s).All P := by
  unfold readReg
  split
  · exact h
  · exact hP.noteRead _ _ h

theorem readRegIssued_all {s : State} (h : P s) (c : BitVec 4) (view : BitVec 3) :
    (issue (readReg c view) s).All P := issue_all hP h fun _ h => readReg_all hP h c view

theorem readRip_all {s : State} (h : P s) : (issue readRip s).All P := issue_all hP h fun _ h => hP.noteRead _ _ h

theorem root_all {s : State} (h : P s) : (root s).All P := by
  unfold root
  split
  · exact readRegIssued_all hP h _ _
  · exact h

theorem translateVa_all {s : State} (h : P s) (va r : Word) : (issue (translateVa va r) s).All P :=
  issue_all hP h fun s h => by
    unfold translateVa
    split <;> exact h

theorem targetOf_all {s : State} (h : P s) (t : Target) : (targetOf t s).All P := by
  cases t with
  | literal v => exact h
  | reg c view => exact readRegIssued_all hP h _ _

theorem addrRegister_all {s : State} (h : P s) (o : Option (BitVec 4)) : (addrRegister o s).All P := by
  cases o with
  | none => exact h
  | some c => exact show (issue (readReg c qView) s).All P from readRegIssued_all hP h _ _

theorem effectiveAddress_all {s : State} (h : P s) (e : AddrExpr) : (effectiveAddress e s).All P :=
  (addrRegister_all hP h _).bind fun _ _ h => (addrRegister_all hP h _).bind fun _ _ h => h

theorem resolveSource_all {s : State} (h : P s) (src : Source) : (resolveSource src s).All P := by
  cases src with
  | imm v => exact h
  | reg c view => exact (readRegIssued_all hP h _ _).bind fun _ _ h => h
  | mem e => exact (effectiveAddress_all hP h _).bind fun _ _ h => h

theorem writeReg_all {s : State} (h : P s) (c : BitVec 4) (view : BitVec 3) (x : Word) :
    (issue (writeReg c view x) s).All P :=
  issue_all hP h fun s h => by
    unfold writeReg
    split
    · exact h
    · exact hP.setCell _ _ _ _ h

theorem readByte_all {s : State} (h : P s) (p : Word) : (issue (readByte p) s).All P :=
  issue_all hP h fun s h => hP.access p none s h

theorem writeByte_all {s : State} (h : P s) (p : Word) (d : Byte) : (issue (writeByte p d) s).All P :=
  issue_all hP h fun s h => (hP.access p (some d) s h).bind fun _ _ h => h

theorem readWordFrom_all (va : Word) (n : Nat) : ∀ (k : Nat) (s : State), P s → (readWordFrom va k n s).All P := by
  induction n with
  | zero => exact fun _ _ h => h
  | succ n ih =>
    exact fun k s h => (root_all hP h).bind fun _ _ h => (translateVa_all hP h _ _).bind fun _ _ h =>
      (readByte_all hP h _).bind fun _ _ h => (ih _ _ h).bind fun _ _ h => h

theorem readWord_all {s : State} (h : P s) (va : Word) : (readWord va s).All P := by
  unfold readWord
  split
  · exact readWordFrom_all hP va 8 0 s h
  · trivial

theorem writeWordFrom_all (va v : Word) (n : Nat) : ∀ (k : Nat) (s : State), P s → (writeWordFrom va v k n s).All P := by
  induction n with
  | zero => exact fun _ _ h => h
  | succ n ih =>
    exact fun k s h => (root_all hP h).bind fun _ _ h => (translateVa_all hP h _ _).bind fun _ _ h =>
      (writeByte_all hP h _ _).bind fun _ _ h => ih _ _ h

theorem writeWord_all {s : State} (h : P s) (va v : Word) : (writeWord va v s).All P := by
  unfold writeWord
  split
  · exact writeWordFrom_all hP va v 8 0 s h
  · trivial

theorem valueOf_all {s : State} (h : P s) (r : Resolved) : (valueOf r s).All P := by
  cases r with
  | value v => exact h
  | addr va => exact readWord_all hP h va

theorem writeRip_all {s : State} (h : P s) (x : Word) : (issue (writeRip x) s).All P :=
  issue_all hP h fun s h => hP.setRip s x h

theorem clearFlags_all {s : State} (h : P s) : (issue clearFlags s).All P :=
  issue_all hP h fun s h => hP.setFlags s _ h

theorem readFlags_all {s : State} (h : P s) : (issue readFlags s).All P := issue_all hP h fun _ h => h

theorem aluAdd_all {s : State} (h : P s) (a b : Word) : (aluAdd a b s).All P := hP.setFlags s _ h

theorem aluSub_all {s : State} (h : P s) (a b : Word) : (aluSub a b s).All P := hP.setFlags s _ h

theorem aluCmp_all {s : State} (h : P s) (a b : Word) : (aluCmp a b s).All P := hP.setFlags s _ h

theorem advance_all {s : State} (h : P s) : (advance s).All P :=
  (readRip_all hP h).bind fun _ _ h => writeRip_all hP h _

theorem clearAndAdvance_all {s : State} (h : P s) : (clearAndAdvance s).All P :=
  (clearFlags_all hP h).bind fun _ _ h => advance_all hP h

theorem popInto_all {s : State} (h : P s) (c : BitVec 4) (view : BitVec 3) : (popInto c view s).All P :=
  (readRegIssued_all hP h _ _).bind fun _ _ h => (readWord_all hP h _).bind fun _ _ h =>
    (writeReg_all hP h _ _ _).bind fun _ _ h => (readRegIssued_all hP h _ _).bind fun _ _ h => writeReg_all hP h _ _ _

theorem pushWord_all {s : State} (h : P s) (v : Word) : (pushWord v s).All P :=
  (readRegIssued_all hP h _ _).bind fun _ _ h => (writeWord_all hP h _ _).bind fun _ _ h => writeReg_all hP h _ _ _

theorem aluToRegister_all {s : State} (h : P s) {op : Word → Word → State → Res Word}
    (hop : ∀ a b s, P s → (op a b s).All P) (src : Source) (c : BitVec 4) (view : BitVec 3) :
    (aluToRegister op src c view s).All P :=
  (resolveSource_all hP h _).bind fun _ _ h => (readRegIssued_all hP h _ _).bind fun _ _ h =>
    (valueOf_all hP h _).bind fun _ _ h => (issue_all hP h fun _ h => hop _ _ _ h).bind fun _ _ h =>
      (writeReg_all hP h _ _ _).bind fun _ _ h => advance_all hP h

omit hP in
/-- Ending an engine instruction keeps a property that a fault of the run keeps. -/
theorem endEngine_next {t : State} {r : Res Unit} (hf : ∀ s st info, P s → P (s.engineFault st info)) (h : r.All P)
    (ht : endEngine r = .next t) : P t := by
  cases r with
  | ok v s => cases ht; exact h
  | err e info s => cases ht; exact hf _ _ _ h
  | fault t => cases ht
  | refused t => cases ht

omit hP in
theorem engineNotImplemented_next {s t : State} (hf : ∀ s st info, P s → P (s.engineFault st info)) (h : P s)
    (ht : engineNotImplemented s = .next t) : P t := by
  cases ht
  exact hf _ _ _ h

/-- Everything an engine instruction can do to the state it can do by accesses and register, rip and flag writes, and
by faulting the run. -/
theorem engine_keeps {i : Instr} (hi : i.isCommand = false) {s t : State}
    (hf : ∀ s st info, P s → P (s.engineFault st info)) (h : P s) (ht : exec i s = .next t) : P t := by
  have no : ∀ {s : State}, P s → engineNotImplemented s = .next t → P t := engineNotImplemented_next hf
  have fin : ∀ {r : Res Unit}, r.All P → endEngine r = .next t → P t := endEngine_next hf
  cases i <;> simp only [Instr.isCommand, Bool.true_eq_false] at hi <;> simp only [exec] at ht
  case mov src dst =>
    unfold execMov at ht
    split at ht
    · exact fin ((resolveSource_all hP h _).bind fun _ _ h => (valueOf_all hP h _).bind fun _ _ h =>
        (writeReg_all hP h _ _ _).bind fun _ _ h => clearAndAdvance_all hP h) ht
    · exact fin ((resolveSource_all hP h _).bind fun _ _ h => (effectiveAddress_all hP h _).bind fun _ _ h =>
        (valueOf_all hP h _).bind fun _ _ h => (writeWord_all hP h _ _).bind fun _ _ h =>
          clearAndAdvance_all hP h) ht
    · exact no h ht
  case push src dst =>
    unfold execPush at ht
    split at ht
    · exact fin ((resolveSource_all hP h _).bind fun _ _ h => (valueOf_all hP h _).bind fun _ _ h =>
        (pushWord_all hP h _).bind fun _ _ h => clearAndAdvance_all hP h) ht
    · exact no h ht
  case pop src dst =>
    unfold execPop at ht
    split at ht
    · exact fin ((popInto_all hP h _ _).bind fun _ _ h => clearAndAdvance_all hP h) ht
    · exact no h ht
  case leave src dst =>
    unfold execLeave at ht
    split at ht
    · exact fin ((readRegIssued_all hP h _ _).bind fun _ _ h => (writeReg_all hP h _ _ _).bind fun _ _ h =>
        (popInto_all hP h _ _).bind fun _ _ h => clearAndAdvance_all hP h) ht
    · exact no h ht
  case call src dst =>
    unfold execCall at ht
    split at ht
    · exact fin ((targetOf_all hP h _).bind fun _ _ h => (readRip_all hP h).bind fun _ _ h =>
        (pushWord_all hP h _).bind fun _ _ h =>
          (writeRip_all hP h _).bind fun _ _ h => clearFlags_all hP h) ht
    · exact no h ht
  case ret src dst =>
    unfold execRet at ht
    split at ht
    · exact fin ((readRegIssued_all hP h _ _).bind fun _ _ h => (readWord_all hP h _).bind fun _ _ h =>
        (writeRip_all hP h _).bind fun _ _ h => (writeReg_all hP h _ _ _).bind fun _ _ h => clearFlags_all hP h) ht
    · exact no h ht
  case add src dst =>
    unfold execAdd at ht
    split at ht
    · exact fin (aluToRegister_all hP h (fun a b _ h => aluAdd_all hP h a b) _ _ _) ht
    · exact no h ht
  case sub src dst =>
    unfold execSub at ht
    split at ht
    · exact fin (aluToRegister_all hP h (fun a b _ h => aluSub_all hP h a b) _ _ _) ht
    · exact no h ht
  case cmp src dst =>
    unfold execCmp at ht
    split at ht
    · exact fin ((resolveSource_all hP h _).bind fun _ _ h => (effectiveAddress_all hP h _).bind fun _ _ h =>
        (valueOf_all hP h _).bind fun _ _ h => (readWord_all hP h _).bind fun _ _ h =>
          (issue_all hP h fun _ h => aluCmp_all hP h _ _).bind fun _ _ h => advance_all hP h) ht
    · exact no h ht
  case jne src dst =>
    unfold execJne at ht
    split at ht
    · refine fin ((targetOf_all hP h _).bind fun _ _ h => (readFlags_all hP h).bind fun _ _ h => ?_) ht
      split
      · exact advance_all hP h
      · exact writeRip_all hP h _
    · exact no h ht
  case jmp src dst =>
    unfold execJmp at ht
    split at ht
    · exact fin ((targetOf_all hP h _).bind fun _ _ h => (writeRip_all hP h _).bind fun _ _ h => clearFlags_all hP h) ht
    · exact no h ht
  all_goals exact no h ht

end

end Sys2Proof.Machine
end

