-- ==== Sys2Proof/Laws/PerInstr.lean ====
section
/-! SUPPORT. The family RowMatch: every instruction's encoding has the fixed bits that its row of the opcode table gives
(spec/30_encoding.md R302, R307, R310). -/

namespace Sys2Proof.Laws.RowMatch

/-- The encoding is a request whose command word matches the row: `CMD & mask = match` (R302). -/
def commandRow (e : Encoded) (mask pattern : BitVec 16) : Prop :=
  match e with
  | .request r => r.cmd &&& mask = pattern
  | .record _ => False

/-- The encoding is a record with this TAG (R310). -/
def recordRow (e : Encoded) (tag : BitVec 4) : Prop :=
  match e with
  | .request _ => False
  | .record r => r.tag = tag

/-- The encoding of an instruction matches its own row of the opcode table. -/
def Statement (i : Instr) : Prop :=
  match i with
  | .crd a => commandRow (encode (.crd a)) 0xFFFF 0x0800
  | .cwr a d => commandRow (encode (.cwr a d)) 0xFFFF 0x1000
  | .xlt a b => commandRow (encode (.xlt a b)) 0xFFFF 0x1800
  | .rrd cell view => commandRow (encode (.rrd cell view)) 0xF80F 0x2000
  | .rwr cell view a => commandRow (encode (.rwr cell view a)) 0xF80F 0x2800
  | .iprd => commandRow (encode .iprd) 0xFFFF 0x3000
  | .ipwr a => commandRow (encode (.ipwr a)) 0xFFFF 0x3800
  | .frd => commandRow (encode .frd) 0xFFFF 0x4000
  | .fclr => commandRow (encode .fclr) 0xFFFF 0x4800
  | .aluAdd a b => commandRow (encode (.aluAdd a b)) 0xFFFF 0x5000
  | .aluSub a b => commandRow (encode (.aluSub a b)) 0xFFFF 0x5800
  | .aluCmp a b => commandRow (encode (.aluCmp a b)) 0xFFFF 0x6000
  | .ptwr lvl a b present => commandRow (encode (.ptwr lvl a b present)) 0xFFF3 0x6800
  | .brd64 a => commandRow (encode (.brd64 a)) 0xFFFF 0x7000
  | .bwr64 a b => commandRow (encode (.bwr64 a b)) 0xFFFF 0x7800
  | .reservedOp0 low => commandRow (encode (.reservedOp0 low)) 0xF800 0x0000
  | .reservedOp16to31 low => commandRow (encode (.reservedOp16to31 low)) 0x8000 0x8000
  | .mov src dst => recordRow (encode (.mov src dst)) 0
  | .push src dst => recordRow (encode (.push src dst)) 1
  | .pop src dst => recordRow (encode (.pop src dst)) 2
  | .leave src dst => recordRow (encode (.leave src dst)) 3
  | .call src dst => recordRow (encode (.call src dst)) 4
  | .ret src dst => recordRow (encode (.ret src dst)) 5
  | .add src dst => recordRow (encode (.add src dst)) 6
  | .sub src dst => recordRow (encode (.sub src dst)) 7
  | .cmp src dst => recordRow (encode (.cmp src dst)) 8
  | .jne src dst => recordRow (encode (.jne src dst)) 9
  | .jmp src dst => recordRow (encode (.jmp src dst)) 10
  | .reservedTag11 src dst => recordRow (encode (.reservedTag11 src dst)) 11
  | .reservedTag12 src dst => recordRow (encode (.reservedTag12 src dst)) 12
  | .reservedTag13 src dst => recordRow (encode (.reservedTag13 src dst)) 13
  | .reservedTag14 src dst => recordRow (encode (.reservedTag14 src dst)) 14
  | .reservedTag15 src dst => recordRow (encode (.reservedTag15 src dst)) 15

theorem crd (a : Word) : Statement (.crd a) := by
  show (0x0800 : BitVec 16) &&& 0xFFFF = 0x0800
  decide

theorem cwr (a : Word) (d : Byte) : Statement (.cwr a d) := by
  show (0x1000 : BitVec 16) &&& 0xFFFF = 0x1000
  decide

theorem xlt (a : Word) (b : Word) : Statement (.xlt a b) := by
  show (0x1800 : BitVec 16) &&& 0xFFFF = 0x1800
  decide

theorem rrd (cell : BitVec 4) (view : BitVec 3) : Statement (.rrd cell view) := by
  show rrdCmd cell view &&& 0xF80F = 0x2000
  revert cell view; decide

theorem rwr (cell : BitVec 4) (view : BitVec 3) (a : Word) : Statement (.rwr cell view a) := by
  show rwrCmd cell view &&& 0xF80F = 0x2800
  revert cell view; decide

theorem iprd : Statement .iprd := by
  show (0x3000 : BitVec 16) &&& 0xFFFF = 0x3000
  decide

theorem ipwr (a : Word) : Statement (.ipwr a) := by
  show (0x3800 : BitVec 16) &&& 0xFFFF = 0x3800
  decide

theorem frd : Statement .frd := by
  show (0x4000 : BitVec 16) &&& 0xFFFF = 0x4000
  decide

theorem fclr : Statement .fclr := by
  show (0x4800 : BitVec 16) &&& 0xFFFF = 0x4800
  decide

theorem aluAdd (a : Word) (b : Word) : Statement (.aluAdd a b) := by
  show (0x5000 : BitVec 16) &&& 0xFFFF = 0x5000
  decide

theorem aluSub (a : Word) (b : Word) : Statement (.aluSub a b) := by
  show (0x5800 : BitVec 16) &&& 0xFFFF = 0x5800
  decide

theorem aluCmp (a : Word) (b : Word) : Statement (.aluCmp a b) := by
  show (0x6000 : BitVec 16) &&& 0xFFFF = 0x6000
  decide

theorem ptwr (lvl : BitVec 2) (a : Word) (b : Word) (present : Bool) : Statement (.ptwr lvl a b present) := by
  show ptwrCmd lvl &&& 0xFFF3 = 0x6800
  revert lvl; decide

theorem brd64 (a : Word) : Statement (.brd64 a) := by
  show (0x7000 : BitVec 16) &&& 0xFFFF = 0x7000
  decide

theorem bwr64 (a : Word) (b : Word) : Statement (.bwr64 a b) := by
  show (0x7800 : BitVec 16) &&& 0xFFFF = 0x7800
  decide

theorem reservedOp0 (low : BitVec 11) : Statement (.reservedOp0 low) := by
  show low.setWidth 16 &&& 0xF800 = (0x0000 : BitVec 16)
  ext k hk
  simp only [BitVec.getElem_and, BitVec.getElem_setWidth]
  by_cases h : k < 11
  · have hm : (0xF800#16)[k] = false := by
      revert k
      decide
    have hz : (0x0000#16)[k] = false := BitVec.getElem_zero hk
    exact (congrArg (low.getLsbD k && ·) hm).trans ((Bool.and_false _).trans hz.symm)
  · have hz : (0x0000#16)[k] = false := BitVec.getElem_zero hk
    rw [BitVec.getLsbD_of_ge low k (by omega), Bool.false_and]
    exact hz.symm

theorem reservedOp16to31 (low : BitVec 15) : Statement (.reservedOp16to31 low) := by
  show (0x8000 ||| low.setWidth 16) &&& 0x8000 = (0x8000 : BitVec 16)
  ext k hk
  simp only [BitVec.getElem_and, BitVec.getElem_or]
  cases (0x8000 : BitVec 16)[k] <;> simp

theorem mov (src : Operand) (dst : Operand) : Statement (.mov src dst) := rfl

theorem push (src : Operand) (dst : Operand) : Statement (.push src dst) := rfl

theorem pop (src : Operand) (dst : Operand) : Statement (.pop src dst) := rfl

theorem leave (src : Operand) (dst : Operand) : Statement (.leave src dst) := rfl

theorem call (src : Operand) (dst : Operand) : Statement (.call src dst) := rfl

theorem ret (src : Operand) (dst : Operand) : Statement (.ret src dst) := rfl

theorem add (src : Operand) (dst : Operand) : Statement (.add src dst) := rfl

theorem sub (src : Operand) (dst : Operand) : Statement (.sub src dst) := rfl

theorem cmp (src : Operand) (dst : Operand) : Statement (.cmp src dst) := rfl

theorem jne (src : Operand) (dst : Operand) : Statement (.jne src dst) := rfl

theorem jmp (src : Operand) (dst : Operand) : Statement (.jmp src dst) := rfl

theorem reservedTag11 (src : Operand) (dst : Operand) : Statement (.reservedTag11 src dst) := rfl

theorem reservedTag12 (src : Operand) (dst : Operand) : Statement (.reservedTag12 src dst) := rfl

theorem reservedTag13 (src : Operand) (dst : Operand) : Statement (.reservedTag13 src dst) := rfl

theorem reservedTag14 (src : Operand) (dst : Operand) : Statement (.reservedTag14 src dst) := rfl

theorem reservedTag15 (src : Operand) (dst : Operand) : Statement (.reservedTag15 src dst) := rfl

end Sys2Proof.Laws.RowMatch
end

