-- ==== Sys2Proof/Laws/RegFile.lean ====
section
/-! SUPPORT. The register file: what RRD and RWR come to (spec/42_regfile.md R502, R503), and that a change of memory
alone leaves every operand as it was. -/

namespace Sys2Proof.Machine

/-- Everything RRD can do (R502, R505). -/
theorem readReg_cases (c : BitVec 4) (view : BitVec 3) (s : State) :
    (∃ x, s.regValue c view = some x ∧ readReg c view s = .ok x (s.noteRead (s.viewWritten c view))) ∨
    (viewOfSel c view = none ∧ s.regValue c view = none ∧
      readReg c view s = .err .unknownRegister (zext64 (rrdCmd c view)) s) := by
  unfold readReg State.regValue State.viewWritten
  cases viewOfSel c view with
  | none => exact .inr ⟨rfl, rfl, rfl⟩
  | some v => exact .inl ⟨_, rfl, rfl⟩

theorem readReg_of_value {s : State} {c : BitVec 4} {view : BitVec 3} {x : Word} (h : s.regValue c view = some x) :
    readReg c view s = .ok x (s.noteRead (s.viewWritten c view)) := by
  rcases readReg_cases c view s with ⟨y, h₁, h₂⟩ | ⟨_, h₁, _⟩
  · rw [h] at h₁; cases h₁; exact h₂
  · rw [h] at h₁; cases h₁

theorem readReg_of_none {c : BitVec 4} {view : BitVec 3} (h : viewOfSel c view = none) (s : State) :
    readReg c view s = .err .unknownRegister (zext64 (rrdCmd c view)) s := by simp [readReg, h]

/-- Everything RWR can do (R503, R506). -/
theorem writeReg_cases (c : BitVec 4) (view : BitVec 3) (x : Word) (s : State) :
    (∃ v, viewOfSel c view = some v ∧ writeReg c view x s = .ok () (s.writeView c v x)) ∨
    (viewOfSel c view = none ∧ writeReg c view x s = .err .unknownRegister (zext64 (rwrCmd c view)) s) := by
  unfold writeReg
  cases hv : viewOfSel c view with
  | none => exact .inr ⟨rfl, rfl⟩
  | some v => exact .inl ⟨v, rfl, rfl⟩

theorem writeReg_of_view {c : BitVec 4} {view : BitVec 3} {v : View} (h : viewOfSel c view = some v) (x : Word)
    (s : State) : writeReg c view x s = .ok () (s.writeView c v x) := by simp [writeReg, h, State.writeView]

@[simp] theorem viewOfSel_q (c : BitVec 4) : viewOfSel c qView = some .q := rfl

theorem getLsbD_viewMask (v : View) (j : Nat) (hj : j < 64) :
    (viewMask v).getLsbD j = decide (viewLo v ≤ j ∧ j < viewLo v + viewWidth v) := by
  have : ∀ j < 64, (viewMask v).getLsbD j = decide (viewLo v ≤ j ∧ j < viewLo v + viewWidth v) := by
    cases v <;> decide
  exact this j hj

/-- The bits a view write sets and keeps (R501, R503, R504). -/
theorem getLsbD_viewWrite (v : View) (x value : Word) (j : Nat) (hj : j < 64) :
    (viewWrite v x value).getLsbD j =
      if viewLo v ≤ j ∧ j < viewLo v + viewWidth v then value.getLsbD (j - viewLo v) else x.getLsbD j := by
  unfold viewWrite
  rw [BitVec.getLsbD_or, BitVec.getLsbD_and, BitVec.getLsbD_and, BitVec.getLsbD_not, getLsbD_viewMask v j hj,
    BitVec.getLsbD_shiftLeft]
  by_cases h : viewLo v ≤ j ∧ j < viewLo v + viewWidth v
  · have h' : ¬j < viewLo v := by omega
    simp [h, h', hj]
  · simp only [h, decide_false, Bool.not_false, Bool.and_true, Bool.and_false, Bool.or_false, if_false, hj,
      decide_true]

/-- A view reads back what was written through it, cut to its width (R502, R503). -/
theorem viewRead_viewWrite (v : View) (x value : Word) :
    viewRead v (viewWrite v x value) = zext64 (value.setWidth (viewWidth v)) := by
  apply BitVec.eq_of_getLsbD_eq
  intro j hj
  simp only [viewRead, zext64, BitVec.getLsbD_setWidth, BitVec.getLsbD_extractLsb']
  by_cases h : j < viewWidth v
  · have h64 : viewLo v + j < 64 := by cases v <;> simp only [viewLo, viewWidth] at h ⊢ <;> omega
    rw [getLsbD_viewWrite _ _ _ _ h64, if_pos (by omega), Nat.add_sub_cancel_left]
  · simp [h]

theorem viewRead_q (x : Word) : viewRead .q x = x := by
  simp [viewRead, viewLo, viewWidth, zext64]

theorem viewWrite_q (x value : Word) : viewWrite .q x value = value := by
  apply BitVec.eq_of_getLsbD_eq
  intro j hj
  rw [getLsbD_viewWrite _ _ _ _ hj, if_pos (by simp only [viewLo, viewWidth]; omega)]
  simp [viewLo]

theorem laneWritten_writeView (s : State) (c : BitVec 4) (v : View) (x : Word) :
    (s.writeView c v x).laneWritten c v = true := by
  simp only [State.laneWritten, State.writeView, State.marks_setCell, if_true, beq_iff_eq]
  apply BitVec.eq_of_getLsbD_eq
  intro j hj
  simp only [BitVec.getLsbD_and, BitVec.getLsbD_or]
  cases (s.marks c).getLsbD j <;> cases (viewLanes v).getLsbD j <;> rfl

theorem laneWritten_writeView_q (s : State) (c : BitVec 4) (v : View) (x : Word) :
    (s.writeView c .q x).laneWritten c v = true := by
  simp only [State.laneWritten, State.writeView, State.marks_setCell, if_true, beq_iff_eq]
  apply BitVec.eq_of_getLsbD_eq
  intro j hj
  simp only [BitVec.getLsbD_and, BitVec.getLsbD_or]
  have : (viewLanes .q).getLsbD j = true := by
    have : ∀ j < 8, (viewLanes .q).getLsbD j = true := by decide
    exact this j hj
  simp [this]

theorem cell_writeView (s : State) (c c' : BitVec 4) (v : View) (x : Word) :
    (s.writeView c v x).cell c' = if c' = c then viewWrite v (s.cell c) x else s.cell c' := State.cell_setCell _ _ _ _ _

theorem marks_writeView (s : State) (c c' : BitVec 4) (v : View) (x : Word) :
    (s.writeView c v x).marks c' = if c' = c then s.marks c ||| viewLanes v else s.marks c' :=
  State.marks_setCell _ _ _ _ _

/-- RRD of a Q view (R502). -/
theorem readReg_q (c : BitVec 4) (s : State) :
    readReg c qView s = .ok (s.cell c) (s.noteRead (s.laneWritten c .q)) := by
  simp [readReg, viewRead_q]

theorem writeReg_of_none {c : BitVec 4} {view : BitVec 3} (h : viewOfSel c view = none) (x : Word) (s : State) :
    writeReg c view x s = .err .unknownRegister (zext64 (rwrCmd c view)) s := by simp [writeReg, h]

theorem cell_writeView_q (s : State) (c : BitVec 4) (x : Word) : (s.writeView c .q x).cell c = x := by
  rw [cell_writeView, if_pos rfl, viewWrite_q]

/-- Writing a view never clears a mark. -/
theorem laneWritten_writeView_of (s : State) (c c' : BitVec 4) (v v' : View) (x : Word)
    (h : s.laneWritten c' v' = true) : (s.writeView c v x).laneWritten c' v' = true := by
  simp only [State.laneWritten, marks_writeView, beq_iff_eq] at h ⊢
  split
  · rename_i hc
    subst hc
    apply BitVec.eq_of_getLsbD_eq
    intro j hj
    have := congrArg (fun b => b.getLsbD j) h
    simp only [BitVec.getLsbD_and, BitVec.getLsbD_or] at this ⊢
    revert this
    cases (s.marks c').getLsbD j <;> cases (viewLanes v).getLsbD j <;> cases (viewLanes v').getLsbD j <;> simp
  · exact h

/-! ### What a note of a read leaves as it was -/

section

variable (s : State) (w : Bool)

@[simp] theorem State.noteRead_regValue (c : BitVec 4) (view : BitVec 3) :
    (s.noteRead w).regValue c view = s.regValue c view := rfl
@[simp] theorem State.noteRead_viewWritten (c : BitVec 4) (view : BitVec 3) :
    (s.noteRead w).viewWritten c view = s.viewWritten c view := rfl
@[simp] theorem State.noteRead_addrValue (o : Option (BitVec 4)) : (s.noteRead w).addrValue o = s.addrValue o := by
  cases o <;> rfl
@[simp] theorem State.noteRead_addrWritten (o : Option (BitVec 4)) :
    (s.noteRead w).addrWritten o = s.addrWritten o := by cases o <;> rfl
@[simp] theorem State.noteRead_ea (e : AddrExpr) : (s.noteRead w).ea e = s.ea e := by simp [State.ea]
@[simp] theorem State.noteRead_eaWritten (e : AddrExpr) : (s.noteRead w).eaWritten e = s.eaWritten e := by
  simp [State.eaWritten]
@[simp] theorem State.noteRead_rootKey : (s.noteRead w).rootKey = s.rootKey := rfl
@[simp] theorem State.noteRead_rootWritten : (s.noteRead w).rootWritten = s.rootWritten := rfl
@[simp] theorem State.noteRead_wordAddr (va : Word) : (s.noteRead w).wordAddr va = s.wordAddr va := rfl
@[simp] theorem State.noteRead_effWord (pa : Word) : (s.noteRead w).effWord pa = s.effWord pa := rfl

theorem State.Inv.noteRead {s : State} (h : s.Inv) (w : Bool) : (s.noteRead w).Inv :=
  ⟨h.params, h.ways, h.lines, h.tags, h.memory, h.inside, h.maps⟩

theorem State.Coherent.noteRead {s : State} (h : s.Coherent) (w : Bool) : (s.noteRead w).Coherent := h

end

/-! ### A change of memory alone -/

variable {s t u : State}

theorem SameButMemory.refl (s : State) : SameButMemory s s := rfl

theorem SameButMemory.trans (h : SameButMemory s t) (h' : SameButMemory t u) : SameButMemory s u := by
  unfold SameButMemory at *; rw [h', h]

theorem SameButMemory.params (h : SameButMemory s t) : t.params = s.params := by rw [h]
theorem SameButMemory.gpr (h : SameButMemory s t) : t.gpr = s.gpr := by rw [h]
theorem SameButMemory.wr (h : SameButMemory s t) : t.wr = s.wr := by rw [h]
theorem SameButMemory.rip (h : SameButMemory s t) : t.rip = s.rip := by rw [h]
theorem SameButMemory.ripWr (h : SameButMemory s t) : t.ripWr = s.ripWr := by rw [h]
theorem SameButMemory.flags (h : SameButMemory s t) : t.flags = s.flags := by rw [h]
theorem SameButMemory.pt (h : SameButMemory s t) : t.pt = s.pt := by rw [h]

theorem SameButMemory.cell (h : SameButMemory s t) (c : BitVec 4) : t.cell c = s.cell c := by
  unfold State.cell; simp only [h.gpr]

theorem SameButMemory.laneWritten (h : SameButMemory s t) (c : BitVec 4) (v : View) :
    t.laneWritten c v = s.laneWritten c v := by unfold State.laneWritten State.marks; simp only [h.wr]

theorem SameButMemory.gaps (h : SameButMemory s t) : t.gaps = s.gaps := by rw [h]
theorem SameButMemory.unwritten (h : SameButMemory s t) : t.unwritten = s.unwritten := by rw [h]

theorem SameButMemory.noteRead (h : SameButMemory s t) (w : Bool) : SameButMemory (s.noteRead w) (t.noteRead w) := by
  unfold SameButMemory at *
  rw [h]
  rfl

theorem SameButMemory.regValue (h : SameButMemory s t) (c : BitVec 4) (view : BitVec 3) :
    t.regValue c view = s.regValue c view := by unfold State.regValue; simp only [h.cell]

theorem SameButMemory.viewWritten (h : SameButMemory s t) (c : BitVec 4) (view : BitVec 3) :
    t.viewWritten c view = s.viewWritten c view := by unfold State.viewWritten; simp only [h.laneWritten]

theorem SameButMemory.ea (h : SameButMemory s t) (e : AddrExpr) : t.ea e = s.ea e := by
  have ha : ∀ o, t.addrValue o = s.addrValue o := fun o => by cases o <;> simp [State.addrValue, h.cell]
  unfold State.ea; simp only [ha]

theorem SameButMemory.rootKey (h : SameButMemory s t) : t.rootKey = s.rootKey := by
  unfold State.rootKey; simp only [h.params, h.cell]

theorem SameButMemory.rootWritten (h : SameButMemory s t) : t.rootWritten = s.rootWritten := by
  unfold State.rootWritten; simp only [h.params, h.laneWritten]

theorem SameButMemory.wordAddr (h : SameButMemory s t) (va : Word) : t.wordAddr va = s.wordAddr va := by
  unfold State.wordAddr; simp only [h.rootKey, h.pt, h.params]

theorem SameButMemory.targetValue (h : SameButMemory s t) (x : Target) : t.targetValue x = s.targetValue x := by
  cases x <;> simp [State.targetValue, h.regValue]

end Sys2Proof.Machine
end

