-- ==== Sys2Proof/Laws/Steps.lean ====
section
/-! SUPPORT. Everything a command and a step can do to the state, said once. -/

namespace Sys2Proof.Machine

/-- Everything an access can do to the state (R401, R402). -/
theorem access_cases (p : Word) (d : Option Byte) (s : State) :
    (s.params.memSize ≤ p.toNat ∧ access p d s = .err .outOfBounds p s) ∨
    (p.toNat < s.params.memSize ∧ ∃ b c m, access p d s = .ok b { s with cache := c, mem := m }) := by
  unfold access
  split
  · rename_i h; exact .inl ⟨h, rfl⟩
  · rename_i h; exact .inr ⟨Nat.not_le.1 h, _, _, _, rfl⟩

/-- Everything a command can do when it answers: an error, which changes nothing (R702), or an OK with a change of the
one piece of state that is its own (R100). -/
inductive CommandDid (i : Instr) (s t : State) : Prop where
  | error (e : Status) (info : Word) (he : e ≠ .ok) (h : t = s.respond e info)
  | read (v : Word) (h : t = s.respond .ok v)
  | noted (w : Bool) (v : Word) (hi : (∃ c view, i = .rrd c view) ∨ i = .iprd) (h : t = (s.noteRead w).respond .ok v)
  | access (p : Word) (d : Option Byte) (b : Byte) (u : State) (v : Word) (hi : i = .crd p ∨ ∃ d, i = .cwr p d)
      (ha : access p d s = .ok b u) (h : t = u.respond .ok v)
  | cell (c : BitVec 4) (view : BitVec 3) (a x : Word) (m : BitVec 8) (v : Word) (hi : i = .rwr c view a)
      (h : t = (s.setCell c x m).respond .ok v)
  | rip (a : Word) (hi : i = .ipwr a) (h : t = (s.setRip a).respond .ok 0)
  | flags (f : Flags) (v : Word)
      (hi : (∃ a b, i = .aluAdd a b) ∨ (∃ a b, i = .aluSub a b) ∨ (∃ a b, i = .aluCmp a b) ∨ i = .fclr)
      (h : t = (s.setFlags f).respond .ok v)
  | pte (lvl : BitVec 2) (a b : Word) (present : Bool) (hi : i = .ptwr lvl a b present)
      (h : t = (s.setPte (levelOf lvl) a { present, base := b }).respond .ok 0)
  | word (a b : Word) (hi : i = .bwr64 a b) (ha : a.toNat % 8 = 0) (hb : a.toNat + 8 ≤ s.params.memSize)
      (h : t = (s.setMem (s.mem.writeWord a.toNat b)).respond .ok 0)

/-- Every command answers, and does one of these (R300, R100). -/
theorem command_answers {i : Instr} (hi : i.isCommand = true) (s : State) :
    ∃ t, exec i s = .next t ∧ CommandDid i s t := by
  cases i <;> simp only [Instr.isCommand, Bool.false_eq_true] at hi <;> simp only [exec]
  case crd a =>
    rcases access_cases a none s with ⟨_, h'⟩ | ⟨_, b, c, m, h'⟩ <;>
      simp only [execCrd, readByte, h', Res.bind, endCommand] <;> refine ⟨_, rfl, ?_⟩
    · exact .error .outOfBounds _ (by simp) rfl
    · exact .access a none b _ _ (.inl rfl) h' rfl
  case cwr a d =>
    rcases access_cases a (some d) s with ⟨_, h'⟩ | ⟨_, b, c, m, h'⟩ <;>
      simp only [execCwr, writeByte, h', Res.bind, endCommand] <;> refine ⟨_, rfl, ?_⟩
    · exact .error .outOfBounds _ (by simp) rfl
    · exact .access a (some d) b _ _ (.inr ⟨d, rfl⟩) h' rfl
  case xlt a b =>
    simp only [execXlt, translateVa]
    split <;> refine ⟨_, rfl, ?_⟩
    · exact .read _ rfl
    · exact .error .pageFault _ (by simp) rfl
  case rrd c view =>
    simp only [execRrd, readReg]
    split <;> refine ⟨_, rfl, ?_⟩
    · exact .error .unknownRegister _ (by simp) rfl
    · exact .noted _ _ (.inl ⟨c, view, rfl⟩) rfl
  case rwr c view a =>
    simp only [execRwr, writeReg]
    split <;> refine ⟨_, rfl, ?_⟩
    · exact .error .unknownRegister _ (by simp) rfl
    · exact .cell c view a _ _ _ rfl rfl
  case iprd => exact ⟨_, rfl, .noted _ _ (.inr rfl) rfl⟩
  case ipwr a => exact ⟨_, rfl, .rip a rfl rfl⟩
  case frd => exact ⟨_, rfl, .read _ rfl⟩
  case fclr => exact ⟨_, rfl, .flags _ _ (by simp) rfl⟩
  case aluAdd => exact ⟨_, rfl, .flags _ _ (by simp) rfl⟩
  case aluSub => exact ⟨_, rfl, .flags _ _ (by simp) rfl⟩
  case aluCmp => exact ⟨_, rfl, .flags _ _ (by simp) rfl⟩
  case ptwr => exact ⟨_, rfl, .pte _ _ _ _ rfl rfl⟩
  case brd64 a =>
    simp only [execBrd64, wordPortCheck]
    split
    · exact ⟨_, rfl, .error .misaligned _ (by simp) rfl⟩
    · split <;> refine ⟨_, rfl, ?_⟩
      · exact .error .outOfBounds _ (by simp) rfl
      · exact .read _ rfl
  case bwr64 a b =>
    simp only [execBwr64, wordPortCheck]
    split
    · exact ⟨_, rfl, .error .misaligned _ (by simp) rfl⟩
    · split <;> refine ⟨_, rfl, ?_⟩
      · exact .error .outOfBounds _ (by simp) rfl
      · exact .word a b rfl (by omega) (by omega) rfl
  case reservedOp0 => exact ⟨_, rfl, .error .notImplemented _ (by simp) rfl⟩
  case reservedOp16to31 => exact ⟨_, rfl, .error .notImplemented _ (by simp) rfl⟩

/-- Every command that answers does one of these. -/
theorem command_did {i : Instr} (hi : i.isCommand = true) {s t : State} (h : exec i s = .next t) :
    CommandDid i s t := by
  obtain ⟨u, hu, hd⟩ := command_answers hi s
  rw [hu] at h
  cases h
  exact hd

/-- A request decodes to a command. -/
theorem isCommand_of_decodeRequest {r : Request} {i : Instr} (h : decodeRequest r = .ok i) : i.isCommand = true := by
  unfold decodeRequest matchRow at h
  (repeat' split at h) <;> cases h <;> rfl

/-- A record decodes to an engine instruction. -/
theorem isCommand_of_decodeRecord {r : Record} {i : Instr} (h : decodeRecord r = .ok i) : i.isCommand = false := by
  unfold decodeRecord at h
  (repeat' split at h) <;> cases h
  unfold instrOfTag
  split <;> rfl

/-! ### The host's requests inside an engine instruction (R804; log 7) -/

/-- The port runs a command as exec does. -/
theorem runCommand_eq {i : Instr} (hi : i.isCommand = true) (s : State) : runCommand i s = exec i s := by
  cases i <;> first | rfl | exact Bool.noConfusion hi

/-- Everything a request can do: its command's effect, or NotImplemented. -/
theorem afterRequest_did (r : Request) (s : State) :
    (∃ i, decodeRequest r = .ok i ∧ i.isCommand = true ∧ exec i s = .next (afterRequest r s) ∧
      CommandDid i s (afterRequest r s)) ∨
    ((∃ e, decodeRequest r = .error e) ∧ afterRequest r s = s.respond .notImplemented (zext64 r.cmd)) := by
  unfold afterRequest serveRequest
  cases hd : decodeRequest r with
  | error e => exact .inr ⟨⟨e, rfl⟩, rfl⟩
  | ok i =>
    obtain ⟨t, ht, h⟩ := command_answers (isCommand_of_decodeRequest hd) s
    refine .inl ⟨i, rfl, isCommand_of_decodeRequest hd, ?_⟩
    simp only [runCommand_eq (isCommand_of_decodeRequest hd), ht]
    exact ⟨trivial, h⟩

/-- No request changes what is still to come. -/
theorem afterRequest_host (r : Request) (s : State) :
    (afterRequest r s).inbox = s.inbox ∧ (afterRequest r s).gaps = s.gaps := by
  rcases afterRequest_did r s with ⟨i, _, _, _, h⟩ | ⟨_, h⟩
  · cases h with
    | access p d b u v _ ha h =>
      rw [h]
      rcases access_cases p d s with ⟨_, h'⟩ | ⟨_, b', c, m, h'⟩ <;> rw [h'] at ha <;> cases ha
      exact ⟨rfl, rfl⟩
    | _ => rename_i h; rw [h]; exact ⟨rfl, rfl⟩
  · rw [h]; exact ⟨rfl, rfl⟩

section

variable {P : State → Prop} {Q : Request → Prop}

/-- Serving requests keeps what every one of them keeps; those still to come were to come before. -/
theorem serveRequests_keeps (hin : ∀ s inbox, P s → P { s with inbox })
    (hreq : ∀ r s, Q r → P s → P (afterRequest r s)) (n : Nat) : ∀ s : State, P s →
    (∀ r ∈ (leadingRequests s.inbox).take n, Q r) →
    P (serveRequests n s) ∧ (serveRequests n s).gaps = s.gaps ∧
      ∀ m, ∀ r ∈ (leadingRequests (serveRequests n s).inbox).take m, r ∈ (leadingRequests s.inbox).take (n + m) := by
  induction n with
  | zero => exact fun s h _ => ⟨h, rfl, fun m r hr => by rw [Nat.zero_add]; exact hr⟩
  | succ n ih =>
    intro s h hq
    rw [serveRequests]
    split
    · rename_i r rest hs
      have hl : leadingRequests s.inbox = r :: leadingRequests rest := by rw [hs]; rfl
      obtain ⟨hi, hg⟩ := afterRequest_host r { s with inbox := rest }
      rw [hl] at hq ⊢
      obtain ⟨h₁, h₂, h₃⟩ := ih _ (hreq r _ (hq r (by simp)) (hin s rest h)) (by
        rw [hi]; exact fun r' hr' => hq r' (by simp [hr']))
      refine ⟨h₁, h₂.trans hg, fun m r' hr' => ?_⟩
      have := h₃ m r' hr'
      rw [hi] at this
      rw [Nat.add_right_comm]
      exact List.mem_cons_of_mem _ this
    all_goals
      rename_i hs
      exact ⟨h, rfl, fun m r hr => by rw [hs] at hr; simp [leadingRequests] at hr⟩

/-- The host's turn keeps what each request that may land keeps; fewer may land after it. -/
theorem hostTurn_keeps (hin : ∀ s inbox, P s → P { s with inbox }) (hgaps : ∀ s gaps, P s → P { s with gaps })
    (hreq : ∀ r s, Q r → P s → P (afterRequest r s)) {s : State} (h : P s) (hq : ∀ r ∈ s.mayLand, Q r) :
    P (hostTurn s) ∧ ∀ r ∈ (hostTurn s).mayLand, Q r := by
  unfold hostTurn
  cases hg : s.gaps with
  | nil => exact ⟨h, hq⟩
  | cons n rest =>
    simp only [State.mayLand, hg, List.sum_cons] at hq
    obtain ⟨h₁, h₂, h₃⟩ := serveRequests_keeps hin hreq n { s with gaps := rest } (hgaps s rest h) fun r hr =>
      hq r (by
        rw [List.take_add]
        exact List.mem_append_left _ hr)
    refine ⟨h₁, fun r hr => hq r ?_⟩
    rw [State.mayLand, h₂] at hr
    exact h₃ _ r hr

end

/-- Everything a step can do when it gives a next state: a request decoded to a command, one answered NotImplemented, a
launch, an engine instruction, or an engine step that only ends, faults or leaves the run (R300, R650). -/
inductive StepDid (s t : State) : Prop where
  | command (r : Request) (rest : List Input) (i : Instr) (hs : s.inbox = .command r :: rest)
      (hd : decodeRequest r = .ok i) (h : exec i { s with inbox := rest } = .next t)
  | refusedWord (r : Request) (rest : List Input) (hs : s.inbox = .command r :: rest)
      (h : t = { s with inbox := rest }.respond .notImplemented (zext64 r.cmd))
  | launch (prog : Program) (exitRip : Word) (rest : List Input) (hs : s.inbox = .launch prog exitRip :: rest)
      (h : t = { s with inbox := rest, prog, run := .running exitRip })
  | engine (s' : State) (i : Instr) (hs : s.engineTurn = some s') (hi : i.isCommand = false)
      (h : exec i (s'.noteRead s'.ripWr) = .next t)
  | run (s' : State) (w : Bool) (run : Run) (hs : s.engineTurn = some s') (h : t = { s'.noteRead w with run })

theorem step_did {s t : State} (h : step s = .next t) : StepDid s t := by
  have engine : ∀ s', s.engineTurn = some s' →
      (match fetchEngine s' with
        | .instr i s => exec i s
        | .done o => o) = .next t → StepDid s t := by
    intro s' hs h
    unfold fetchEngine at h
    have still : ∀ r, s'.run = r → t = s' → StepDid s t := fun r hr ht =>
      .run s' true r hs (by rw [State.noteRead_true, ht, ← hr])
    cases hr : s'.run with
    | running exitRip =>
      rw [hr] at h
      by_cases he : (s'.noteRead s'.ripWr).rip = exitRip
      · simp only [if_pos he] at h
        cases h
        exact .run s' s'.ripWr .ended hs rfl
      · simp only [if_neg he] at h
        cases hp : lookupKey (s'.noteRead s'.ripWr).prog (s'.noteRead s'.ripWr).rip.toNat with
        | none => rw [hp] at h; cases h
        | some r =>
          rw [hp] at h
          simp only [fetchRecord] at h
          cases hd : decodeRecord r with
          | ok i => rw [hd] at h; exact .engine s' i hs (isCommand_of_decodeRecord hd) h
          | error e => rw [hd] at h; cases h; exact .run s' s'.ripWr _ hs rfl
    | idle => rw [hr] at h; cases h; exact still _ hr rfl
    | ended => rw [hr] at h; cases h; exact still _ hr rfl
    | faulted a b => rw [hr] at h; cases h; exact still _ hr rfl
  unfold step fetch at h
  cases hs : s.inbox with
  | nil => rw [hs] at h; exact engine { s with inbox := [], gaps := [] } (by simp [State.engineTurn, hs]) h
  | cons x rest =>
    rw [hs] at h
    cases x with
    | command r =>
      simp only [fetchRequest] at h
      cases hd : decodeRequest r with
      | ok i => rw [hd] at h; exact .command r rest i hs hd h
      | error e => rw [hd] at h; cases h; exact .refusedWord r rest hs rfl
    | launch prog exitRip => cases h; exact .launch prog exitRip rest hs rfl
    | engineTurn gaps => exact engine { s with inbox := rest, gaps } (by simp [State.engineTurn, hs]) h

end Sys2Proof.Machine
end

