-- ==== Sys2Proof/Laws/Walk.lean ====
section
/-! SUPPORT. The walker: the composed address as a number (spec/41_translation.md R454), that the walk reads the page
offset alone (R456), and what it comes to (R453). -/

namespace Sys2Proof.Machine

theorem getLsbD_pnMask (j : Nat) (hj : j < 64) : pnMask.getLsbD j = decide (12 ≤ j ∧ j < 52) := by
  have : ∀ j < 64, pnMask.getLsbD j = decide (12 ≤ j ∧ j < 52) := by decide
  exact this j hj

theorem getLsbD_offsetMask (j : Nat) (hj : j < 64) : (0xFFF : Word).getLsbD j = decide (j < 12) := by
  have : ∀ j < 64, (0xFFF : Word).getLsbD j = decide (j < 12) := by decide
  exact this j hj

/-- Bits 51:12 are the low 40 bits of the page number, bits 11:0 the offset of va, the rest 0 (R454). -/
theorem compose_eq (ppn va : Word) :
    compose ppn va = (zext64 (ppn.setWidth 40) <<< 12) ||| zext64 (va.setWidth 12) := by
  apply BitVec.eq_of_getLsbD_eq
  intro j hj
  simp only [compose, withPageOffset, withPageNumber, pageOffset, zext64, BitVec.getLsbD_or, BitVec.getLsbD_and,
    BitVec.getLsbD_not, getLsbD_pnMask j hj, getLsbD_offsetMask j hj, BitVec.getLsbD_shiftLeft,
    BitVec.getLsbD_setWidth]
  by_cases h₁ : j < 12
  · have h₂ : ¬12 ≤ j := by omega
    simp [h₁, h₂, hj]
  · have h₂ : 12 ≤ j := by omega
    by_cases h₃ : j < 52
    · have h₄ : j - 12 < 40 := by omega
      simp [h₁, h₂, h₃, h₄, hj]; omega
    · have h₄ : ¬j - 12 < 40 := by omega
      simp [h₁, h₃, h₄]

theorem compose_toNat (ppn va : Word) : (compose ppn va).toNat = ppn.toNat % 2 ^ 40 * 4096 + va.toNat % 4096 := by
  rw [compose_eq, BitVec.toNat_or, BitVec.toNat_shiftLeft]
  simp only [zext64, BitVec.toNat_setWidth]
  have h₁ : ppn.toNat % 2 ^ 40 % 2 ^ 64 = ppn.toNat % 2 ^ 40 := by omega
  have h₂ : va.toNat % 2 ^ 12 % 2 ^ 64 = va.toNat % 2 ^ 12 := by omega
  have h₃ : (ppn.toNat % 2 ^ 40) <<< 12 % 2 ^ 64 = (ppn.toNat % 2 ^ 40) <<< 12 := by
    rw [Nat.shiftLeft_eq]; omega
  rw [h₁, h₂, h₃, ← Nat.shiftLeft_add_eq_or_of_lt (by omega), Nat.shiftLeft_eq]
  norm_num

/-- XLT's address is below 2^52 (R454). -/
theorem compose_lt (ppn va : Word) : (compose ppn va).toNat < 2 ^ 52 := by rw [compose_toNat]; omega

theorem walk_eq (pt : Vector PageMap 4) (va r : Word) :
    walk pt va r = (walkLevels pt [0, 1, 2, 3] r).map fun ppn => compose ppn va := by
  unfold walk; split <;> simp_all [Except.map]

/-- Inside one page the next byte of va translates to the next physical byte (R456). -/
theorem walk_add {pt : Vector PageMap 4} {va r pa : Word} (h : walk pt va r = .ok pa) (k : Nat)
    (hk : va.toNat % 4096 + k < 4096) : walk pt (va + BitVec.ofNat 64 k) r = .ok (pa + BitVec.ofNat 64 k) := by
  unfold walk at h ⊢
  split at h
  · rename_i ppn hp
    cases h
    congr 1
    apply BitVec.eq_of_toNat_eq
    rw [BitVec.toNat_add, compose_toNat, compose_toNat, BitVec.toNat_add, BitVec.toNat_ofNat]
    have := va.isLt
    omega
  · cases h

end Sys2Proof.Machine
end

