-- ==== Sys2Proof/Laws/Words.lean ====
section
/-! SUPPORT. The engine's word accesses, said once: when ReadWord and WriteWord complete, what they give, and what they
leave unchanged (spec/46_engine.md R655). -/

namespace Sys2Proof.Machine

/-- One or more cache accesses that write n bytes from `lo` up: what holds after them. -/
structure Accesses (s t : State) (lo n : Nat) : Prop where
  frame : SameButMemory s t
  inv : t.Inv
  coherent : t.Coherent
  kept : MemoryKept s t lo n

theorem Accesses.refl {s : State} (h : s.Inv) (hc : s.Coherent) (lo : Nat) : Accesses s s lo 0 :=
  ⟨rfl, h, hc, fun _ _ _ => ⟨rfl, .inl rfl⟩⟩

theorem Accesses.trans {s t u : State} {lo n lo' n' lo'' n'' : Nat} (h : Accesses s t lo n) (h' : Accesses t u lo' n')
    (hin : ∀ q, ¬(lo'' ≤ q ∧ q < lo'' + n'') → ¬(lo ≤ q ∧ q < lo + n) ∧ ¬(lo' ≤ q ∧ q < lo' + n')) :
    Accesses s u lo'' n'' := by
  refine ⟨h.frame.trans h'.frame, h'.inv, h'.coherent, fun q hq hne => ?_⟩
  obtain ⟨h₁, h₂⟩ := hin q.toNat hne
  have ha := h.kept q hq h₁
  have hb := h'.kept q (by rw [h.frame.params]; exact hq) h₂
  refine ⟨hb.1.trans ha.1, ?_⟩
  rcases hb.2 with hb | hb
  · rw [hb]; exact ha.2
  · exact .inr (hb.trans ha.1)

/-- Reads leave nothing changed that the client can see. -/
theorem Accesses.trans_quiet {s t u : State} {lo lo' lo'' : Nat} (h : Accesses s t lo 0) (h' : Accesses t u lo' 0) :
    Accesses s u lo'' 0 := h.trans h' fun q _ => ⟨by omega, by omega⟩

/-- Reads, then more notes and accesses. -/
theorem Accesses.trans_noted {s t u : State} {w w' : Bool} {lo n : Nat} (h : Accesses (s.noteRead w) t 0 0)
    (h' : Accesses (t.noteRead w') u lo n) : Accesses (s.noteRead (w && w')) u lo n := by
  have hf := (h.frame.noteRead w').trans h'.frame
  rw [State.noteRead_noteRead] at hf
  refine ⟨hf, h'.inv, h'.coherent, fun q hq hne => ?_⟩
  have ha := h.kept q hq (by omega)
  have hb := h'.kept q (by show q.toNat < t.params.memSize; rw [h.frame.params]; exact hq) hne
  refine ⟨hb.1.trans ha.1, ?_⟩
  rcases hb.2 with hb | hb
  · rw [hb]; exact ha.2
  · exact .inr (hb.trans ha.1)

theorem AccessOk.accesses {p : Word} {d : Option Byte} {s t : State} {b : Byte} (h : AccessOk p d s b t)
    (hc : s.Coherent) : Accesses s t p.toNat (if d.isSome then 1 else 0) :=
  ⟨h.frame, h.inv, h.coherent hc, h.kept hc⟩

theorem readByte_ok {s : State} (h : s.Inv) (hc : s.Coherent) {p : Word} (hp : p.toNat < s.params.memSize) :
    ∃ t, readByte p s = .ok (s.eff p) t ∧ Accesses s t 0 0 := by
  obtain ⟨b, t, ht, ha⟩ := access_ok h hp none
  have hv : b = s.eff p := ha.value.trans ha.own
  refine ⟨t, by rw [← hv]; exact ht, ha.frame, ha.inv, ha.coherent hc, fun q hq _ => ?_⟩
  exact ha.kept hc q hq (by simp)

theorem writeByte_ok {s : State} (h : s.Inv) (hc : s.Coherent) {p : Word} (hp : p.toNat < s.params.memSize) (d : Byte) :
    ∃ t, writeByte p d s = .ok () t ∧ Accesses s t p.toNat 1 ∧ t.eff p = d := by
  obtain ⟨b, t, ht, ha⟩ := access_ok h hp (some d)
  exact ⟨t, by simp [writeByte, ht, Res.bind], by simpa using ha.accesses hc, ha.own⟩

/-! ### Where no request of the host waits to land (log 7) -/

theorem hostTurn_nil {s : State} (h : s.gaps = []) : hostTurn s = s := by simp [hostTurn, h]

/-- A gap in which none is to land is passed over. -/
theorem issue_zero {α : Type} {s : State} {gaps : List Nat} (h : s.gaps = 0 :: gaps) (f : State → Res α) :
    issue f s = f { s with gaps } := by simp [issue, hostTurn, h, serveRequests]

theorem issue_nil {α : Type} {s : State} (h : s.gaps = []) (f : State → Res α) : issue f s = f s := by
  rw [issue, hostTurn_nil h]

theorem root_ok {s : State} (hg : s.gaps = []) : root s = .ok s.rootKey (s.noteRead s.rootWritten) := by
  unfold root State.rootKey State.rootWritten
  cases s.params.rootSrc with
  | gprRbp => simp only [issue_nil hg, readReg_q]
  | const x => simp

/-- No request waits to land, and reading the root adds no note. -/
structure Noted (s : State) : Prop where
  gaps : s.gaps = []
  root : s.noteRead s.rootWritten = s

theorem noted_noteRead {s : State} (hg : s.gaps = []) : Noted (s.noteRead s.rootWritten) := ⟨hg, by simp⟩

theorem Noted.mono {s t : State} (h : Noted s) (hf : SameButMemory s t) : Noted t := by
  refine ⟨hf.gaps.trans h.gaps, ?_⟩
  have := h.root
  rw [hf.rootWritten]
  unfold SameButMemory at hf
  rw [hf]
  simp only [State.noteRead] at this ⊢
  rw [State.mk.injEq] at this ⊢
  exact ⟨rfl, rfl, rfl, rfl, rfl, rfl, rfl, rfl, rfl, rfl, rfl, rfl, this.2.2.2.2.2.2.2.2.2.2.2.2.1, rfl, rfl⟩

theorem Noted.root_ok {s : State} (h : Noted s) : Machine.root s = .ok s.rootKey s := by
  rw [Machine.root_ok h.gaps, h.root]

theorem translateVa_ok {s : State} {va r pa : Word} (h : walk s.pt va r = .ok pa) : translateVa va r s = .ok pa s := by
  simp [translateVa, h]

/-- The bytes a word access meets: each translates to the next physical byte, in bounds. -/
structure Bytes (s : State) (va pa : Word) (k n : Nat) : Prop where
  walk : ∀ j, k ≤ j → j < k + n → walk s.pt (va + BitVec.ofNat 64 j) s.rootKey = .ok (pa + BitVec.ofNat 64 j)
  addr : ∀ j, k ≤ j → j < k + n → (pa + BitVec.ofNat 64 j).toNat = pa.toNat + j
  bound : ∀ j, k ≤ j → j < k + n → pa.toNat + j < s.params.memSize

theorem Bytes.tail {s t : State} {va pa : Word} {k n : Nat} (h : Bytes s va pa k (n + 1))
    (hf : SameButMemory s t) : Bytes t va pa (k + 1) n :=
  ⟨fun j h₁ h₂ => by rw [hf.pt, hf.rootKey]; exact h.walk j (by omega) (by omega),
    fun j h₁ h₂ => h.addr j (by omega) (by omega),
    fun j h₁ h₂ => by rw [hf.params]; exact h.bound j (by omega) (by omega)⟩

/-- A word in one page whose first byte translates: so do the others, to the bytes that follow. -/
theorem bytes_of_walk {pt : Vector PageMap 4} {va r pa : Word} (hpage : inOnePage va = true)
    (hw : walk pt va r = .ok pa) (j : Nat) (hj : j < 8) :
    walk pt (va + BitVec.ofNat 64 j) r = .ok (pa + BitVec.ofNat 64 j) ∧
      (pa + BitVec.ofNat 64 j).toNat = pa.toNat + j := by
  have hoff : va.toNat % 4096 ≤ 0xFF8 := by
    have h₁ : (va &&& 0xFFF).toNat = va.toNat % 4096 := by
      rw [BitVec.toNat_and]
      exact Nat.and_two_pow_sub_one_eq_mod va.toNat 12
    simp only [inOnePage, BitVec.ult, h₁] at hpage
    simpa using hpage
  have hlt : pa.toNat < 2 ^ 52 ∧ pa.toNat % 4096 = va.toNat % 4096 := by
    rw [walk_eq] at hw
    cases hl : walkLevels pt [0, 1, 2, 3] r with
    | error e => rw [hl] at hw; cases hw
    | ok ppn =>
      rw [hl] at hw
      have hpa : pa = compose ppn va := by cases hw; rfl
      subst hpa
      exact ⟨compose_lt ppn va, by rw [compose_toNat]; omega⟩
  refine ⟨walk_add hw j (by omega), ?_⟩
  rw [BitVec.toNat_add, BitVec.toNat_ofNat]
  omega

/-- Where `wordAddr` answers, the eight bytes can be accessed. -/
theorem bytes_of_wordAddr {s : State} {va pa : Word} (h : s.wordAddr va = some pa) :
    inOnePage va = true ∧ Bytes s va pa 0 8 ∧ pa.toNat + 8 ≤ s.params.memSize := by
  unfold State.wordAddr at h
  split at h
  · rename_i hpage
    split at h
    · rename_i pa' hw
      split at h
      · rename_i hb
        cases h
        exact ⟨hpage, ⟨fun j _ hj => (bytes_of_walk hpage hw j (by omega)).1,
          fun j _ hj => (bytes_of_walk hpage hw j (by omega)).2, fun j _ hj => by omega⟩, hb⟩
      · cases h
    · cases h
  · cases h

/-- The word a run of bytes makes, as ReadWord puts it together (R655). -/
def wordFrom (s : State) (pa : Word) : Nat → Nat → Word
  | _, 0 => 0
  | k, n + 1 => (zext64 (s.eff (pa + BitVec.ofNat 64 k)) <<< (8 * k)) ||| wordFrom s pa (k + 1) n

theorem wordFrom_congr {s t : State} {pa : Word} {k n : Nat}
    (h : ∀ j, k ≤ j → j < k + n → t.eff (pa + BitVec.ofNat 64 j) = s.eff (pa + BitVec.ofNat 64 j)) :
    wordFrom t pa k n = wordFrom s pa k n := by
  induction n generalizing k with
  | zero => rfl
  | succ n ih =>
    simp only [wordFrom]
    rw [h k (by omega) (by omega), ih fun j h₁ h₂ => h j (by omega) (by omega)]

theorem wordFrom_eight (s : State) (pa : Word) : wordFrom s pa 0 8 = s.effWord pa := by
  have hz : ∀ k : Nat, (0 : Word) <<< k = 0 := fun k => BitVec.zero_shiftLeft k
  have hr : (List.range 8) = [0, 1, 2, 3, 4, 5, 6, 7] := by decide
  simp only [wordFrom, State.effWord, hr, List.map_cons, List.map_nil, wordOfBytes]
  simp only [BitVec.shiftLeft_or_distrib, ← BitVec.shiftLeft_add, BitVec.shiftLeft_zero, hz,
    Nat.reduceAdd, Nat.reduceMul]

/-- The first byte's read of the root is the only one that can add a note. -/
theorem readWordFrom_noted {s : State} (hg : s.gaps = []) (va : Word) (k n : Nat) :
    readWordFrom va k (n + 1) s = readWordFrom va k (n + 1) (s.noteRead s.rootWritten) := by
  simp only [readWordFrom, root_ok hg, (noted_noteRead hg).root_ok, State.noteRead_rootKey, Res.bind]

theorem writeWordFrom_noted {s : State} (hg : s.gaps = []) (va v : Word) (k n : Nat) :
    writeWordFrom va v k (n + 1) s = writeWordFrom va v k (n + 1) (s.noteRead s.rootWritten) := by
  simp only [writeWordFrom, root_ok hg, (noted_noteRead hg).root_ok, State.noteRead_rootKey, Res.bind]

theorem readWordFrom_ok {va pa : Word} (n : Nat) : ∀ (k : Nat) (s : State), s.Inv → s.Coherent → Noted s →
    Bytes s va pa k n → ∃ t, readWordFrom va k n s = .ok (wordFrom s pa k n) t ∧ Accesses s t 0 0 := by
  induction n with
  | zero => exact fun k s h hc _ _ => ⟨s, rfl, Accesses.refl h hc 0⟩
  | succ n ih =>
    intro k s h hc hn hb
    have ha := hb.addr k (Nat.le_refl k) (by omega)
    obtain ⟨s₁, h₁, hq₁⟩ := readByte_ok (p := pa + BitVec.ofNat 64 k) h hc (by
      rw [ha]; exact hb.bound k (Nat.le_refl k) (by omega))
    obtain ⟨t, h₂, hq₂⟩ := ih (k + 1) s₁ hq₁.inv hq₁.coherent (hn.mono hq₁.frame) (hb.tail hq₁.frame)
    refine ⟨t, ?_, hq₁.trans_quiet hq₂⟩
    have hw : wordFrom s₁ pa (k + 1) n = wordFrom s pa (k + 1) n := by
      refine wordFrom_congr fun j hj₁ hj₂ => (hq₁.kept _ ?_ (by omega)).1
      rw [hb.addr j (by omega) (by omega)]
      exact hb.bound j (by omega) (by omega)
    simp only [readWordFrom, hn.root_ok, issue_nil hn.gaps, translateVa_ok (hb.walk k (Nat.le_refl k) (by omega)), h₁,
      h₂, Res.bind, wordFrom, hw]

/-- ReadWord completes where `wordAddr` answers: the client's word, the note of the root's read, and nothing the client
sees changes. -/
theorem readWord_ok {s : State} (h : s.Inv) (hc : s.Coherent) (hg : s.gaps = []) {va pa : Word}
    (hp : s.wordAddr va = some pa) :
    ∃ t, readWord va s = .ok (s.effWord pa) t ∧ Accesses (s.noteRead s.rootWritten) t 0 0 := by
  obtain ⟨hpage, hb, _⟩ := bytes_of_wordAddr hp
  obtain ⟨t, ht, ha⟩ := readWordFrom_ok 8 0 _ (h.noteRead s.rootWritten) (hc.noteRead _) (noted_noteRead hg)
    (show Bytes (s.noteRead s.rootWritten) va pa 0 8 from ⟨hb.walk, hb.addr, hb.bound⟩)
  exact ⟨t, by rw [readWord, if_pos hpage, readWordFrom_noted hg, ht, wordFrom_eight]; rfl, ha⟩

theorem writeWordFrom_ok {va pa v : Word} (n : Nat) : ∀ (k : Nat) (s : State), s.Inv → s.Coherent → Noted s →
    Bytes s va pa k n → ∃ t, writeWordFrom va v k n s = .ok () t ∧ Accesses s t (pa.toNat + k) n ∧
      ∀ j, k ≤ j → j < k + n → t.eff (pa + BitVec.ofNat 64 j) = byteOf v j := by
  induction n with
  | zero => exact fun k s h hc _ _ => ⟨s, rfl, Accesses.refl h hc _, fun j _ _ => by omega⟩
  | succ n ih =>
    intro k s h hc hn hb
    have ha := hb.addr k (Nat.le_refl k) (by omega)
    have hbd := hb.bound k (Nat.le_refl k) (by omega)
    obtain ⟨s₁, h₁, hq₁, he₁⟩ := writeByte_ok (p := pa + BitVec.ofNat 64 k) h hc (by rw [ha]; exact hbd) (byteOf v k)
    obtain ⟨t, h₂, hq₂, he₂⟩ := ih (k + 1) s₁ hq₁.inv hq₁.coherent (hn.mono hq₁.frame) (hb.tail hq₁.frame)
    refine ⟨t, ?_, hq₁.trans hq₂ fun q hq => ⟨by omega, by omega⟩, fun j hj₁ hj₂ => ?_⟩
    · simp only [writeWordFrom, hn.root_ok, issue_nil hn.gaps, translateVa_ok (hb.walk k (Nat.le_refl k) (by omega)),
        h₁, h₂, Res.bind]
    · by_cases hj : j = k
      · subst hj
        rw [(hq₂.kept _ (by rw [hq₁.frame.params, ha]; exact hbd) (by omega)).1, he₁]
      · exact he₂ j (by omega) (by omega)

/-- WriteWord completes where `wordAddr` answers: the client sees the word there, the root's read is noted, and nothing
else changed. -/
theorem writeWord_ok {s : State} (h : s.Inv) (hc : s.Coherent) (hg : s.gaps = []) {va pa : Word} (v : Word)
    (hp : s.wordAddr va = some pa) :
    ∃ t, writeWord va v s = .ok () t ∧ Accesses (s.noteRead s.rootWritten) t pa.toNat 8 ∧ WordStored t pa v := by
  obtain ⟨hpage, hb, _⟩ := bytes_of_wordAddr hp
  obtain ⟨t, ht, ha, he⟩ := writeWordFrom_ok (v := v) 8 0 _ (h.noteRead s.rootWritten) (hc.noteRead _)
    (noted_noteRead hg) (show Bytes (s.noteRead s.rootWritten) va pa 0 8 from ⟨hb.walk, hb.addr, hb.bound⟩)
  exact ⟨t, by rw [writeWord, if_pos hpage, writeWordFrom_noted hg, ht], ha, fun k hk => he k (Nat.zero_le k) (by omega)⟩

/-! ### Operands -/

theorem addrRegister_ok {s : State} (hg : s.gaps = []) (o : Option (BitVec 4)) :
    addrRegister o s = .ok (s.addrValue o) (s.noteRead (s.addrWritten o)) := by
  cases o with
  | none => simp [addrRegister, State.addrValue, State.addrWritten]
  | some c => simp only [addrRegister, issue_nil hg, readReg_q]; rfl

/-- The effective address, with the notes of its two registers (R314). -/
theorem effectiveAddress_ok {s : State} (hg : s.gaps = []) (e : AddrExpr) :
    effectiveAddress e s = .ok (s.ea e) (s.noteRead (s.eaWritten e)) := by
  simp only [effectiveAddress, addrRegister_ok hg,
    addrRegister_ok (show (s.noteRead (s.addrWritten e.base)).gaps = [] from hg), Res.bind, State.noteRead_addrValue,
    State.noteRead_addrWritten, State.noteRead_noteRead, State.ea, State.eaWritten]

/-- What the value of a resolved source reads has been written. -/
def State.valueWritten (s : State) : Source → Bool
  | .imm _ => true
  | .reg _ _ => true
  | .mem _ => s.rootWritten

theorem State.resolve_and_value (s : State) (src : Source) :
    (s.resolveWritten src && s.valueWritten src) = s.sourceWritten src := by
  cases src <;> simp [State.resolveWritten, State.valueWritten, State.sourceWritten]

theorem resolveSource_ok {s : State} (hg : s.gaps = []) {src : Source} {r : Resolved} (h : s.resolved src = some r) :
    resolveSource src s = .ok r (s.noteRead (s.resolveWritten src)) := by
  cases src with
  | imm v => cases h; simp [resolveSource, State.resolveWritten]
  | reg c view =>
    obtain ⟨x, hx, rfl⟩ := Option.map_eq_some_iff.1 h
    simp only [resolveSource, issue_nil hg, readReg_of_value hx, Res.bind, State.resolveWritten]
  | mem e => cases h; simp only [resolveSource, effectiveAddress_ok hg, Res.bind, State.resolveWritten]

/-- A source with a value resolves, and its value is then read, a memory source's from memory: in a state that differs
from the first in notes alone (R654, R656). -/
theorem source_ok {s : State} (hi : s.Inv) (hc : s.Coherent) (hg : s.gaps = []) {src : Source} {v : Word}
    (h : s.sourceValue src = some v) :
    ∃ r, s.resolved src = some r ∧ ∀ w, ∃ u, valueOf r (s.noteRead w) = .ok v u ∧
      Accesses (s.noteRead (w && s.valueWritten src)) u 0 0 ∧ ((∀ e, src ≠ .mem e) → u = s.noteRead w) := by
  have quiet : ∀ w, ∃ u, valueOf (.value v) (s.noteRead w) = .ok v u ∧ Accesses (s.noteRead (w && true)) u 0 0 ∧
      u = s.noteRead w := fun w =>
    ⟨_, rfl, by rw [Bool.and_true]; exact Accesses.refl (hi.noteRead w) (hc.noteRead w) 0, rfl⟩
  cases src with
  | imm w =>
    cases h
    exact ⟨.value v, rfl, fun w => (quiet w).imp fun _ h => ⟨h.1, h.2.1, fun _ => h.2.2⟩⟩
  | reg c view =>
    have h : s.regValue c view = some v := h
    exact ⟨.value v, by rw [State.resolved, h]; rfl, fun w => (quiet w).imp fun _ h => ⟨h.1, h.2.1, fun _ => h.2.2⟩⟩
  | mem e =>
    obtain ⟨pa, hpa, rfl⟩ := Option.map_eq_some_iff.1 (show s.wordValue (s.ea e) = some v from h)
    refine ⟨.addr (s.ea e), rfl, fun w => ?_⟩
    obtain ⟨u, hu, ha⟩ := readWord_ok (hi.noteRead w) (hc.noteRead w) hg (va := s.ea e) (pa := pa) hpa
    exact ⟨u, hu, by simpa [State.valueWritten] using ha, fun hne => absurd rfl (hne e)⟩

theorem targetOf_ok {s : State} (hg : s.gaps = []) {x : Target} {v : Word} (h : s.targetValue x = some v) :
    targetOf x s = .ok v (s.noteRead (s.targetWritten x)) := by
  cases x with
  | literal w => cases h; simp [targetOf, State.targetWritten]
  | reg c view => simp only [targetOf, issue_nil hg, readReg_of_value (show s.regValue c view = some v from h)]; rfl

/-- The store below the stack pointer, and the pointer's move (R661, R664). -/
theorem pushWord_ok {s : State} (hi : s.Inv) (hc : s.Coherent) (hg : s.gaps = []) {pa : Word} (v : Word)
    (hw : s.wordAddr (s.cell rspCell - 8) = some pa) :
    ∃ u, pushWord v s = .ok () (u.writeView rspCell .q (s.cell rspCell - 8)) ∧
      Accesses (s.noteRead (s.laneWritten rspCell .q && s.rootWritten)) u pa.toNat 8 ∧ WordStored u pa v := by
  obtain ⟨t, ht, ha, hst⟩ := writeWord_ok (hi.noteRead (s.laneWritten rspCell .q)) (hc.noteRead _) hg v
    (va := s.cell rspCell - 8) hw
  refine ⟨t, ?_, by simpa using ha, hst⟩
  simp only [pushWord, issue_nil hg, readReg_q, ht, Res.bind, issue_nil (ha.frame.gaps.trans hg),
    writeReg_of_view (viewOfSel_q _)]

/-- The generic advance (R652). -/
theorem advance_ok {s : State} (hg : s.gaps = []) :
    advance s = .ok () { s.noteRead s.ripWr with rip := s.rip + 0x40, ripWr := true } := by
  simp only [advance, issue_nil hg, readRip, Res.bind]
  rw [issue_nil (by exact hg)]
  rfl

theorem clearAndAdvance_ok {s : State} (hg : s.gaps = []) : clearAndAdvance s =
    .ok () { s.noteRead s.ripWr with flags := Flags.clear, rip := s.rip + 0x40, ripWr := true } := by
  simp only [clearAndAdvance, issue_nil hg, clearFlags, Res.bind]
  rw [advance_ok (by exact hg)]
  rfl

end Sys2Proof.Machine
end

