-- ==== Sys2Proof/Laws/WordFaults.lean ====
section
/-! SUPPORT. The engine's word accesses where they do not complete, said once: a first byte without a translation, a
word that leaves the store, a word that crosses its page (spec/46_engine.md R655, R657). -/

namespace Sys2Proof.Machine

/-! ### PageFault -/

theorem readWord_pageFault {s : State} (hg : s.gaps = []) {va : Word} {k : Fin 4} (h : s.PageFaultAt va k) :
    readWord va s = .err .pageFault (BitVec.ofNat 64 (k.val + 1)) (s.noteRead s.rootWritten) := by
  have hw : walk (s.noteRead s.rootWritten).pt (va + BitVec.ofNat 64 0) s.rootKey = .error k := by simpa using h.2
  simp only [readWord, h.1, if_true, readWordFrom, root_ok hg,
    issue_nil (show (s.noteRead s.rootWritten).gaps = [] from hg), translateVa, hw, Res.bind]

theorem writeWord_pageFault {s : State} (hg : s.gaps = []) {va : Word} {k : Fin 4} (v : Word)
    (h : s.PageFaultAt va k) :
    writeWord va v s = .err .pageFault (BitVec.ofNat 64 (k.val + 1)) (s.noteRead s.rootWritten) := by
  have hw : walk (s.noteRead s.rootWritten).pt (va + BitVec.ofNat 64 0) s.rootKey = .error k := by simpa using h.2
  simp only [writeWord, h.1, if_true, writeWordFrom, root_ok hg,
    issue_nil (show (s.noteRead s.rootWritten).gaps = [] from hg), translateVa, hw, Res.bind]

/-! ### OutOfBounds -/

/-- The bytes of a word that all translate, in bounds or not. -/
structure Translated (s : State) (va pa : Word) : Prop where
  walk : ∀ j, j < 8 → walk s.pt (va + BitVec.ofNat 64 j) s.rootKey = .ok (pa + BitVec.ofNat 64 j)
  addr : ∀ j, j < 8 → (pa + BitVec.ofNat 64 j).toNat = pa.toNat + j

theorem Translated.mono {s t : State} {va pa : Word} (h : Translated s va pa) (hf : SameButMemory s t) :
    Translated t va pa := ⟨fun j hj => by rw [hf.pt, hf.rootKey]; exact h.walk j hj, h.addr⟩

theorem State.BoundsFaultAt.translated {s : State} {va pa : Word} (h : s.BoundsFaultAt va pa) : Translated s va pa :=
  ⟨fun j hj => (bytes_of_walk h.1 h.2.1 j hj).1, fun j hj => (bytes_of_walk h.1 h.2.1 j hj).2⟩

/-- The byte at which such an access stops. -/
theorem boundsInfo_eq {s : State} {va pa : Word} {k : Nat} (h : Translated s va pa) (hk : k < 8)
    (h₁ : pa.toNat + k ≤ s.params.memSize ∨ k = 0) (h₂ : s.params.memSize ≤ pa.toNat + k) :
    s.boundsInfo pa = pa + BitVec.ofNat 64 k := by
  apply BitVec.eq_of_toNat_eq
  have h₃ := h.addr k hk
  have h₄ := (pa + BitVec.ofNat 64 k).isLt
  rw [h₃, State.boundsInfo, BitVec.toNat_ofNat]
  omega

theorem SameButMemory.boundsInfo {s t : State} (h : SameButMemory s t) (pa : Word) :
    t.boundsInfo pa = s.boundsInfo pa := by simp only [State.boundsInfo, h.params]

theorem readWordFrom_outOfBounds {va pa : Word} (n : Nat) : ∀ (k : Nat) (s : State), s.Inv → s.Coherent → Noted s →
    Translated s va pa → k + n = 8 → (pa.toNat + k ≤ s.params.memSize ∨ k = 0) → s.params.memSize < pa.toNat + 8 →
    ∃ t, readWordFrom va k n s = .err .outOfBounds (s.boundsInfo pa) t ∧ Accesses s t 0 0 := by
  induction n with
  | zero => intros; omega
  | succ n ih =>
    intro k s hi hc hn hb hk h₁ h₂
    have ha := hb.addr k (by omega)
    by_cases hlt : pa.toNat + k < s.params.memSize
    · obtain ⟨s₁, hr, hq⟩ := readByte_ok (p := pa + BitVec.ofNat 64 k) hi hc (by rw [ha]; exact hlt)
      have hp := hq.frame.params
      obtain ⟨t, ht, hq'⟩ := ih (k + 1) s₁ hq.inv hq.coherent (hn.mono hq.frame) (hb.mono hq.frame) (by omega)
        (by rw [hp]; omega) (by rw [hp]; omega)
      refine ⟨t, ?_, hq.trans_quiet hq'⟩
      simp only [readWordFrom, hn.root_ok, issue_nil hn.gaps, translateVa_ok (hb.walk k (by omega)), hr, ht, Res.bind,
        hq.frame.boundsInfo]
    · refine ⟨s, ?_, Accesses.refl hi hc 0⟩
      simp only [readWordFrom, hn.root_ok, issue_nil hn.gaps, translateVa_ok (hb.walk k (by omega)), readByte,
        access_outOfBounds none (show s.params.memSize ≤ (pa + BitVec.ofNat 64 k).toNat by omega), Res.bind,
        boundsInfo_eq hb (by omega) h₁ (by omega)]

/-- A load that leaves the store answers the first address out of bounds, and changes nothing the client sees. -/
theorem readWord_outOfBounds {s : State} (hi : s.Inv) (hc : s.Coherent) (hg : s.gaps = []) {va pa : Word}
    (h : s.BoundsFaultAt va pa) :
    ∃ t, readWord va s = .err .outOfBounds (s.boundsInfo pa) t ∧ Accesses (s.noteRead s.rootWritten) t 0 0 := by
  obtain ⟨t, ht, ha⟩ := readWordFrom_outOfBounds 8 0 _ (hi.noteRead s.rootWritten) (hc.noteRead _) (noted_noteRead hg)
    (show Translated (s.noteRead s.rootWritten) va pa from ⟨h.translated.walk, h.translated.addr⟩) rfl (.inr rfl) h.2.2
  exact ⟨t, by rw [readWord, if_pos h.1, readWordFrom_noted hg]; exact ht, ha⟩

theorem writeWordFrom_outOfBounds {va pa v : Word} (n : Nat) : ∀ (k : Nat) (s : State), s.Inv → s.Coherent → Noted s →
    Translated s va pa → k + n = 8 → (pa.toNat + k ≤ s.params.memSize ∨ k = 0) → s.params.memSize < pa.toNat + 8 →
    ∃ t, writeWordFrom va v k n s = .err .outOfBounds (s.boundsInfo pa) t ∧
      Accesses s t (pa.toNat + k) (s.params.memSize - (pa.toNat + k)) ∧
      ∀ j, k ≤ j → j < 8 → pa.toNat + j < s.params.memSize → t.eff (pa + BitVec.ofNat 64 j) = byteOf v j := by
  induction n with
  | zero => intros; omega
  | succ n ih =>
    intro k s hi hc hn hb hk h₁ h₂
    have ha := hb.addr k (by omega)
    by_cases hlt : pa.toNat + k < s.params.memSize
    · obtain ⟨s₁, hw, hq, he⟩ := writeByte_ok (p := pa + BitVec.ofNat 64 k) hi hc (by rw [ha]; exact hlt) (byteOf v k)
      have hp := hq.frame.params
      obtain ⟨t, ht, hq', he'⟩ := ih (k + 1) s₁ hq.inv hq.coherent (hn.mono hq.frame) (hb.mono hq.frame) (by omega)
        (by rw [hp]; omega) (by rw [hp]; omega)
      refine ⟨t, ?_, hq.trans hq' fun q hne => ⟨by omega, by rw [hp]; omega⟩, fun j hj hj8 hjm => ?_⟩
      · simp only [writeWordFrom, hn.root_ok, issue_nil hn.gaps, translateVa_ok (hb.walk k (by omega)), hw, ht, Res.bind,
          hq.frame.boundsInfo]
      · by_cases hjk : j = k
        · subst hjk
          rw [(hq'.kept _ (by rw [hp, ha]; exact hlt) (by omega)).1, he]
        · exact he' j (by omega) hj8 (by rw [hp]; exact hjm)
    · have h0 : s.params.memSize - (pa.toNat + k) = 0 := by omega
      refine ⟨s, ?_, by rw [h0]; exact Accesses.refl hi hc _, fun j hj hj8 hjm => by omega⟩
      simp only [writeWordFrom, hn.root_ok, issue_nil hn.gaps, translateVa_ok (hb.walk k (by omega)), writeByte,
        access_outOfBounds (some (byteOf v k)) (show s.params.memSize ≤ (pa + BitVec.ofNat 64 k).toNat by omega),
        Res.bind, boundsInfo_eq hb (by omega) h₁ (by omega)]

/-- A store that leaves the store's bounds answers the first address out of bounds, and keeps the bytes before it. -/
theorem writeWord_outOfBounds {s : State} (hi : s.Inv) (hc : s.Coherent) (hg : s.gaps = []) {va pa : Word} (v : Word)
    (h : s.BoundsFaultAt va pa) :
    ∃ t, writeWord va v s = .err .outOfBounds (s.boundsInfo pa) t ∧
      Accesses (s.noteRead s.rootWritten) t pa.toNat (s.params.memSize - pa.toNat) ∧
      ∀ j, j < 8 → pa.toNat + j < s.params.memSize → t.eff (pa + BitVec.ofNat 64 j) = byteOf v j := by
  obtain ⟨t, ht, ha, he⟩ := writeWordFrom_outOfBounds (v := v) 8 0 _ (hi.noteRead s.rootWritten) (hc.noteRead _)
    (noted_noteRead hg)
    (show Translated (s.noteRead s.rootWritten) va pa from ⟨h.translated.walk, h.translated.addr⟩) rfl (.inr rfl) h.2.2
  exact ⟨t, by rw [writeWord, if_pos h.1, writeWordFrom_noted hg]; exact ht, ha, fun j => he j (Nat.zero_le j)⟩

/-! ### PageCrossingWord -/

theorem inOnePage_of_crossing {va : Word} (h : 0xFF8 < va.toNat % 4096) : inOnePage va = false := by
  have h₁ : (va &&& 0xFFF).toNat = va.toNat % 4096 := by
    rw [BitVec.toNat_and]
    exact Nat.and_two_pow_sub_one_eq_mod va.toNat 12
  simp only [inOnePage, BitVec.ult, h₁]
  simpa using h

theorem readWord_crossing {va : Word} (h : 0xFF8 < va.toNat % 4096) (s : State) :
    readWord va s = .refused (.pageCrossingWord s.unwritten) := by simp [readWord, inOnePage_of_crossing h]

theorem writeWord_crossing {va : Word} (h : 0xFF8 < va.toNat % 4096) (v : Word) (s : State) :
    writeWord va v s = .refused (.pageCrossingWord s.unwritten) := by simp [writeWord, inOnePage_of_crossing h]

end Sys2Proof.Machine
end

