-- ==== Sys2Proof/Machine/OperandText.lean ====
section
/-! DEFINITION. The client's operand decode from the text of an operand to a record (spec/30_encoding.md R312 to R314,
spec/42_regfile.md R500, R509). The front-end that cuts an instruction's text into a mnemonic and operand texts, and the
source's character automaton, are out of scope (spec/00_scope.md R8); how a number is written is the model's choice
(log 20). Where a text has several errors the spec gives no order, and the model reports the leftmost (DESIGN CHOICE,
log 27). No step calls this: PROG holds records (R650). -/

namespace Sys2Proof.Machine

/-- The five kinds of operand text (R313). -/
inductive TextKind where
  | empty
  | indirect
  | immediate
  | register
  | direct
  deriving DecidableEq, Repr

/-- A parenthesis. -/
def isParen (c : Char) : Bool := c == '(' || c == ')'

/-- Classifies an operand text: the tests of R313 in their order, a parenthesis before `$` and `%`. -/
def classify (text : List Char) : TextKind :=
  if text.isEmpty then .empty
  else if text.any isParen then .indirect
  else if text.head? == some '$' then .immediate
  else if text.head? == some '%' then .register
  else .direct

/-- The value of a hexadecimal digit. -/
def hexDigit (c : Char) : Option Nat :=
  if '0' ≤ c ∧ c ≤ '9' then some (c.toNat - '0'.toNat)
  else if 'a' ≤ c ∧ c ≤ 'f' then some (c.toNat - 'a'.toNat + 10)
  else if 'A' ≤ c ∧ c ≤ 'F' then some (c.toNat - 'A'.toNat + 10)
  else none

/-- Reads digits of a base after the value so far. -/
def readDigits (base : Nat) : List Char → Nat → Option Nat
  | [], n => some n
  | c :: rest, n =>
    match hexDigit c with
    | some d => if d < base then readDigits base rest (n * base + d) else none
    | none => none

/-- An unsigned number: decimal, or hexadecimal after `0x` (DESIGN CHOICE, log 20). -/
def parseNat : List Char → Option Nat
  | [] => none
  | '0' :: 'x' :: [] => none
  | '0' :: 'x' :: c :: rest => readDigits 16 (c :: rest) 0
  | c :: rest => readDigits 10 (c :: rest) 0

/-- A number with an optional minus, which negates it modulo 2^64 (R314 for a displacement; log 20). A minus with no
number after it, as in `-(%rax)`, is MalformedOperand: R314 does not say that it may stand alone (DESIGN CHOICE,
log 20). -/
def parseNumber : List Char → Except Status Word
  | '-' :: rest =>
    match parseNat rest with
    | some n => .ok (-(BitVec.ofNat 64 n))
    | none => .error .malformedOperand
  | text =>
    match parseNat text with
    | some n => .ok (BitVec.ofNat 64 n)
    | none => .error .malformedOperand

/-- The alias groups of R500: for each cell its names in VIEW order. -/
def aliasGroups : List (List String) :=
  [["rax", "eax", "ax", "al", "ah"],
   ["rcx", "ecx", "cx", "cl", "ch"],
   ["rdx", "edx", "dx", "dl", "dh"],
   ["rbx", "ebx", "bx", "bl", "bh"],
   ["rsp", "esp", "sp", "spl"],
   ["rbp", "ebp", "bp", "bpl"],
   ["rsi", "esi", "si", "sil"],
   ["rdi", "edi", "di", "dil"],
   ["r8", "r8d", "r8w", "r8b"],
   ["r9", "r9d", "r9w", "r9b"],
   ["r10", "r10d", "r10w", "r10b"],
   ["r11", "r11d", "r11w", "r11b"],
   ["r12", "r12d", "r12w", "r12b"],
   ["r13", "r13d", "r13w", "r13b"],
   ["r14", "r14d", "r14w", "r14b"],
   ["r15", "r15d", "r15w", "r15b"]]

/-- Searches the groups from cell `c` on. -/
def findName (name : List Char) : List (List String) → Nat → Option (BitVec 4 × BitVec 3)
  | [], _ => none
  | group :: rest, c =>
    match group.findIdx? fun n => n.toList == name with
    | some v => some (BitVec.ofNat 4 c, BitVec.ofNat 3 v)
    | none => findName name rest (c + 1)

/-- The selector of a bare lower-case name, or none: an unknown name is UnknownRegister (R500, R509). -/
def resolveName (name : List Char) : Option (BitVec 4 × BitVec 3) := findName name aliasGroups 0

/-- A field of an address that may be left out and otherwise is `%` and a register's name (R314). -/
def parseAddrRegister : List Char → Except Status (Option (BitVec 4))
  | [] => .ok none
  | '%' :: name =>
    match resolveName name with
    | some (cell, _) => .ok (some cell)
    | none => .error .unknownRegister
  | _ :: _ => .error .malformedOperand

/-- The displacement: 0 where it is left out (R314). -/
def parseDisp : List Char → Except Status Word
  | [] => .ok 0
  | c :: rest => parseNumber (c :: rest)

/-- The scale: 1 where it is left out; otherwise a number without a minus that is 1, 2, 4 or 8 as it is written, before
any reduction modulo 2^64 (R314). -/
def parseScale : List Char → Except Status Word
  | [] => .ok 1
  | c :: rest =>
    match parseNat (c :: rest) with
    | some n => if n = 1 ∨ n = 2 ∨ n = 4 ∨ n = 8 then .ok (BitVec.ofNat 64 n) else .error .malformedOperand
    | none => .error .malformedOperand

/-- Cuts a text at its commas. -/
def splitCommas : List Char → List (List Char)
  | [] => [[]]
  | c :: rest =>
    if c == ',' then [] :: splitCommas rest
    else
      match splitCommas rest with
      | [] => [[c]]
      | field :: fields => (c :: field) :: fields

/-- The fields between the parentheses, and that the closing one ends the text. -/
def addrFields : List Char → Option (List (List Char))
  | '(' :: inner =>
    if inner.dropWhile (· != ')') == [')'] then some (splitCommas (inner.takeWhile (· != ')'))) else none
  | _ => none

/-- An address from its four parts, read from left to right (log 27). -/
def addrOfParts (disp base index scale : List Char) : Except Status AddrExpr :=
  match parseDisp disp, parseAddrRegister base, parseAddrRegister index, parseScale scale with
  | .ok disp, .ok base, .ok index, .ok scale => .ok { disp, base, index, scale }
  | .error e, _, _, _ => .error e
  | _, .error e, _, _ => .error e
  | _, _, .error e, _ => .error e
  | _, _, _, .error e => .error e

/-- `[-]disp(base[,index[,scale]])`, any part left out (R312, R314); what has another form is MalformedOperand, before
any of its parts is looked at (log 27). -/
def parseAddress (text : List Char) : Except Status AddrExpr :=
  let disp := text.takeWhile (· != '(')
  match addrFields (text.dropWhile (· != '(')) with
  | some [base] => addrOfParts disp base [] []
  | some [base, index] => addrOfParts disp base index []
  | some [base, index, scale] => addrOfParts disp base index scale
  | some [] => .error .malformedOperand
  | some (_ :: _ :: _ :: _ :: _) => .error .malformedOperand
  | none => .error .malformedOperand

/-- The operand of a text, by its case of R313. -/
def parseOperand (text : List Char) : Except Status Operand :=
  match classify text with
  | .empty => .ok .empty
  | .indirect =>
    match parseAddress text with
    | .ok e => .ok (.memIndirect e)
    | .error e => .error e
  | .immediate =>
    match parseNumber text.tail with
    | .ok v => .ok (.imm v)
    | .error e => .error e
  | .register =>
    match resolveName text.tail with
    | some (cell, view) => .ok (.reg cell view)
    | none => .error .unknownRegister
  | .direct =>
    match parseNumber text with
    | .ok a => .ok (.memDirect a)
    | .error e => .error e

/-- The record form of an operand text (R311). -/
def decodeText (text : List Char) : Except Status RawOperand :=
  match parseOperand text with
  | .ok o => .ok (encodeOperand o)
  | .error e => .error e

/-- The mnemonics in TAG order (R310, R312). -/
def mnemonics : List String :=
  ["mov", "push", "pop", "leave", "call", "ret", "add", "sub", "cmp", "jne", "jmp"]

/-- src and dst of an instruction text: two operands are src, dst; one is src, but dst for pop (R312). More than two are
MalformedOperand (log 20). -/
def placeOperands (mnemonic : String) : List (List Char) → Except Status (List Char × List Char)
  | [] => .ok ([], [])
  | [one] => .ok (if mnemonic == "pop" then ([], one) else (one, []))
  | [src, dst] => .ok (src, dst)
  | _ :: _ :: _ :: _ => .error .malformedOperand

/-- The record of an instruction text, given as its mnemonic and its operand texts (R310, R312). A mnemonic outside the
subset is UnsupportedOpcode, reported as NotImplemented (R700). Where there are several errors the spec gives no order:
the model takes the mnemonic's, then the operand count's, then src's, then dst's (DESIGN CHOICE, log 27). -/
def recordOfText (mnemonic : String) (operands : List (List Char)) : Except Status Record :=
  match mnemonics.findIdx? fun m => m == mnemonic, placeOperands mnemonic operands with
  | none, _ => .error .notImplemented
  | some _, .error e => .error e
  | some tag, .ok (src, dst) =>
    match decodeText src, decodeText dst with
    | .ok src, .ok dst => .ok { tag := BitVec.ofNat 4 tag, src, dst }
    | .error e, _ => .error e
    | .ok _, .error e => .error e

end Sys2Proof.Machine
end

