-- ==== Sys2Proof/Tests/Slice0.lean ====
section
/-! SUPPORT. Tests of single steps, their expected results taken from spec/95_test_vectors.md (E1 to E7, V1 to V8, P1 to
P5) or from the rule named at the test; and, for every statement with hypotheses, a concrete state that meets them. -/

namespace Sys2Proof.Tests

open Sys2Proof.Machine

/-! ### Small states -/

/-- A field of the next state, where there is one. -/
def after {α : Type} (f : State → α) : Host.Outcome State Fault Refusal → Option α
  | .next t => some (f t)
  | .fault _ => none
  | .refused _ => none

/-- Whether an outcome is this fault. -/
def faults (f : Fault) : Host.Outcome State Fault Refusal → Bool
  | .next _ => false
  | .fault g => g == f
  | .refused _ => false

/-- Whether an outcome is this refusal. -/
def refuses (f : Refusal) : Host.Outcome State Fault Refusal → Bool
  | .next _ => false
  | .fault _ => false
  | .refused g => g == f

/-- A present entry. -/
def pte (b : Word) : Pte := { present := true, base := b }

/-- The page tables of P4: every va maps to 0x5000 and its page offset. -/
def p4pt : Vector PageMap 4 :=
  #v[[(0x1000, pte 0x2000)], [(0x2000, pte 0x3000)], [(0x3000, pte 0x4000)], [(0x4000, pte 5)]]

/-- P4 after the host's set-up. -/
def p4 : State :=
  { State.reset with
    pt := p4pt
    gpr := (State.reset.gpr.set 4 0x7FFE0).set 5 0x7FFF0
    wr := (State.reset.wr.set 4 0xFF).set 5 0xFF
    rip := 0x400000
    ripWr := true }

/-- P4 with a cell written whole. -/
def p4with (c : BitVec 4) (v : Word) : State := p4.setCell c v 0xFF

/-- A line that holds its block as the store has it. -/
def lineOf (st : LineState) (tag : BitVec 40) (time : BitVec 64) (i : Fin 64) (m : Memory) : Line :=
  { state := st, tag, time, block := busReadLine m (wbAddr i tag).toNat }

/-- The store of V2. -/
def v2mem : Memory := [(0x1005, 0x5A)]

/-- V2 before its first command. -/
def v2 : State := { State.reset with mem := v2mem }

/-- V2 after row 1. -/
def v2clean : State :=
  { v2 with cache := v2.cache.set 0 [lineOf .clean 1 0 0 v2mem, Line.reset] }

/-- The corner of V2: set 0 holds (D,0,1) (C,1,0); byte 0 of the Dirty block is 0xAA. -/
def v2full : State :=
  { v2 with cache := v2.cache.set 0 [(lineOf .dirty 0 1 0 v2mem).store 0 0xAA, lineOf .clean 1 0 0 v2mem] }

/-- A full set whose older line is saturated. -/
def v2saturated : State :=
  { v2 with
    cache := v2.cache.set 0 [lineOf .clean 0 (BitVec.ofInt 64 maxTime) 0 v2mem, lineOf .clean 1 0 0 v2mem] }

/-- A request next on the port. -/
def asked (s : State) (r : Request) : State := { s with inbox := [.command r] }

/-- P4 launched, with one record at rip. -/
def launched (s : State) (r : Record) : State := { s with prog := [(s.rip.toNat, r)], run := .running 0x4000C0 }

theorem inv_p4 : p4.Inv := ⟨by decide, by decide, by decide, by decide, by decide, by decide, by decide⟩
theorem coherent_p4 : p4.Coherent := by unfold State.Coherent; decide
theorem inv_v2 : v2.Inv := ⟨by decide, by decide, by decide, by decide, by decide, by decide, by decide⟩
theorem coherent_v2 : v2.Coherent := by unfold State.Coherent; decide
theorem inv_v2clean : v2clean.Inv := ⟨by decide, by decide, by decide, by decide, by decide, by decide, by decide⟩
theorem coherent_v2clean : v2clean.Coherent := by unfold State.Coherent; decide
theorem inv_v2full : v2full.Inv := ⟨by decide, by decide, by decide, by decide, by decide, by decide, by decide⟩
theorem coherent_v2full : v2full.Coherent := by unfold State.Coherent; decide
theorem inv_v2saturated : v2saturated.Inv :=
  ⟨by decide, by decide, by decide, by decide, by decide, by decide, by decide⟩
theorem coherent_v2saturated : v2saturated.Coherent := by unfold State.Coherent; decide

/-- What P4's invariant asks of a state: registers, flags, program and port play no part. -/
theorem inv_like {s t : State} (h : s.Inv) (hp : t.params = s.params) (hc : t.cache = s.cache) (hm : t.mem = s.mem)
    (hk : t.pt = s.pt) : t.Inv := by
  obtain ⟨a, b, c, d, e, f, g⟩ := h
  exact ⟨hp ▸ a, by rw [hp, hc]; exact b, by rw [hp, hc]; exact c, by rw [hc]; exact d, hm ▸ e,
    by rw [hp, hm]; exact f, by rw [hk]; exact g⟩

theorem coherent_like {s t : State} (h : s.Coherent) (hc : t.cache = s.cache) (hm : t.mem = s.mem) : t.Coherent := by
  unfold State.Coherent at h ⊢
  rw [hc, hm]
  exact h

/-! ### WellFormed: the one check, and a term it refuses for each of its cases (R314) -/

theorem test_wf_scales :
    ([1, 2, 4, 8].all fun k =>
        Operand.wf (.memIndirect { disp := 0, base := none, index := some 1, scale := k })) = true
      ∧ ([0, 3, 5, 16, 0xFFFFFFFFFFFFFFFF].all fun k =>
          !Operand.wf (.memIndirect { disp := 0, base := none, index := some 1, scale := k })) = true := by decide

theorem test_illformed_src :
    Instr.wf (.mov (.memIndirect { disp := 8, base := some 4, index := none, scale := 3 }) (.reg 0 0)) = false := by
  decide

theorem test_illformed_dst :
    Instr.wf (.mov (.reg 0 0) (.memIndirect { disp := 8, base := some 4, index := none, scale := 0 })) = false := by
  decide

/-! ### Decoding: words from the opcode map (R302) and the tables of V4, V7, P4 and P5 -/

theorem test_decode_cache :
    decodeRequest { cmd := 0x0800, a := 0x1005, b := 7, d := 9 } = .ok (.crd 0x1005) ∧
    decodeRequest { cmd := 0x1000, a := 0x1005, b := 7, d := 0xA5 } = .ok (.cwr 0x1005 0xA5) := by decide

theorem test_decode_translation :
    decodeRequest { cmd := 0x1800, a := 0x123, b := 0x1000, d := 1 } = .ok (.xlt 0x123 0x1000) ∧
    decodeRequest { cmd := 0x6800, a := 0x1000, b := 0x2000, d := 1 } = .ok (.ptwr 0 0x1000 0x2000 true) ∧
    decodeRequest { cmd := 0x6804, a := 0x2000, b := 0x3000, d := 1 } = .ok (.ptwr 1 0x2000 0x3000 true) ∧
    decodeRequest { cmd := 0x6808, a := 0x3000, b := 0x4000, d := 0 } = .ok (.ptwr 2 0x3000 0x4000 false) ∧
    decodeRequest { cmd := 0x680C, a := 0x4000, b := 0x7, d := 0xFE } = .ok (.ptwr 3 0x4000 0x7 false) := by decide

/-- V4's selector table: rax, eax, ax, al, ah, rsp, spl, r8d, r15, r15b, bh. -/
theorem test_decode_rrd :
    ([0x2000, 0x2010, 0x2020, 0x2030, 0x2040, 0x2200, 0x2230, 0x2410, 0x2780, 0x27B0, 0x21C0].map fun w =>
      decodeRequest { cmd := w, a := 0, b := 0, d := 0 }) =
    ([(0, 0), (0, 1), (0, 2), (0, 3), (0, 4), (4, 0), (4, 3), (8, 1), (15, 0), (15, 3), (3, 4)].map fun p =>
      .ok (.rrd p.1 p.2)) := by decide

theorem test_decode_rwr :
    ([0x2800, 0x2810, 0x2820, 0x2830, 0x2840, 0x2A00, 0x2A30, 0x2C10, 0x2F80, 0x2FB0, 0x29C0].map fun w =>
      decodeRequest { cmd := w, a := 0x1FF, b := 0, d := 0 }) =
    ([(0, 0), (0, 1), (0, 2), (0, 3), (0, 4), (4, 0), (4, 3), (8, 1), (15, 0), (15, 3), (3, 4)].map fun p =>
      .ok (.rwr p.1 p.2 0x1FF)) := by decide

theorem test_decode_rip :
    decodeRequest { cmd := 0x3000, a := 1, b := 2, d := 3 } = .ok .iprd ∧
    decodeRequest { cmd := 0x3800, a := 0x400001, b := 2, d := 3 } = .ok (.ipwr 0x400001) := by decide

theorem test_decode_flags :
    decodeRequest { cmd := 0x4000, a := 1, b := 2, d := 3 } = .ok .frd ∧
    decodeRequest { cmd := 0x4800, a := 1, b := 2, d := 3 } = .ok .fclr ∧
    decodeRequest { cmd := 0x5000, a := 1, b := 2, d := 3 } = .ok (.aluAdd 1 2) ∧
    decodeRequest { cmd := 0x5800, a := 5, b := 7, d := 3 } = .ok (.aluSub 5 7) ∧
    decodeRequest { cmd := 0x6000, a := 0x10, b := 0x11, d := 3 } = .ok (.aluCmp 0x10 0x11) := by decide

theorem test_decode_word_port :
    decodeRequest { cmd := 0x7000, a := 0x10, b := 2, d := 3 } = .ok (.brd64 0x10) ∧
    decodeRequest { cmd := 0x7800, a := 0x10, b := 0x1122334455667788, d := 3 } =
      .ok (.bwr64 0x10 0x1122334455667788) := by decide

theorem test_decode_reserved :
    decodeRequest { cmd := 0x0000, a := 1, b := 2, d := 3 } = .ok (.reservedOp0 0) ∧
    decodeRequest { cmd := 0x07FF, a := 1, b := 2, d := 3 } = .ok (.reservedOp0 0x7FF) ∧
    decodeRequest { cmd := 0x8000, a := 1, b := 2, d := 3 } = .ok (.reservedOp16to31 0) ∧
    decodeRequest { cmd := 0xF801, a := 1, b := 2, d := 3 } = .ok (.reservedOp16to31 0x7801) := by decide

/-- V7: words with a must-be-zero field set. -/
theorem test_decode_must_be_zero :
    ([0x0801, 0x0880, 0x0804, 0x2004, 0x2051, 0x6810, 0x1801].map fun w =>
      decodeRequest { cmd := w, a := 0, b := 0x9999, d := 0 }) =
    ([0x0801, 0x0880, 0x0804, 0x2004, 0x2051, 0x6810, 0x1801].map fun w => .error (.mustBeZero w)) := by decide

/-- The operand E of Part 3. -/
def rawE : RawOperand := { kind := 0, val := 0, sel := 0, parts := none }

/-- An operand of Part 3, (KIND,VAL,SEL). -/
def raw (kind : BitVec 3) (val : Word) (sel : BitVec 7) : RawOperand := { kind, val, sel, parts := none }

/-- The records of P4. -/
theorem test_decode_p4 :
    decodeRecord { tag := 0, src := raw 1 3 0, dst := raw 2 0 0x38 } = .ok (.mov (.imm 3) (.reg 7 0)) ∧
    decodeRecord { tag := 4, src := raw 3 0x400100 0, dst := rawE } = .ok (.call (.memDirect 0x400100) .empty) ∧
    decodeRecord { tag := 1, src := raw 2 0 0x28, dst := rawE } = .ok (.push (.reg 5 0) .empty) ∧
    decodeRecord { tag := 6, src := raw 2 0 0x30, dst := raw 2 0 0 } = .ok (.add (.reg 6 0) (.reg 0 0)) ∧
    decodeRecord { tag := 2, src := rawE, dst := raw 2 0 0x28 } = .ok (.pop .empty (.reg 5 0)) ∧
    decodeRecord { tag := 5, src := rawE, dst := rawE } = .ok (.ret .empty .empty) := by decide

/-- The records of P5, and the opcodes no program of Part 3 uses. -/
theorem test_decode_p5 :
    decodeRecord { tag := 7, src := raw 1 1 0, dst := raw 2 0 0 } = .ok (.sub (.imm 1) (.reg 0 0)) ∧
    decodeRecord { tag := 8, src := raw 1 0 0, dst := raw 3 0x7F000 0 } = .ok (.cmp (.imm 0) (.memDirect 0x7F000)) ∧
    decodeRecord { tag := 9, src := raw 3 0x400040 0, dst := rawE } = .ok (.jne (.memDirect 0x400040) .empty) ∧
    decodeRecord { tag := 3, src := rawE, dst := rawE } = .ok (.leave .empty .empty) ∧
    decodeRecord { tag := 10, src := raw 1 0x400000 0, dst := rawE } = .ok (.jmp (.imm 0x400000) .empty) := by decide

theorem test_decode_reserved_tags :
    decodeRecord { tag := 11, src := rawE, dst := rawE } = .ok (.reservedTag11 .empty .empty) ∧
    decodeRecord { tag := 12, src := rawE, dst := rawE } = .ok (.reservedTag12 .empty .empty) ∧
    decodeRecord { tag := 13, src := rawE, dst := rawE } = .ok (.reservedTag13 .empty .empty) ∧
    decodeRecord { tag := 14, src := rawE, dst := rawE } = .ok (.reservedTag14 .empty .empty) ∧
    decodeRecord { tag := 15, src := rawE, dst := rawE } = .ok (.reservedTag15 .empty .empty) ∧
    decodeRecord { tag := 0, src := raw 5 0 0, dst := rawE } = .error (.reservedKind 5) := by decide

/-- Log 11's layout: TAG in bits 3:0, src KIND above it, VAL, SEL, then dst. Here mov of 3 to rdi. -/
theorem test_decode_record_bits :
    decodeTableWord 8 0x06 = some (.add .empty .empty) ∧
    decodeTableWord 152 (0 + 1 * 2 ^ 4 + 3 * 2 ^ 7 + 2 * 2 ^ 78 + 0x38 * 2 ^ 145) =
      some (.mov (.imm 3) (.reg 7 0)) := by decide

/-- R312, R500: texts of P4, P5 and V8, and a name that is none. -/
theorem test_operand_text :
    recordOfText "mov" ["$3".toList, "%rdi".toList] = .ok { tag := 0, src := raw 1 3 0, dst := raw 2 0 0x38 } ∧
    recordOfText "pop" ["%rbp".toList] = .ok { tag := 2, src := rawE, dst := raw 2 0 0x28 } ∧
    recordOfText "jne" ["0x400040".toList] = .ok { tag := 9, src := raw 3 0x400040 0, dst := rawE } ∧
    recordOfText "push" ["%r16".toList] = .error .unknownRegister ∧
    recordOfText "imul" [] = .error .notImplemented := by decide +kernel

/-- R313, test by test; the parenthesis comes before `$` and `%`. -/
theorem test_classify :
    (["", "-8(%rbp)", "$(", "%rax)", "$3", "%rax", "400040", "rax"].map fun x => classify x.toList) =
      [.empty, .indirect, .indirect, .indirect, .immediate, .register, .direct, .direct] := by decide +kernel

/-- R314: a leading minus, parts left out, the scales, and `(rax)`. -/
theorem test_operand_text_address :
    decodeText "-8(%rbp,%rcx,4)".toList =
      .ok { kind := 4, val := 0xFFFFFFFFFFFFFFF8, sel := 0
            parts := some { base := some 5, index := some 1, scale := 4 } } ∧
    decodeText "(%rax)".toList =
      .ok { kind := 4, val := 0, sel := 0, parts := some { base := some 0, index := none, scale := 1 } } ∧
    decodeText "16(,%rax,8)".toList =
      .ok { kind := 4, val := 16, sel := 0, parts := some { base := none, index := some 0, scale := 8 } } ∧
    (["(%rax,,3)", "(%rax", "(%rax)8", "(%rax,%rcx,4,1)"].all fun x =>
      decodeText x.toList == .error .malformedOperand) = true := by decide +kernel

/-- R314: a scale is one of the four numbers as it is written, and a minus belongs to a displacement that is there. -/
theorem test_operand_text_scale :
    (["(%rax,,18446744073709551617)", "(%rax,,-0xFFFFFFFFFFFFFFFF)", "(%rax,,0)", "(%rax,,16)", "-(%rax)"].all fun x =>
      decodeText x.toList == .error .malformedOperand) = true := by decide +kernel

/-- Log 27: the leftmost error of an address text; the mnemonic before the operands, src before dst. -/
theorem test_operand_text_errors :
    decodeText "(%foo,,3)".toList = .error .unknownRegister ∧ decodeText "(%foo,,3,1)".toList = .error .malformedOperand ∧
    recordOfText "imul" ["%foo".toList] = .error .notImplemented ∧
    recordOfText "mov" ["(%rax,,3)".toList, "%foo".toList] = .error .malformedOperand := by decide +kernel

/-! ### The codec (V1, E1) -/

theorem test_codec :
    pageOffset 0xDEADBEEFCAFEBABE = 0xABE ∧ pageNumber 0xDEADBEEFCAFEBABE = 0xDBEEFCAFEB ∧
    blockOffset 0xDEADBEEFCAFEBABE = 0x3E ∧ setIndex 0xDEADBEEFCAFEBABE = 0x2A ∧
    setIndex 0x12345678 = 0x19 ∧ pageNumber 0x0010000000000000 = 0 := by decide

theorem test_codec_replaces :
    withPageNumber 0x1234567 0x10000000005 = 0x5567 ∧ withPageOffset 0x12345 0xABCDE = 0x12CDE ∧
    withPageNumber 0xFFFFFFFFFFFFFFFF 0 = 0xFFF0000000000FFF := by decide

/-! ### The cache (V2) -/

/-- Row 1. -/
theorem test_crd_miss :
    after (fun t => (t.resp, t.setAt 0)) (exec (.crd 0x1005) v2) =
      some (some { status := .ok, rdata := 0x5A }, [lineOf .clean 1 0 0 v2mem, Line.reset]) := by decide

/-- P1 step 6's kind of miss: the Dirty victim goes back to 0x0 first. -/
theorem test_crd_evicts :
    after (fun t => (t.mem.read 0, (t.setAt 0).map fun l => (l.state, l.tag, l.time)))
      (exec (.crd 0x2000) v2full) =
      some (0xAA, [(.clean, 2, 0), (.clean, 1, 1)]) := by decide

/-- Row 2, with row 3's unchanged store. -/
theorem test_cwr_hit :
    after (fun t => ((t.setAt 0).map fun l => (l.state, l.tag, l.time), t.eff 0x1005, t.mem))
      (exec (.cwr 0x1005 0xA5) v2clean) =
      some ([(.dirty, 1, 0), (.invalid, 0, -1)], 0xA5, v2mem) := by decide

/-- The corner: a write miss with a Dirty victim. -/
theorem test_cwr_evicts :
    after (fun t => ((t.setAt 0).map fun l => (l.state, l.tag, l.time), t.eff 0x2003, t.mem.read 0))
      (exec (.cwr 0x2003 0x77) v2full) =
      some ([(.dirty, 2, 0), (.clean, 1, 1)], 0x77, 0xAA) := by decide

/-! ### The walker (V3) -/

theorem test_xlt :
    after (·.resp) (exec (.xlt 0xDEADBEEF0123 0x1000) (p4.setPte 3 0x4000 (pte 7))) =
      some (some { status := .ok, rdata := 0x7123 }) ∧
    after (·.resp) (exec (.xlt 0x123 0x1000) (p4.setPte 3 0x4000 (pte 0xFFFFFFFFFFFFFFFF))) =
      some (some { status := .ok, rdata := 0x000FFFFFFFFFF123 }) := by decide

theorem test_xlt_faults :
    after (·.resp) (exec (.xlt 0x123 0x2000) p4) = some (some { status := .pageFault, rdata := 1 }) ∧
    after (·.resp) (exec (.xlt 0x123 0x1000) (p4.setPte 2 0x3000 { present := false, base := 0x4000 })) =
      some (some { status := .pageFault, rdata := 3 }) := by decide

/-- V7: D[7:1] is ignored, so the entry is not present. -/
theorem test_ptwr :
    after (fun t => (t.resp, lookupKey t.pt[3] 0x4000))
      (step (asked p4 { cmd := 0x680C, a := 0x4000, b := 0x7, d := 0xFE })) =
      some (some { status := .ok, rdata := 0 }, some { present := false, base := 7 }) := by decide

/-! ### The register file (V4) -/

/-- Rows 6 and 7. -/
theorem test_rrd :
    after (·.resp) (exec (.rrd 0 4) (p4with 0 0x1122334455667788)) = some (some { status := .ok, rdata := 0x77 }) ∧
    after (·.resp) (exec (.rrd 0 1) (p4with 0 0x1122334455667788)) =
      some (some { status := .ok, rdata := 0x55667788 }) := by decide

/-- Rows 1, 3, 4 and 12: the model fault Unwritten is recorded for rows 1 and 4 alone. -/
theorem test_rrd_unwritten :
    after (·.unwritten) (exec (.rrd 0 0) State.reset) = some true ∧
    after (fun t => (t.resp, t.unwritten)) (exec (.rrd 0 3) (State.reset.setCell 0 0xFF 1)) =
      some (some { status := .ok, rdata := 0xFF }, false) ∧
    after (·.unwritten) (exec (.rrd 0 2) (State.reset.setCell 0 0xFF 1)) = some true ∧
    after (fun t => (t.resp, t.unwritten)) (exec (.rrd 4 4) State.reset) =
      some (some { status := .unknownRegister, rdata := 0x2240 }, false) := by decide

/-- Rows 8 and 10. -/
theorem test_rwr :
    after (·.cell 0) (exec (.rwr 0 4 0xAB) (p4with 0 0x1122334455667788)) = some 0x112233445566AB88 ∧
    after (·.cell 0) (exec (.rwr 0 1 0) (p4with 0 0x112233445566FFFF)) = some 0x1122334400000000 := by decide

/-- Rows 2 and 13. -/
theorem test_rwr_lane :
    after (fun t => (t.marks 0, (t.cell 0).extractLsb' 0 8)) (exec (.rwr 0 3 0x1FF) State.reset) = some (1, 0xFF) ∧
    after (·.resp) (exec (.rwr 0 5 0) State.reset) = some (some { status := .unknownRegister, rdata := 0x2850 }) := by
  decide

/-- Rows 14 and 15. -/
theorem test_iprd :
    after (·.unwritten) (exec .iprd State.reset) = some true ∧
    after (fun t => (t.resp, t.unwritten)) (exec .iprd { p4 with rip := 0x400001 }) =
      some (some { status := .ok, rdata := 0x400001 }, false) := by
  decide

/-- Row 15. -/
theorem test_ipwr :
    after (fun t => (t.rip, t.ripWr)) (exec (.ipwr 0x400001) State.reset) = some (0x400001, true) := by decide

/-! ### The flag unit (V5): RDATA and what FRD then packs -/

theorem test_add_command :
    after (fun t => (t.resp, packFlags t.flags)) (exec (.aluAdd 0x7FFFFFFFFFFFFFFF 1) State.reset) =
      some (some { status := .ok, rdata := 0x8000000000000000 }, 0xC) ∧
    after (fun t => (t.resp, packFlags t.flags)) (exec (.aluAdd 0x8000000000000000 0xFFFFFFFFFFFFFFFF) State.reset) =
      some (some { status := .ok, rdata := 0x7FFFFFFFFFFFFFFF }, 0x9) := by decide

theorem test_sub_command :
    after (fun t => (t.resp, packFlags t.flags)) (exec (.aluSub 0 0x8000000000000000) State.reset) =
      some (some { status := .ok, rdata := 0x8000000000000000 }, 0xD) ∧
    after (fun t => (t.resp, packFlags t.flags)) (exec (.aluSub 0x8000000000000000 1) State.reset) =
      some (some { status := .ok, rdata := 0x7FFFFFFFFFFFFFFF }, 0x8) := by decide

theorem test_cmp_command :
    after (fun t => (t.resp, packFlags t.flags)) (exec (.aluCmp 5 7) State.reset) =
      some (some { status := .ok, rdata := 0 }, 0x5) := by decide

theorem test_frd :
    after (·.resp) (exec .frd { p4 with flags := { cf := true, zf := false, sf := true, ovf := false } }) =
      some (some { status := .ok, rdata := 0x5 }) := by decide

theorem test_fclr :
    after (fun t => (t.resp, packFlags t.flags))
      (exec .fclr { p4 with flags := { cf := true, zf := true, sf := true, ovf := true } }) =
      some (some { status := .ok, rdata := 0 }, 0) := by decide

/-! ### The word port (V6) -/

theorem test_bwr64 :
    after (fun t => (t.resp, t.mem.read 0x10, t.mem.read 0x17)) (exec (.bwr64 0x10 0x1122334455667788) State.reset) =
      some (some { status := .ok, rdata := 0 }, 0x88, 0x11) ∧
    after (·.resp) (exec (.bwr64 0xFFFFFFFFFFFFFFF8 1) State.reset) =
      some (some { status := .outOfBounds, rdata := 0xFFFFFFFFFFFFFFF8 }) := by decide

/-- V2 row 3 (byte 5 of the word), and rows 4 and 6. -/
theorem test_brd64 :
    after (·.resp) (exec (.brd64 0x1000) v2) = some (some { status := .ok, rdata := 0x00005A0000000000 }) ∧
    after (·.resp) (exec (.brd64 0xFFF8) v2) = some (some { status := .ok, rdata := 0 }) ∧
    after (·.resp) (exec (.brd64 0x10004) v2) = some (some { status := .misaligned, rdata := 0x10004 }) := by decide

/-! ### Reserved words and errors on the port (V7) -/

theorem test_reserved_words :
    ([0x0000, 0x8000, 0xF800, 0x0801, 0x0880, 0x2051].map fun w =>
      after (·.resp) (step (asked p4 { cmd := w, a := 0, b := 0, d := 0 }))) =
    ([0x0000, 0x8000, 0xF800, 0x0801, 0x0880, 0x2051].map fun w =>
      some (some { status := .notImplemented, rdata := w })) := by decide

theorem test_errors_in_order :
    after (·.resp) (step (asked p4 { cmd := 0x2050, a := 0, b := 0, d := 0 })) =
      some (some { status := .unknownRegister, rdata := 0x2050 }) ∧
    after (·.resp) (step (asked p4 { cmd := 0x0800, a := 0x10000, b := 0, d := 0 })) =
      some (some { status := .outOfBounds, rdata := 0x10000 }) := by decide

/-! ### The engine (V8, P4, P5) -/

/-- V8 row 8, and P4 step 5. -/
theorem test_mov_to_register :
    after (fun t => (t.cell 0, t.flags, t.rip)) (exec (.mov (.imm 0) (.reg 0 1)) (p4with 0 0x1122334455667788)) =
      some (0x1122334400000000, Flags.clear, 0x400040) ∧
    after (·.cell 5) (exec (.mov (.reg 4 0) (.reg 5 0)) p4) = some 0x7FFE0 := by decide

/-- P5's store to 0x7F000, which is pa 0x5000. -/
theorem test_mov_to_memory :
    after (fun t => (t.effWord 0x5000, t.mem, t.rip)) (exec (.mov (.reg 0 0) (.memDirect 0x7F000)) (p4with 0 2)) =
      some (2, [], 0x400040) := by decide

/-- V8 rows 1 and 12. -/
theorem test_push :
    after (fun t => (t.effWord 0x5FD8, t.cell 4)) (exec (.push (.reg 4 0) .empty) p4) = some (0x7FFE0, 0x7FFD8) ∧
    after (fun t => (t.effWord 0x5FF8, t.cell 4)) (exec (.push (.imm 1) .empty) (p4with 4 0)) =
      some (1, 0xFFFFFFFFFFFFFFF8) := by decide +kernel

/-- P4's store with a word at va 0x7FFD0. -/
def p4word (v : Word) : State := { p4 with mem := Memory.writeWord [] 0x5FD0 v }

/-- V8 rows 2 and 11. -/
theorem test_pop :
    after (·.cell 4) (exec (.pop .empty (.reg 4 0)) ((p4word 0x12340).setCell 4 0x7FFD0 0xFF)) = some 0x12348 ∧
    refuses (.pageCrossingWord false) (exec (.pop .empty (.reg 0 0)) (p4with 4 0x7FFFC)) = true := by decide

/-- V8 row 3. -/
theorem test_leave :
    after (fun t => (t.cell 4, t.cell 5, t.rip))
      (exec (.leave .empty .empty) ((p4word 0x7FFF0).setCell 5 0x7FFD0 0xFF)) =
      some (0x7FFD8, 0x7FFF0, 0x400040) := by decide

/-- P4 step 3. -/
theorem test_call :
    after (fun t => (t.effWord 0x5FD8, t.cell 4, t.rip)) (exec (.call (.memDirect 0x400100) .empty)
      { p4 with rip := 0x400080 }) = some (0x4000C0, 0x7FFD8, 0x400100) := by decide +kernel

/-- P4 step 9's kind of return. -/
theorem test_ret :
    after (fun t => (t.cell 4, t.rip)) (exec (.ret .empty .empty) ((p4word 0x4000C0).setCell 4 0x7FFD0 0xFF)) =
      some (0x7FFD8, 0x4000C0) := by decide

/-- P4 step 7, and V8 row 9. -/
theorem test_add :
    after (fun t => (t.cell 0, t.flags)) (exec (.add (.reg 6 0) (.reg 0 0)) ((p4with 0 3).setCell 6 4 0xFF)) =
      some (7, Flags.clear) ∧
    after (·.run) (exec (.add (.reg 0 0) (.memDirect 0x7F000)) (p4with 0 1)) =
      some (.faulted .notImplemented none) := by decide

/-- V8 row 7. -/
theorem test_sub :
    after (fun t => (t.cell 0, t.flags)) (exec (.sub (.imm 7) (.reg 0 0)) (p4with 0 5)) =
      some (0xFFFFFFFFFFFFFFFE, { cf := true, zf := false, sf := true, ovf := false }) := by decide

/-- P5's compare: 0 minus 0 first, then 2 minus 0; dst minus src. -/
theorem test_cmp :
    after (fun t => (t.flags.zf, t.rip)) (exec (.cmp (.imm 0) (.memDirect 0x7F000)) p4) = some (true, 0x400040) ∧
    after (fun t => (t.flags.zf, t.flags.cf)) (exec (.cmp (.imm 0) (.memDirect 0x7FFD0)) (p4word 2)) =
      some (false, false) := by decide

/-- V8 rows 4 and 5. -/
theorem test_jne :
    after (·.rip) (exec (.jne (.memDirect 0x400040) .empty)
      { p4 with rip := 0x400100, flags := { Flags.clear with zf := true } }) = some 0x400140 ∧
    after (·.rip) (exec (.jne (.memDirect 0x400040) .empty) { p4 with rip := 0x400100 }) = some 0x400040 := by decide

/-- V8 rows 6 and 10. -/
theorem test_jmp :
    after (fun t => (t.rip, t.flags)) (exec (.jmp (.memDirect 0x400000) .empty)
      { p4 with rip := 0x400100, flags := { Flags.clear with cf := true } }) = some (0x400000, Flags.clear) ∧
    after (·.run) (exec (.jmp (.memIndirect { disp := 0, base := some 0, index := none, scale := 1 }) .empty)
      (p4with 0 1)) = some (.faulted .notImplemented none) := by decide

/-- R671, through the step. -/
theorem test_reserved_tags :
    ([11, 12, 13, 14, 15].map fun k =>
      after (·.run) (step (launched p4 { tag := k, src := rawE, dst := rawE }))) =
    ([11, 12, 13, 14, 15].map fun _ => some (.faulted .notImplemented none)) := by decide

/-- V8 rows 13 and 14. -/
theorem test_engine_stops :
    faults (.noInstruction false) (step { p4 with run := .running 0x4000C0 }) = true ∧
    after (fun t => (t.run, t.cell 4)) (exec (.push (.imm 1) .empty)
      { p4with 5 0x9999 with params := { Params.default with rootSrc := .gprRbp } }) =
      some (.faulted .pageFault (some 1), 0x7FFE0) := by decide

/-- P4 step 10; and R703: a run that read rip before anything wrote it has no normal end. -/
theorem test_engine_ends :
    after (fun t => (t.run, t.unwritten)) (step { p4 with rip := 0x4000C0, run := .running 0x4000C0 }) =
      some (.ended, false) ∧
    after (fun t => (t.run, t.unwritten)) (step { State.reset with run := .running 0 }) = some (.ended, true) := by
  decide

/-- R105, R703: a stop carries the record of Unwritten: rip at reset, and a base that nothing has written. -/
theorem test_stops_carry_unwritten :
    faults (.noInstruction true) (step { State.reset with run := .running 0x4000C0 }) = true ∧
    refuses (.pageCrossingWord true) (exec
      (.push (.memIndirect { disp := 0x7FFFC, base := some 0, index := none, scale := 1 }) .empty) p4) = true := by
  decide

/-- R654: add's destination is fixed at the start, so that a RWR before its first XLT does not reach it; the write-back
then overwrites what the RWR wrote. -/
theorem test_add_fixes_destination :
    after (fun t => (t.cell 0, t.inbox)) (exec (.add (.memDirect 0x7FFD0) (.reg 0 0))
      { (p4word 2).setCell 0 3 0xFF with
        inbox := [.command { cmd := 0x2800, a := 0x99, b := 0, d := 0 }], gaps := [0, 1] }) = some (5, []) := by
  decide +kernel

/-- R657: nothing runs on after a fault. -/
theorem test_faulted_stays :
    after (fun t => (t.run, t.rip)) (step { launched p4 { tag := 3, src := rawE, dst := rawE } with
      run := .faulted .pageFault none }) = some (.faulted .pageFault none, 0x400000) := by decide

/-- R700: the seven status numbers. -/
theorem test_status_codes :
    ([.ok, .malformedOperand, .unknownRegister, .notImplemented, .outOfBounds, .pageFault, .misaligned].map
      Status.code) = [0, 1, 2, 3, 4, 5, 6] := by decide

/-- The host's PTWR that clears the L4 entry of P4. -/
def clearL4 : Request := { cmd := 0x680C, a := 0x4000, b := 5, d := 0 }

/-- The host's PTWR that moves P4's page to 0x6000. -/
def moveL4 : Request := { cmd := 0x680C, a := 0x4000, b := 6, d := 1 }

/-- R804, R455: a PTWR before the XLT of byte 2 of a store. The walk of byte 2 fails and two bytes are stored; or it
succeeds, and the word's upper six bytes are at the new address. -/
theorem test_ptwr_lands :
    after (fun t => (t.run, t.effWord 0x5000, t.inbox)) (exec (.mov (.imm 0x1122334455667788) (.memDirect 0))
      { p4 with inbox := [.command clearL4], gaps := [0, 0, 0, 0, 1] }) =
      some (.faulted .pageFault (some 4), 0x7788, []) ∧
    after (fun t => (t.run, t.effWord 0x5000, t.effWord 0x6000)) (exec (.mov (.imm 0x1122334455667788) (.memDirect 0))
      { p4 with inbox := [.command moveL4], gaps := [0, 0, 0, 0, 1] }) =
      some (.idle, 0x7788, 0x1122334455660000) := by decide +kernel

/-- From reset a launch is what makes the engine run (log 8). -/
theorem test_launch :
    after (·.run) (step { State.reset with inbox := [.launch [] 0x4000C0] }) = some (.running 0x4000C0) ∧
    after (·.run) (step State.reset) = some .idle := by decide

/-! ### Witnesses: states and operands that meet each statement's hypotheses -/

theorem witness_AddressNamesOneByte :
    (0x12345678 : Word).toNat < 2 ^ 52 ∧ tagOf 0x12345678 = 0x12345 ∧ setIndexOf 0x12345678 = 0x19 ∧
    offsetOf 0x12345678 = 0x38 := by decide

/-- The last address in bounds. -/
theorem witness_ClientSeesPlainMemory :
    v2clean.Inv ∧ v2clean.Coherent ∧ (0xFFFF : Word).toNat < v2clean.params.memSize :=
  ⟨inv_v2clean, coherent_v2clean, by decide⟩

/-- The first address out of bounds, and the lowest with a bit above 51. -/
theorem witness_CacheOutOfBounds :
    v2clean.params.memSize ≤ (0x10000 : Word).toNat ∧ v2clean.params.wf ∧
    (0x0010000000000000 : Word).extractLsb' 52 12 ≠ 0 := by decide

/-- Ways 0 and 1 of a full set. -/
theorem witness_HitLeavesTagsAndStore :
    v2full.Inv ∧ (0x1005 : Word).toNat < v2full.params.memSize ∧ 1 < (v2full.setAt (setIndexOf 0x1005)).length ∧
    (v2full.way (setIndexOf 0x1005) 1).holds (tagOf 0x1005) = true ∧
    (v2full.way (setIndexOf 0x0) 0).holds (tagOf 0x0) = true :=
  ⟨inv_v2full, by decide, by decide, by decide, by decide⟩

theorem witness_VictimIsLowestInvalidElseOldest :
    0 < (v2full.setAt 0).length ∧ (∀ l ∈ v2full.setAt 0, l.state ≠ .invalid) ∧
    0 < (v2clean.setAt 0).length ∧ (∃ l ∈ v2clean.setAt 0, l.state = .invalid) :=
  ⟨by decide, by decide, by decide, by decide⟩

/-- A Dirty victim. -/
theorem witness_MissFillsTheVictim_dirty :
    v2full.Inv ∧ (0x2003 : Word).toNat < v2full.params.memSize ∧
    (∀ l ∈ v2full.setAt (setIndexOf 0x2003), l.holds (tagOf 0x2003) = false) ∧
    0 = victim (v2full.setAt (setIndexOf 0x2003)) ∧ (v2full.way (setIndexOf 0x2003) 0).state = .dirty :=
  ⟨inv_v2full, by decide, by decide, by decide, by decide⟩

/-- An Invalid victim beside a Clean line. -/
theorem witness_MissFillsTheVictim_invalid :
    v2clean.Inv ∧ (0x2003 : Word).toNat < v2clean.params.memSize ∧
    (∀ l ∈ v2clean.setAt (setIndexOf 0x2003), l.holds (tagOf 0x2003) = false) ∧
    1 = victim (v2clean.setAt (setIndexOf 0x2003)) ∧ (v2clean.way (setIndexOf 0x2003) 1).state = .invalid :=
  ⟨inv_v2clean, by decide, by decide, by decide, by decide⟩

/-- A hit beside a saturated line, whose time stays at 2^63 - 1. -/
theorem witness_TouchAgesTheSet :
    v2saturated.Inv ∧ (0x1005 : Word).toNat < v2saturated.params.memSize ∧
    after (fun t => (t.way 0 0).time.toInt) (exec (.crd 0x1005) v2saturated) = some (2 ^ 63 - 1) :=
  ⟨inv_v2saturated, by decide, by decide⟩

/-- A command step from a state with a valid line. -/
theorem witness_NoStepInvalidatesALine :
    (∃ t, step (asked v2clean { cmd := 0x0800, a := 0x1005, b := 0, d := 0 }) = .next t) ∧
    0 < (v2clean.setAt 0).length ∧ (v2clean.way 0 0).valid :=
  ⟨⟨_, rfl⟩, by decide, by decide⟩

theorem witness_XltComposes :
    PresentAt p4.pt[0] 0x1000 0x2000 ∧ PresentAt p4.pt[1] 0x2000 0x3000 ∧ PresentAt p4.pt[2] 0x3000 0x4000 ∧
    PresentAt p4.pt[3] 0x4000 5 := ⟨rfl, rfl, rfl, rfl⟩

theorem absent_of_none {m : PageMap} {key : Word} (h : lookupKey m key.toNat = none) : AbsentAt m key := by
  intro e h'
  rw [h] at h'
  cases h'

theorem absent_of_some {m : PageMap} {key b : Word} (h : lookupKey m key.toNat = some { present := false, base := b }) :
    AbsentAt m key := by
  intro e h'
  rw [h] at h'
  cases h'
  rfl

/-- Levels 1 to 4, the last with an entry that is not present. -/
theorem witness_XltFaultsAtFirstMissingLevel :
    AbsentAt p4.pt[0] 0x2000 ∧
    (PresentAt (p4.setPte 0 0x1000 (pte 0x9999)).pt[0] 0x1000 0x9999 ∧
      AbsentAt (p4.setPte 0 0x1000 (pte 0x9999)).pt[1] 0x9999) ∧
    (PresentAt p4.pt[1] 0x2000 0x3000 ∧
      AbsentAt (p4.setPte 2 0x3000 { present := false, base := 0x4000 }).pt[2] 0x3000) ∧
    (PresentAt p4.pt[2] 0x3000 0x4000 ∧
      AbsentAt (p4.setPte 3 0x4000 { present := false, base := 5 }).pt[3] 0x4000) :=
  ⟨absent_of_none rfl, ⟨rfl, absent_of_none rfl⟩, ⟨rfl, absent_of_some rfl⟩, ⟨rfl, absent_of_some rfl⟩⟩

theorem witness_XltIgnoresPageNumber :
    (0xDEADBEEF0123 : Word).extractLsb' 0 12 = (0x123 : Word).extractLsb' 0 12 := by decide

/-- The same key at another level, and another key at the same level. -/
theorem witness_PtwrReplacesOneEntry :
    ¬((2 : Fin 4).val = (1 : BitVec 2).toNat ∧ 0x2000 = (0x2000 : Word).toNat) ∧
    ¬((1 : Fin 4).val = (1 : BitVec 2).toNat ∧ 0x2001 = (0x2000 : Word).toNat) := by decide

/-- VIEW 4 of cells 3 and 4, and VIEW 5: where the clauses meet. -/
theorem witness_SelectorsNameViews :
    ((4 : BitVec 3) = 4 ∧ (3 : BitVec 4).toNat < 4) ∧ ((4 : BitVec 3) = 4 ∧ 4 ≤ (4 : BitVec 4).toNat) ∧
    5 ≤ (5 : BitVec 3).toNat := by decide

/-- All lanes of ah written, and ax with lane 1 unwritten (V4 rows 6 and 4): both cases of the record. -/
theorem witness_RrdReadsView :
    (viewOfSel 0 4 = some .bh ∧
      ∀ j < 8, viewLo .bh ≤ 8 * j → 8 * j < viewLo .bh + viewWidth .bh → ((p4with 0 0).marks 0).getLsbD j = true) ∧
    (viewOfSel 0 2 = some .w ∧
      ∃ j < 8, viewLo .w ≤ 8 * j ∧ 8 * j < viewLo .w + viewWidth .w ∧
        ((State.reset.setCell 0 0xFF 1).marks 0).getLsbD j = false) := by decide

theorem witness_RwrWritesView : viewOfSel 15 3 = some .bl ∧ viewOfSel 3 4 = some .bh := by decide

/-- Every command that completes and is none of the four that write flags is one; CRD is the witness. -/
theorem witness_OnlyFlagCommandsChangeFlags :
    Instr.isCommand (.crd 0x1005) = true ∧ (∃ t, exec (.crd 0x1005) v2 = .next t) ∧
    (∀ a b, Instr.crd 0x1005 ≠ .aluAdd a b) ∧ (∀ a b, Instr.crd 0x1005 ≠ .aluSub a b) ∧
    (∀ a b, Instr.crd 0x1005 ≠ .aluCmp a b) ∧ Instr.crd 0x1005 ≠ .fclr ∧
    (∃ t, exec (.aluAdd 1 2) v2 = .next t) ∧ (∃ t, exec (.aluSub 1 2) v2 = .next t) ∧
    (∃ t, exec (.aluCmp 1 2) v2 = .next t) ∧ (∃ t, exec .fclr v2 = .next t) ∧ ∃ t, exec .frd v2 = .next t :=
  ⟨rfl, ⟨_, rfl⟩, by simp, by simp, by simp, by simp, ⟨_, rfl⟩, ⟨_, rfl⟩, ⟨_, rfl⟩, ⟨_, rfl⟩, ⟨_, rfl⟩⟩

/-- The last word in bounds (V6 row 4). -/
theorem witness_Brd64ReadsStore :
    (0xFFF8 : Word).toNat % 8 = 0 ∧ (0xFFF8 : Word).toNat + 8 ≤ State.reset.params.memSize := by decide

theorem witness_Bwr64WritesStore :
    (0xFFF8 : Word).toNat % 8 = 0 ∧ (0xFFF8 : Word).toNat + 8 ≤ State.reset.params.memSize ∧
    ¬((0xFFF8 : Word).toNat ≤ 0xFFF7 ∧ 0xFFF7 < (0xFFF8 : Word).toNat + 8) := by decide

/-- V6 rows 5 to 7. -/
theorem witness_WordPortChecks :
    (0x10004 : Word).toNat % 8 ≠ 0 ∧
    ((0x10000 : Word).toNat % 8 = 0 ∧ State.reset.params.memSize < (0x10000 : Word).toNat + 8) ∧
    ((0xFFFFFFFFFFFFFFF8 : Word).toNat % 8 = 0 ∧
      State.reset.params.memSize < (0xFFFFFFFFFFFFFFF8 : Word).toNat + 8) := by decide

/-- A host write to a held block, and one to a block no line holds. -/
theorem witness_HostWriteHazard :
    ((0x1000 : Word).toNat % 8 = 0 ∧ (0x1000 : Word).toNat + 8 ≤ v2clean.params.memSize ∧
      (∃ t, exec (.bwr64 0x1000 7) v2clean = .next t) ∧ v2clean.holds 0x1005) ∧
    ((∃ t, exec (.bwr64 0x2000 7) v2clean = .next t) ∧ (0x2007 : Word).toNat = (0x2000 : Word).toNat + 7 ∧
      ¬ v2clean.holds 0x2007) := by
  refine ⟨⟨by decide, by decide, ⟨_, rfl⟩, ?_⟩, ⟨_, rfl⟩, by decide, ?_⟩ <;> unfold State.holds <;> decide

/-- OP 0 and 16, the highest word of OP 0 and of OP 31. -/
theorem witness_ReservedOpcodes :
    (asked p4 { cmd := 0x07FF, a := 1, b := 2, d := 3 }).inbox =
      .command { cmd := 0x07FF, a := 1, b := 2, d := 3 } :: [] ∧
    (0x07FF : BitVec 16).toNat / 2048 = 0 ∧ 16 ≤ (0x8000 : BitVec 16).toNat / 2048 ∧
    16 ≤ (0xFFFF : BitVec 16).toNat / 2048 := by decide

/-- V7: a CELL set for CRD, an LVL set for RRD, an RSV set for XLT; and two CRD requests that differ in B and D. -/
theorem witness_UnusedFieldsAndBuses :
    let r : Request := { cmd := 0x0800, a := 5, b := 1, d := 1 }
    let r' : Request := { cmd := 0x0800, a := 5, b := 2, d := 3 }
    ((asked p4 r).inbox = .command r :: [] ∧ opOf 0x0880 ≠ 4 ∧ opOf 0x0880 ≠ 5 ∧ cellOf 0x0880 ≠ 0) ∧
    (opOf 0x2004 ≠ 13 ∧ lvlOf 0x2004 ≠ 0) ∧ (0x1801 : BitVec 16).extractLsb' 0 2 ≠ 0 ∧
    (r.cmd = r'.cmd ∧ ((opOf r.cmd).toNat ∈ [1, 2, 3, 5, 7, 10, 11, 12, 13, 14, 15] → r.a = r'.a) ∧
      ((opOf r.cmd).toNat ∈ [3, 10, 11, 12, 13, 15] → r.b = r'.b) ∧ ((opOf r.cmd).toNat = 2 → r.d = r'.d) ∧
      ((opOf r.cmd).toNat = 13 → r.d.getLsbD 0 = r'.d.getLsbD 0)) := by decide

/-- V7's out-of-bounds CRD. -/
theorem witness_ErrorsChangeNothing :
    (asked p4 { cmd := 0x0800, a := 0x10000, b := 0, d := 0 }).inbox =
      .command { cmd := 0x0800, a := 0x10000, b := 0, d := 0 } :: [] ∧
    ∃ t, step (asked p4 { cmd := 0x0800, a := 0x10000, b := 0, d := 0 }) = .next t ∧
      t.resp = some { status := .outOfBounds, rdata := 0x10000 } ∧ Status.outOfBounds ≠ .ok :=
  ⟨rfl, _, rfl, rfl, by decide⟩

/-- V4 row 2, and row 1. -/
theorem witness_EveryRequestIsAnswered :
    (asked State.reset { cmd := 0x2830, a := 0x1FF, b := 0, d := 0 }).inbox =
      .command { cmd := 0x2830, a := 0x1FF, b := 0, d := 0 } :: [] ∧
    (asked State.reset { cmd := 0x2000, a := 0, b := 0, d := 0 }).inbox =
      .command { cmd := 0x2000, a := 0, b := 0, d := 0 } :: [] := by decide

/-- Each alternative's command completes. -/
theorem witness_CommandFrame :
    (Instr.isCommand (.rwr 0 0 1) = true ∧ ∃ t, exec (.rwr 0 0 1) v2 = .next t) ∧
    (Instr.isCommand (.ipwr 1) = true ∧ ∃ t, exec (.ipwr 1) v2 = .next t) ∧
    (Instr.isCommand (.ptwr 0 1 2 true) = true ∧ ∃ t, exec (.ptwr 0 1 2 true) v2 = .next t) ∧
    (Instr.isCommand (.cwr 0 1) = true ∧ ∃ t, exec (.cwr 0 1) v2 = .next t) ∧
    (Instr.isCommand (.bwr64 0 1) = true ∧ ∃ t, exec (.bwr64 0 1) v2 = .next t) ∧
    (Instr.isCommand (.rrd 0 0) = true ∧ ∃ t, exec (.rrd 0 0) v2 = .next t) :=
  ⟨⟨rfl, _, rfl⟩, ⟨rfl, _, rfl⟩, ⟨rfl, _, rfl⟩, ⟨rfl, _, rfl⟩, ⟨rfl, _, rfl⟩, ⟨rfl, _, rfl⟩⟩

/-- V8 row 8's mov, and one from memory. -/
theorem witness_MovToRegister :
    p4.Inv ∧ p4.Coherent ∧ p4.gaps = [] ∧
    (asSource (.imm 0) = some (.imm 0) ∧ viewOfSel 0 1 = some .d ∧ p4.sourceValue (.imm 0) = some 0) ∧
    (asSource (.memDirect 0x7FFD0) = some (.mem (directAddr 0x7FFD0)) ∧
      p4.sourceValue (.mem (directAddr 0x7FFD0)) = some 0) :=
  ⟨inv_p4, coherent_p4, rfl, by decide, by decide⟩

/-- P5's store, and one through disp(base, index, scale) to the last word of a page. -/
theorem witness_MovToMemory :
    p4.Inv ∧ p4.Coherent ∧ p4.gaps = [] ∧ asSource (.imm 7) = some (.imm 7) ∧ p4.sourceValue (.imm 7) = some 7 ∧
    (asDest (.memDirect 0x7F000) = some (.mem (directAddr 0x7F000)) ∧
      p4.wordAddr (p4.ea (directAddr 0x7F000)) = some 0x5000) ∧
    (p4.ea { disp := 0xFFFFFFFFFFE00088, base := some 5, index := some 4, scale := 4 } = 0x7FFF8 ∧
      p4.wordAddr 0x7FFF8 = some 0x5FF8) :=
  ⟨inv_p4, coherent_p4, rfl, rfl, rfl, by decide, by decide⟩

/-- V8 row 1. -/
theorem witness_PushStores :
    p4.Inv ∧ p4.Coherent ∧ p4.gaps = [] ∧ asSource (.reg 4 0) = some (.reg 4 0) ∧
    p4.sourceValue (.reg 4 0) = some 0x7FFE0 ∧ p4.wordAddr (p4.cell rspCell - 8) = some 0x5FD8 :=
  ⟨inv_p4, coherent_p4, rfl, rfl, by decide, by decide⟩

/-- V8 row 2's pop of rsp, and a pop of another cell. -/
theorem witness_PopLoads :
    p4.Inv ∧ p4.Coherent ∧ p4.gaps = [] ∧ viewOfSel rspCell 0 = some .q ∧ viewOfSel 0 0 = some .q ∧
    (0 : BitVec 4) ≠ rspCell ∧ p4.wordValue (p4.cell rspCell) = some 0 :=
  ⟨inv_p4, coherent_p4, rfl, rfl, rfl, by decide, by decide⟩

theorem witness_LeaveUnwinds :
    p4.Inv ∧ p4.Coherent ∧ p4.gaps = [] ∧ p4.wordValue (p4.cell rbpCell) = some 0 :=
  ⟨inv_p4, coherent_p4, rfl, by decide⟩

/-- P4 step 3. -/
theorem witness_CallStoresReturn :
    p4.Inv ∧ p4.Coherent ∧ p4.gaps = [] ∧ asTarget (.memDirect 0x400100) = some (.literal 0x400100) ∧
    p4.targetValue (.literal 0x400100) = some 0x400100 ∧ p4.wordAddr (p4.cell rspCell - 8) = some 0x5FD8 :=
  ⟨inv_p4, coherent_p4, rfl, rfl, rfl, by decide⟩

theorem witness_RetReturns :
    p4.Inv ∧ p4.Coherent ∧ p4.gaps = [] ∧ p4.wordValue (p4.cell rspCell) = some 0 :=
  ⟨inv_p4, coherent_p4, rfl, by decide⟩

/-- A source in memory and one that is the destination. -/
theorem witness_AddSubToRegister :
    p4.Inv ∧ p4.Coherent ∧ p4.gaps = [] ∧ viewOfSel 4 0 = some .q ∧ p4.regValue 4 0 = some 0x7FFE0 ∧
    (asSource (.reg 4 0) = some (.reg 4 0) ∧ p4.sourceValue (.reg 4 0) = some 0x7FFE0) ∧
    (asSource (.memDirect 0x7F000) = some (.mem (directAddr 0x7F000)) ∧
      p4.sourceValue (.mem (directAddr 0x7F000)) = some 0) :=
  ⟨inv_p4, coherent_p4, rfl, rfl, by decide, by decide, by decide⟩

/-- P5's compare. -/
theorem witness_CmpSetsFlags :
    p4.Inv ∧ p4.Coherent ∧ p4.gaps = [] ∧ asSource (.imm 0) = some (.imm 0) ∧
    asDest (.memDirect 0x7F000) = some (.mem (directAddr 0x7F000)) ∧ p4.sourceValue (.imm 0) = some 0 ∧
    p4.wordValue (p4.ea (directAddr 0x7F000)) = some 0 :=
  ⟨inv_p4, coherent_p4, rfl, rfl, rfl, rfl, by decide⟩

/-- V8 rows 4 and 5. -/
theorem witness_JumpsTransfer :
    p4.gaps = [] ∧ asTarget (.memDirect 0x400040) = some (.literal 0x400040) ∧
    p4.targetValue (.literal 0x400040) = some 0x400040 ∧ p4.flags.zf = false ∧
    ({ p4 with flags := { Flags.clear with zf := true } } : State).flags.zf = true := by decide

/-- V8 rows 9 and 10, and a ret with an operand. -/
theorem witness_KindsNotAdmitted :
    (Instr.isCommand (.add (.reg 0 0) (.memDirect 0x7F000)) = false ∧
      Instr.admitted (.add (.reg 0 0) (.memDirect 0x7F000)) = false) ∧
    (Instr.isCommand (.jmp (.memIndirect (directAddr 0)) .empty) = false ∧
      Instr.admitted (.jmp (.memIndirect (directAddr 0)) .empty) = false) ∧
    (Instr.isCommand (.ret (.imm 1) .empty) = false ∧ Instr.admitted (.ret (.imm 1) .empty) = false) ∧
    (Instr.isCommand (.reservedTag11 .empty .empty) = false ∧
      Instr.admitted (.reservedTag11 .empty .empty) = false) := by decide

/-- VIEW 4 of cell 4 and VIEW 7 of cell 15, as a source and beside a source that has a value; and a source that
resolves to an address without a translation. -/
theorem witness_UnknownRegisterOperands :
    p4.Inv ∧ p4.Coherent ∧ p4.gaps = [] ∧ viewOfSel 4 4 = none ∧ viewOfSel 15 7 = none ∧
    (Instr.admitted (.push (.reg 4 4) .empty) = true ∧ Instr.admitted (.cmp (.reg 15 7) (.memDirect 0)) = true) ∧
    (asSource (.memDirect 0x7F000) = some (.mem (directAddr 0x7F000)) ∧
      p4.sourceValue (.mem (directAddr 0x7F000)) ≠ none ∧ p4.resolved (.mem (directAddr 0x7F000)) ≠ none) ∧
    p4.wordValue (p4.cell rspCell) ≠ none :=
  ⟨inv_p4, coherent_p4, rfl, rfl, rfl, by decide, by decide, by decide⟩

/-- The first offset that crosses, 0xFF9, in each clause: rsp, rbp, a source, rsp of a push and of a call, a
destination. -/
theorem witness_PageCrossingRefused :
    0xFF8 < (0x7FFF9 : Word).toNat % 4096 ∧
    ((p4with 4 0x7FFF9).Inv ∧ (p4with 4 0x7FFF9).Coherent ∧ (p4with 4 0x7FFF9).gaps = [] ∧
      (p4with 4 0x7FFF9).cell rspCell = 0x7FFF9) ∧
    ((p4with 5 0x7FFF9).Inv ∧ (p4with 5 0x7FFF9).Coherent ∧ (p4with 5 0x7FFF9).cell rbpCell = 0x7FFF9) ∧
    (asSource (.memDirect 0x7FFF9) = some (.mem (directAddr 0x7FFF9)) ∧ p4.ea (directAddr 0x7FFF9) = 0x7FFF9 ∧
      asDest (.memDirect 0x7FFF9) = some (.mem (directAddr 0x7FFF9)) ∧ viewOfSel 0 0 ≠ none) ∧
    (asSource (.imm 1) = some (.imm 1) ∧ p4.sourceValue (.imm 1) ≠ none ∧
      (p4with 4 0x80001).cell rspCell = 0x7FFF9 + 8) ∧
    (asTarget (.imm 1) = some (.literal 1) ∧ p4.targetValue (.literal 1) ≠ none) :=
  ⟨by decide, ⟨inv_like inv_p4 rfl rfl rfl rfl, coherent_like coherent_p4 rfl rfl, rfl, by decide⟩,
    ⟨inv_like inv_p4 rfl rfl rfl rfl, coherent_like coherent_p4 rfl rfl, by decide⟩, by decide, by decide, by decide⟩

/-- P4 with page 0x10 at level 4: the first page beyond MEM_SIZE. -/
def p4far : State := p4.setPte 3 0x4000 (pte 0x10)

/-- P4 with no entry at level 4. -/
def p4hole : State := p4.setPte 3 0x4000 { present := false, base := 5 }

theorem inv_p4far : p4far.Inv := ⟨by decide, by decide, by decide, by decide, by decide, by decide, by decide⟩
theorem inv_p4hole : p4hole.Inv := ⟨by decide, by decide, by decide, by decide, by decide, by decide, by decide⟩

/-- P4 with a store that ends inside page 5. -/
def p4short : State := { p4 with params := { Params.default with memSize := 0x5FC0 } }

theorem inv_p4short : p4short.Inv := ⟨by decide, by decide, by decide, by decide, by decide, by decide, by decide⟩

/-- Push, Mov and Call, in a state without a translation and in one whose page lies out of bounds. -/
theorem witness_StoreFaults_hypotheses :
    (p4hole.Inv ∧ p4hole.Coherent ∧ p4hole.gaps = []) ∧ (p4far.Inv ∧ p4far.Coherent ∧ p4far.gaps = []) ∧
    (asSource (.imm 1) = some (.imm 1) ∧ p4far.sourceValue (.imm 1) = some 1 ∧
      p4far.cell rspCell = 0x7FFD8 + 8 ∧ p4hole.cell rspCell = 0x7FFD8 + 8) ∧
    (asDest (.memDirect 0x7FFD8) = some (.mem (directAddr 0x7FFD8)) ∧
      p4far.ea (directAddr 0x7FFD8) = 0x7FFD8 ∧ p4hole.ea (directAddr 0x7FFD8) = 0x7FFD8) ∧
    (asTarget (.imm 1) = some (.literal 1) ∧ p4far.targetValue (.literal 1) ≠ none) :=
  ⟨⟨inv_p4hole, coherent_like coherent_p4 rfl rfl, rfl⟩, ⟨inv_p4far, coherent_like coherent_p4 rfl rfl, rfl⟩,
    by decide, by decide, by decide⟩

/-- The level and the address of each clause; in the last, a store that ends inside a page, only the word's last four
bytes are out of bounds. -/
theorem witness_StoreFaults_clauses :
    p4hole.PageFaultAt 0x7FFD8 3 ∧ p4far.BoundsFaultAt 0x7FFD8 0x10FD8 ∧
    (p4short.Inv ∧ p4short.Coherent ∧ p4short.BoundsFaultAt 0x7FFBC 0x5FBC) :=
  ⟨⟨by decide, by rfl⟩, ⟨by decide, by rfl, by decide⟩,
    inv_p4short, coherent_like coherent_p4 rfl rfl, by decide, by rfl, by decide⟩

/-- The four alternatives, and both clauses: rsp, rbp, a source, and Cmp's word at dst. -/
theorem witness_LoadFaults :
    (p4hole.Inv ∧ p4hole.Coherent ∧ p4hole.gaps = [] ∧ p4hole.cell rspCell = 0x7FFE0 ∧
      p4hole.PageFaultAt 0x7FFE0 3) ∧
    (p4hole.cell rbpCell = 0x7FFF0 ∧ p4hole.PageFaultAt 0x7FFF0 3) ∧
    (asSource (.memDirect 0x7FFE0) = some (.mem (directAddr 0x7FFE0)) ∧ p4hole.ea (directAddr 0x7FFE0) = 0x7FFE0 ∧
      asDest (.memDirect 0x7FFE0) = some (.mem (directAddr 0x7FFE0)) ∧
      asSource (.imm 1) = some (.imm 1) ∧ p4hole.sourceValue (.imm 1) ≠ none) ∧
    (p4far.Inv ∧ p4far.Coherent ∧ p4far.gaps = [] ∧ p4far.cell rspCell = 0x7FFE0 ∧
      p4far.BoundsFaultAt 0x7FFE0 0x10FE0) :=
  ⟨⟨inv_p4hole, coherent_like coherent_p4 rfl rfl, rfl, by decide, by decide, by rfl⟩,
    ⟨by decide, by decide, by rfl⟩, by decide,
    ⟨inv_p4far, coherent_like coherent_p4 rfl rfl, rfl, by decide, by decide, by rfl, by decide⟩⟩

/-- P4 with a request of the host before the engine's fifth command. -/
def p4landing (r : Request) : State := { p4 with inbox := [.command r], gaps := [0, 0, 0, 0, 1] }

/-- The host's PTWR that moves P4's page to the first page beyond MEM_SIZE. -/
def farL4 : Request := { cmd := 0x680C, a := 0x4000, b := 0x10, d := 1 }

/-- The same with the root in rbp, before the eighth command. -/
def p4landingRbp (r : Request) : State :=
  { p4with 5 0x1000 with
    params := { Params.default with rootSrc := .gprRbp }, inbox := [.command r]
    gaps := [0, 0, 0, 0, 0, 0, 0, 1] }

/-- The clauses before byte 2, a PTWR that clears the entry, one that moves the page and one that moves it out of
bounds; and the root in rbp. -/
theorem witness_PtwrLandsBetweenXlts :
    ((p4landing clearL4).Inv ∧ (p4landing clearL4).Coherent ∧
      (p4landing clearL4).inbox = .command clearL4 :: [] ∧
      decodeRequest clearL4 = .ok (.ptwr 3 0x4000 5 false) ∧ (p4landing clearL4).wordAddr 0 = some 0x5000 ∧
      (p4landing clearL4).gaps = List.replicate (2 * 2) 0 ++ [1] ∧
      walk (p4.setPte (levelOf 3) 0x4000 { present := false, base := 5 }).pt 0 (p4landing clearL4).rootKey = .error 3) ∧
    (decodeRequest moveL4 = .ok (.ptwr 3 0x4000 6 true) ∧
      walk (p4.setPte (levelOf 3) 0x4000 (pte 6)).pt 0 (p4landing moveL4).rootKey = .ok 0x6000 ∧
      (0x6000 : Word).toNat + 8 ≤ (p4landing moveL4).params.memSize) ∧
    (decodeRequest farL4 = .ok (.ptwr 3 0x4000 0x10 true) ∧
      walk (p4.setPte (levelOf 3) 0x4000 (pte 0x10)).pt 0 (p4landing farL4).rootKey = .ok 0x10000 ∧
      (p4landing farL4).params.memSize < (0x10000 : Word).toNat + 8) ∧
    ((p4landingRbp clearL4).Inv ∧ (p4landingRbp clearL4).Coherent ∧
      (p4landingRbp clearL4).params.rootSrc = .gprRbp ∧ (p4landingRbp clearL4).wordAddr 0 = some 0x5000 ∧
      (p4landingRbp clearL4).gaps = List.replicate (3 * 2 + 1) 0 ++ [1]) :=
  ⟨⟨inv_like inv_p4 rfl rfl rfl rfl, coherent_like coherent_p4 rfl rfl, rfl, rfl, by decide, rfl, by rfl⟩,
    ⟨rfl, by rfl, by decide⟩, ⟨rfl, by rfl, by decide⟩,
    ⟨⟨by decide, by decide, by decide, by decide, by decide, by decide, by decide⟩, coherent_like coherent_p4 rfl rfl,
      rfl, by decide, rfl⟩⟩

theorem witness_EngineFrame :
    Instr.isCommand (.mov (.imm 3) (.reg 7 0)) = false ∧ p4.gaps = [] ∧
    ∃ t, exec (.mov (.imm 3) (.reg 7 0)) p4 = .next t :=
  ⟨rfl, rfl, _, rfl⟩

/-- An IPRD request; and P4's first step, with an empty inbox and with the engine's turn in it. -/
theorem witness_StepRunsDecodedInstruction :
    let r : Record := { tag := 0, src := raw 1 3 0, dst := raw 2 0 0x38 }
    let s : State := { launched p4 r with inbox := [.engineTurn [2]] }
    ((asked p4 { cmd := 0x3000, a := 0, b := 0, d := 0 }).inbox =
        .command { cmd := 0x3000, a := 0, b := 0, d := 0 } :: [] ∧
      decodeRequest { cmd := 0x3000, a := 0, b := 0, d := 0 } = .ok .iprd) ∧
    ((launched p4 r).engineTurn = some (launched p4 r) ∧ (launched p4 r).run = .running 0x4000C0 ∧
      (launched p4 r).rip ≠ 0x4000C0 ∧ lookupKey (launched p4 r).prog (launched p4 r).rip.toNat = some r ∧
      decodeRecord r = .ok (.mov (.imm 3) (.reg 7 0))) ∧
    s.engineTurn = some { launched p4 r with gaps := [2] } := by decide

/-- A launch, the end, an empty PROG, and an engine that is idle, has ended, has faulted. -/
theorem witness_EngineRunLaunchesAndEnds :
    let s : State := { p4 with run := .running 0x400000 }
    let t : State := { p4 with run := .running 0x4000C0 }
    let ended : State := { p4 with run := .ended }
    let faulted : State := { p4 with run := .faulted .pageFault (some 1) }
    ({ p4 with inbox := [.launch [] 0x4000C0] } : State).inbox = .launch [] 0x4000C0 :: [] ∧
    (s.engineTurn = some s ∧ s.run = .running 0x400000 ∧ s.rip = 0x400000) ∧
    (t.engineTurn = some t ∧ t.run = .running 0x4000C0 ∧ t.rip ≠ 0x4000C0 ∧
      lookupKey t.prog t.rip.toNat = none) ∧
    (p4.engineTurn = some p4 ∧ p4.run = .idle) ∧ (ended.engineTurn = some ended ∧ ended.run = .ended) ∧
    (faulted.engineTurn = some faulted ∧ faulted.run = .faulted .pageFault (some 1)) := by decide

/-- An operand with a scale that is none. -/
def badScale : RawOperand :=
  { kind := 4, val := 8, sel := 0, parts := some { base := some 0, index := none, scale := 3 } }

/-- TAG 11 and KIND 5, and a scale of 3 in src and in dst. -/
theorem witness_BadRecordsFault :
    let r : Record := { tag := 11, src := raw 5 0 0, dst := raw 5 0 0 }
    let inSrc : Record := { tag := 0, src := badScale, dst := rawE }
    let inDst : Record := { tag := 0, src := rawE, dst := badScale }
    ((launched p4 r).engineTurn = some (launched p4 r) ∧ (launched p4 r).run = .running 0x4000C0 ∧
      (launched p4 r).rip ≠ 0x4000C0 ∧ lookupKey (launched p4 r).prog (launched p4 r).rip.toNat = some r ∧
      11 ≤ r.tag.toNat ∧ 5 ≤ r.src.kind.toNat ∧ 5 ≤ r.dst.kind.toNat) ∧
    (inSrc.tag.toNat < 11 ∧ inSrc.src.kind = 4 ∧
      inSrc.src.parts = some { base := some 0, index := none, scale := 3 } ∧ inSrc.dst.kind.toNat < 5 ∧
      (3 : Word) ∉ ([1, 2, 4, 8] : List Word)) ∧
    (decodeOperand inDst.src = .ok .empty ∧ inDst.dst.kind = 4 ∧
      inDst.dst.parts = some { base := some 0, index := none, scale := 3 }) := by decide

/-- Log 28: the scale before the SEL of one operand, a reserved TAG before both, src before dst. -/
theorem test_record_error_order :
    decodeRecord { tag := 0, src := { badScale with sel := 1 }, dst := rawE } = .error (.badScale 3) ∧
    decodeRecord { tag := 11, src := badScale, dst := rawE } = .error (.reservedTag 11) ∧
    decodeRecord { tag := 0, src := raw 1 3 1, dst := badScale } = .error .unusedField := by decide

/-- R314, R700, through the step. -/
theorem test_bad_scale :
    after (·.run) (step (launched p4 { tag := 0, src := badScale, dst := raw 2 0 0 })) =
      some (.faulted .malformedOperand (some 0)) := by decide

theorem witness_PlacedWordRuns :
    decodeTableWord 16 0x3000 = some .iprd ∧ decodeTableWord 8 0x05 = some (.ret .empty .empty) := by decide

theorem witness_DecodeEncode :
    Instr.wf (.mov (.memIndirect { disp := 8, base := some 4, index := some 15, scale := 8 }) (.reg 15 7)) = true := by
  decide

theorem witness_StepKeepsInv :
    (asked v2full { cmd := 0x1000, a := 0x2003, b := 0, d := 0x77 }).Inv ∧
    ∃ t, step (asked v2full { cmd := 0x1000, a := 0x2003, b := 0, d := 0x77 }) = .next t :=
  ⟨inv_like inv_v2full rfl rfl rfl rfl, _, rfl⟩

theorem witness_ResetSatisfiesInv :
    ({ nWays := 8, memSize := 64, rootSrc := .gprRbp } : Params).wf ∧ Memory.wf [(63, 1)] ∧
    ∀ c ∈ ([(63, 1)] : Memory), c.1 < 64 := by decide

/-- A BWR64 to a block no line holds; and an engine's turn with a PTWR that may land in it. -/
theorem witness_StepKeepsCoherence :
    let s := asked v2clean { cmd := 0x7800, a := 0x2000, b := 7, d := 0 }
    let t : State := { p4 with inbox := [.engineTurn [1], .command clearL4] }
    (s.Inv ∧ s.Coherent ∧
      (∀ r rest a b, s.inbox = .command r :: rest → decodeRequest r = .ok (.bwr64 a b) → ¬ s.holds a) ∧
      s.engineTurn = none ∧ ∃ u, step s = .next u) ∧
    (t.Inv ∧ t.Coherent ∧
      (∀ t', t.engineTurn = some t' → ∀ r ∈ t'.mayLand, ∀ a b, decodeRequest r ≠ .ok (.bwr64 a b)) ∧
      ∃ u, step t = .next u) := by
  refine ⟨⟨inv_like inv_v2clean rfl rfl rfl rfl, coherent_like coherent_v2clean rfl rfl, ?_, rfl, _, rfl⟩,
    inv_like inv_p4 rfl rfl rfl rfl, coherent_like coherent_p4 rfl rfl, ?_, _, rfl⟩
  · intro r rest a b h hd
    cases h
    cases hd
    unfold State.holds
    decide
  · intro t' ht r hr a b
    cases ht
    obtain rfl := List.mem_singleton.mp (show r ∈ [clearL4] from hr)
    exact nofun

theorem witness_StepKeepsTimesDistinct :
    (asked v2full { cmd := 0x0800, a := 0x1005, b := 0, d := 0 }).Inv ∧
    (∀ i : Fin 64, TimesDiffer v2full.cache[i]) ∧
    ∃ t, step (asked v2full { cmd := 0x0800, a := 0x1005, b := 0, d := 0 }) = .next t :=
  ⟨inv_like inv_v2full rfl rfl rfl rfl, by decide, _, rfl⟩

/-- V2 before and after a CRD by the engine's read path: the two differ in the cache and not to the client. Nothing of
the host may land. -/
theorem witness_CacheIsInvisible :
    ∃ t, v2.Inv ∧ v2.Coherent ∧ t.Inv ∧ t.Coherent ∧ SameToClient v2 t ∧ t.cache ≠ v2.cache ∧ v2.mayLand = [] := by
  obtain ⟨t, ht, ha⟩ := readByte_ok inv_v2 coherent_v2 (p := 0x1005) (by decide)
  refine ⟨t, inv_v2, coherent_v2, ha.inv, ha.coherent, ⟨ha.frame, fun q hq => (ha.kept q hq (by omega)).1⟩, ?_, rfl⟩
  have hc : (match readByte 0x1005 v2 with | .ok _ u => decide (u.cache ≠ v2.cache) | _ => false) = true := by decide
  rw [ht] at hc
  exact of_decide_eq_true hc

end Sys2Proof.Tests
end

section
/-! The state after reset has the invariant of R112 and the condition of R221 (spec/10_state.md R112, R120): every line
is `Line.reset`, which holds no valid data. -/

namespace Sys2Proof.Machine

/-! ### The cache and the level maps after reset -/

theorem State.resetOf_cache (p : Params) (image : Memory) (i : Fin 64) :
    (State.resetOf p image).cache[i] = List.replicate p.nWays Line.reset :=
  Vector.getElem_replicate i.isLt

theorem State.resetOf_pt (p : Params) (image : Memory) (k : Fin 4) : (State.resetOf p image).pt[k] = [] :=
  Vector.getElem_replicate k.isLt

theorem State.eq_reset_of_mem_resetOf_cache {p : Params} {image : Memory} {i : Fin 64} {l : Line}
    (h : l ∈ (State.resetOf p image).cache[i]) : l = Line.reset :=
  List.eq_of_mem_replicate (State.resetOf_cache p image i ▸ h)

/-! ### A line after reset -/

theorem Line.not_valid_reset : ¬ Line.reset.valid := fun h => h rfl

theorem lineWf_reset (memSize : Nat) (i : Fin 64) : LineWf memSize i Line.reset :=
  ⟨⟨fun _ => rfl, fun _ => rfl⟩, fun h => absurd h Line.not_valid_reset, fun h => absurd h Line.not_valid_reset⟩

theorem tagsDiffer_replicate_reset (n : Nat) : TagsDiffer (List.replicate n Line.reset) :=
  List.pairwise_replicate.2 (.inr fun h => absurd h Line.not_valid_reset)

/-! ### The invariants after reset -/

theorem State.inv_resetOf {p : Params} {image : Memory} (hp : p.wf) (hm : image.wf)
    (hin : ∀ c ∈ image, c.1 < p.memSize) : (State.resetOf p image).Inv where
  params := hp
  ways i := by
    rw [State.resetOf_cache]
    exact List.length_replicate
  lines i l hl := State.eq_reset_of_mem_resetOf_cache hl ▸ lineWf_reset p.memSize i
  tags i := by
    rw [State.resetOf_cache]
    exact tagsDiffer_replicate_reset p.nWays
  memory := hm
  inside := hin
  maps k := by
    rw [State.resetOf_pt]
    exact List.Pairwise.nil

/-- No line is Clean after reset, so the image may be any. -/
theorem State.coherent_resetOf (p : Params) (image : Memory) : (State.resetOf p image).Coherent := by
  intro i l hl hclean
  obtain rfl := State.eq_reset_of_mem_resetOf_cache hl
  cases hclean

/-- Settles O56: a cache of invalid lines meets every condition on valid and on Clean lines. `State.reset` is the case of
the default parameters and the empty image. -/
theorem resetSatisfiesInv : Obligations.ResetSatisfiesInv :=
  ⟨State.inv_resetOf (by decide) State.reset_mem_wf nofun, State.coherent_resetOf _ _,
    fun p image hp hm hin => ⟨State.inv_resetOf hp hm hin, State.coherent_resetOf p image⟩⟩

end Sys2Proof.Machine
end

section
/-! Updates that neither read nor change the cache and the store, and that every step keeps the invariant of R112. -/

namespace Sys2Proof.Machine

/-! ### Updates beside memory -/

/-- An update of the state beside its memory: it comes to the same whatever cache and store hold, so that it leaves them
as they are; it keeps the parameters, and level maps in canonical form. -/
structure SparesMemory (f : State → State) : Prop where
  frame : ∀ (s : State) (c : Vector CacheSet 64) (m : Memory),
    f { s with cache := c, mem := m } = { f s with cache := c, mem := m }
  params : ∀ s, (f s).params = s.params
  maps : ∀ s : State, (∀ k : Fin 4, KeysRise s.pt[k]) → ∀ k : Fin 4, KeysRise (f s).pt[k]

section

variable {f : State → State} (hf : SparesMemory f)

include hf

theorem SparesMemory.eq_frame (s : State) : f s = { f s with cache := s.cache, mem := s.mem } :=
  hf.frame s s.cache s.mem

theorem SparesMemory.cache (s : State) : (f s).cache = s.cache := by rw [hf.eq_frame]

theorem SparesMemory.mem (s : State) : (f s).mem = s.mem := by rw [hf.eq_frame]

theorem SparesMemory.inv {s : State} (h : s.Inv) : (f s).Inv where
  params := by rw [hf.params]; exact h.params
  ways := by rw [hf.params, hf.cache]; exact h.ways
  lines := by rw [hf.params, hf.cache]; exact h.lines
  tags := by rw [hf.cache]; exact h.tags
  memory := by rw [hf.mem]; exact h.memory
  inside := by rw [hf.params, hf.mem]; exact h.inside
  maps := hf.maps s h.maps

end

theorem sparesMemory_respond (e : Status) (v : Word) : SparesMemory (·.respond e v) :=
  ⟨fun _ _ _ => rfl, fun _ => rfl, fun _ h => h⟩

theorem sparesMemory_engineFault (e : Status) (info : Option Word) : SparesMemory (·.engineFault e info) :=
  ⟨fun _ _ _ => rfl, fun _ => rfl, fun _ h => h⟩

theorem sparesMemory_setCell (c : BitVec 4) (x : Word) (m : BitVec 8) : SparesMemory (·.setCell c x m) :=
  ⟨fun _ _ _ => rfl, fun _ => rfl, fun _ h => h⟩

/-- The bits and marks that a view write keeps are the cell's own (R503). -/
theorem sparesMemory_writeView (c : BitVec 4) (v : View) (x : Word) : SparesMemory (·.writeView c v x) :=
  ⟨fun _ _ _ => rfl, fun _ => rfl, fun _ h => h⟩

theorem sparesMemory_setRip (x : Word) : SparesMemory (·.setRip x) :=
  ⟨fun _ _ _ => rfl, fun _ => rfl, fun _ h => h⟩

theorem sparesMemory_setFlags (f : Flags) : SparesMemory (·.setFlags f) :=
  ⟨fun _ _ _ => rfl, fun _ => rfl, fun _ h => h⟩

theorem sparesMemory_noteRead (w : Bool) : SparesMemory (·.noteRead w) :=
  ⟨fun _ _ _ => rfl, fun _ => rfl, fun _ h => h⟩

theorem sparesMemory_inbox (inbox : List Input) : SparesMemory ({ · with inbox }) :=
  ⟨fun _ _ _ => rfl, fun _ => rfl, fun _ h => h⟩

theorem sparesMemory_gaps (gaps : List Nat) : SparesMemory ({ · with gaps }) :=
  ⟨fun _ _ _ => rfl, fun _ => rfl, fun _ h => h⟩

theorem sparesMemory_run (run : Run) : SparesMemory ({ · with run }) :=
  ⟨fun _ _ _ => rfl, fun _ => rfl, fun _ h => h⟩

theorem sparesMemory_prog (prog : Program) : SparesMemory ({ · with prog }) :=
  ⟨fun _ _ _ => rfl, fun _ => rfl, fun _ h => h⟩

/-- An entry goes into its map at the place of its key (R461). -/
theorem sparesMemory_setPte (k : Fin 4) (key : Word) (e : Pte) : SparesMemory (·.setPte k key e) where
  frame _ _ _ := rfl
  params _ := rfl
  maps s h j := by
    rw [State.setPte_pt, getElem_set_fin]
    split
    · exact keysRise_insertKey (h k) key.toNat e
    · exact h j

/-! ### The invariant (R112) -/

theorem State.Inv.access {p : Word} {d : Option Byte} {s : State} (h : s.Inv) : (access p d s).All State.Inv := by
  by_cases hp : p.toNat < s.params.memSize
  · obtain ⟨b, t, ht, ha⟩ := access_ok h hp d
    rw [ht]
    exact ha.inv
  · rw [access_outOfBounds d (Nat.not_lt.1 hp)]
    exact h

/-- A BWR64 in bounds lists no byte outside the store (R209, R600, R602). -/
theorem State.Inv.setMem_writeWord {s : State} (h : s.Inv) {a : Nat} (ha : a + 8 ≤ s.params.memSize) (v : Word) :
    (s.setMem (s.mem.writeWord a v)).Inv where
  params := h.params
  ways := h.ways
  lines := h.lines
  tags := h.tags
  memory := Memory.wf_writeWord h.memory a v
  inside c hc := by
    rcases Memory.mem_writeBytes hc with hc | hc
    · rw [length_bytesOfWord] at hc
      exact Nat.lt_of_lt_of_le hc.2 ha
    · exact h.inside c hc
  maps := h.maps

theorem CommandDid.inv {i : Instr} {s t : State} (hd : CommandDid i s t) (h : s.Inv) : t.Inv := by
  have responds : ∀ {u : State} {e : Status} {v : Word}, u.Inv → t = u.respond e v → t.Inv := fun hu ht =>
    ht ▸ (sparesMemory_respond _ _).inv hu
  cases hd with
  | error e info he ht => exact responds h ht
  | read v ht => exact responds h ht
  | noted w v hi ht => exact responds (h.noteRead w) ht
  | access p d b u v hi ha ht =>
    have hu : (Res.ok b u).All State.Inv := ha ▸ h.access
    exact responds hu ht
  | cell c view a x m v hi ht => exact responds ((sparesMemory_setCell c x m).inv h) ht
  | rip a hi ht => exact responds ((sparesMemory_setRip a).inv h) ht
  | flags f v hi ht => exact responds ((sparesMemory_setFlags f).inv h) ht
  | pte lvl a b present hi ht => exact responds ((sparesMemory_setPte (levelOf lvl) a _).inv h) ht
  | word a b hi ha hb ht => exact responds (h.setMem_writeWord hb b) ht

theorem State.Inv.afterRequest {s : State} (r : Request) (h : s.Inv) : (afterRequest r s).Inv := by
  rcases afterRequest_did r s with ⟨_, _, _, _, hd⟩ | ⟨_, ht⟩
  · exact hd.inv h
  · rw [ht]
    exact (sparesMemory_respond _ _).inv h

theorem State.Inv.hostTurn {s : State} (h : s.Inv) : (hostTurn s).Inv :=
  (hostTurn_keeps (Q := fun _ => True) (fun _ inbox h => (sparesMemory_inbox inbox).inv h)
    (fun _ gaps h => (sparesMemory_gaps gaps).inv h) (fun r _ _ h => h.afterRequest r) h fun _ _ => trivial).1

theorem engineStable_inv : EngineStable State.Inv where
  access _ _ _ h := h.access
  setCell _ c x m h := (sparesMemory_setCell c x m).inv h
  setRip _ x h := (sparesMemory_setRip x).inv h
  setFlags _ f h := (sparesMemory_setFlags f).inv h
  noteRead _ w h := h.noteRead w
  host _ h := h.hostTurn

theorem State.Inv.engineTurn {s s' : State} (h : s.Inv) (hs : s.engineTurn = some s') : s'.Inv := by
  unfold State.engineTurn at hs
  split at hs
  · cases hs
    exact (sparesMemory_gaps []).inv h
  · rename_i gaps rest _
    cases hs
    exact (sparesMemory_gaps gaps).inv ((sparesMemory_inbox rest).inv h)
  · cases hs
  · cases hs

/-- Settles O55: the five things a step can do, each keeps the invariant. -/
theorem stepKeepsInv : Obligations.StepKeepsInv := by
  intro s t h ht
  cases step_did ht with
  | command r rest i hs hd hx =>
    exact (command_did (isCommand_of_decodeRequest hd) hx).inv ((sparesMemory_inbox rest).inv h)
  | refusedWord r rest hs ht =>
    rw [ht]
    exact (sparesMemory_respond _ _).inv ((sparesMemory_inbox rest).inv h)
  | launch prog exitRip rest hs ht =>
    rw [ht]
    exact (sparesMemory_run _).inv ((sparesMemory_prog prog).inv ((sparesMemory_inbox rest).inv h))
  | engine s' i hs hi hx =>
    exact engine_keeps engineStable_inv hi (fun _ e info h => (sparesMemory_engineFault e info).inv h)
      ((h.engineTurn hs).noteRead _) hx
  | run s' w run hs ht =>
    rw [ht]
    exact (sparesMemory_run run).inv ((h.engineTurn hs).noteRead w)

end Sys2Proof.Machine
end

section
/-! The cache is invisible to the client (spec/10_state.md R111, spec/20_memory.md R221), as a relation between two
runs: from two states that read alike, every command but BRD64 and BWR64, the host's turn, and so every sequence of them
give the same value and leave states that read alike. -/

namespace Sys2Proof.Machine

/-! ### Two states that read alike -/

/-- Two states with the invariants that the client cannot tell apart. -/
structure Alike (s t : State) : Prop where
  invLeft : s.Inv
  invRight : t.Inv
  coherentLeft : s.Coherent
  coherentRight : t.Coherent
  same : SameToClient s t

theorem SameButMemory.exists_eq {s t : State} (h : SameButMemory s t) :
    ∃ c m, t = { s with cache := c, mem := m } := ⟨t.cache, t.mem, h⟩

/-- What the two states come to after changes of memory still differs in memory alone. -/
theorem SameButMemory.square {s t s' t' : State} (h : SameButMemory s t) (hs : SameButMemory s s')
    (ht : SameButMemory t t') : SameButMemory s' t' := by
  obtain ⟨_, _, rfl⟩ := h.exists_eq
  obtain ⟨_, _, rfl⟩ := hs.exists_eq
  obtain ⟨_, _, rfl⟩ := ht.exists_eq
  rfl

section

variable {f : State → State} (hf : SparesMemory f)

include hf

theorem SparesMemory.coherent {s : State} (h : s.Coherent) : (f s).Coherent := by
  unfold State.Coherent
  rw [hf.cache, hf.mem]
  exact h

theorem SparesMemory.eff (s : State) (q : Word) : (f s).eff q = s.eff q := by
  unfold State.eff
  rw [hf.cache, hf.mem]

theorem SparesMemory.sameToClient {s t : State} (h : SameToClient s t) : SameToClient (f s) (f t) := by
  refine ⟨?_, fun q hq => ?_⟩
  · obtain ⟨c, m, rfl⟩ := h.1.exists_eq
    unfold SameButMemory
    rw [hf.cache, hf.mem]
    exact hf.frame s c m
  · rw [hf.eff, hf.eff]
    exact h.2 q (hf.params s ▸ hq)

theorem SparesMemory.alike {s t : State} (h : Alike s t) : Alike (f s) (f t) :=
  ⟨hf.inv h.invLeft, hf.inv h.invRight, hf.coherent h.coherentLeft, hf.coherent h.coherentRight, hf.sameToClient h.same⟩

end

/-! ### Two results that read alike -/

/-- The same end, with the same value or error, and states in the relation. -/
inductive Res.Rel (R : State → State → Prop) {α : Type} : Res α → Res α → Prop
  | ok (v : α) {s t : State} (h : R s t) : Rel R (.ok v s) (.ok v t)
  | err (e : Status) (info : Word) {s t : State} (h : R s t) : Rel R (.err e info s) (.err e info t)
  | fault (f : Fault) : Rel R (.fault f) (.fault f)
  | refused (r : Refusal) : Rel R (.refused r) (.refused r)

theorem Res.Rel.bind {R : State → State → Prop} {α β : Type} {r r' : Res α} {f g : α → State → Res β} (h : r.Rel R r')
    (hf : ∀ v s t, R s t → (f v s).Rel R (g v t)) : (r.bind f).Rel R (r'.bind g) := by
  cases h with
  | ok v h => exact hf v _ _ h
  | err e info h => exact .err e info h
  | fault f => exact .fault f
  | refused r => exact .refused r

/-! ### The commands -/

theorem readReg_alike (c : BitVec 4) (view : BitVec 3) {s t : State} (h : Alike s t) :
    (readReg c view s).Rel Alike (readReg c view t) := by
  have hm := h.same.1
  have hn : Alike (s.noteRead (s.viewWritten c view)) (t.noteRead (s.viewWritten c view)) :=
    (sparesMemory_noteRead _).alike h
  rcases readReg_cases c view s with ⟨x, hx, hs⟩ | ⟨hv, _, hs⟩
  · rw [hs, readReg_of_value ((hm.regValue c view).trans hx), hm.viewWritten]
    exact .ok x hn
  · rw [hs, readReg_of_none hv]
    exact .err _ _ h

theorem writeReg_alike (c : BitVec 4) (view : BitVec 3) (x : Word) {s t : State} (h : Alike s t) :
    (writeReg c view x s).Rel Alike (writeReg c view x t) := by
  rcases writeReg_cases c view x s with ⟨v, hv, hs⟩ | ⟨hv, hs⟩
  · rw [hs, writeReg_of_view hv]
    exact .ok () ((sparesMemory_writeView c v x).alike h)
  · rw [hs, writeReg_of_none hv]
    exact .err _ _ h

theorem readRip_alike {s t : State} (h : Alike s t) : (readRip s).Rel Alike (readRip t) := by
  unfold readRip
  rw [h.same.1.rip, h.same.1.ripWr]
  exact .ok _ ((sparesMemory_noteRead _).alike h)

theorem writeRip_alike (x : Word) {s t : State} (h : Alike s t) : (writeRip x s).Rel Alike (writeRip x t) :=
  .ok () ((sparesMemory_setRip x).alike h)

theorem readFlags_alike {s t : State} (h : Alike s t) : (readFlags s).Rel Alike (readFlags t) := by
  unfold readFlags
  rw [h.same.1.flags]
  exact .ok _ h

theorem clearFlags_alike {s t : State} (h : Alike s t) : (clearFlags s).Rel Alike (clearFlags t) :=
  .ok () ((sparesMemory_setFlags _).alike h)

theorem aluAdd_alike (a b : Word) {s t : State} (h : Alike s t) : (aluAdd a b s).Rel Alike (aluAdd a b t) :=
  .ok _ ((sparesMemory_setFlags _).alike h)

theorem aluSub_alike (a b : Word) {s t : State} (h : Alike s t) : (aluSub a b s).Rel Alike (aluSub a b t) :=
  .ok _ ((sparesMemory_setFlags _).alike h)

theorem aluCmp_alike (a b : Word) {s t : State} (h : Alike s t) : (aluCmp a b s).Rel Alike (aluCmp a b t) :=
  .ok _ ((sparesMemory_setFlags _).alike h)

theorem translateVa_alike (va r : Word) {s t : State} (h : Alike s t) :
    (translateVa va r s).Rel Alike (translateVa va r t) := by
  unfold translateVa
  rw [h.same.1.pt]
  cases walk s.pt va r with
  | ok pa => exact .ok pa h
  | error k => exact .err _ _ h

/-- Beside the byte it may write, an access changes nothing the client reads; that byte reads as written in both. -/
theorem AccessOk.alike {p : Word} {d : Option Byte} {s t s' t' : State} {a b : Byte} (h : Alike s t)
    (hs : AccessOk p d s a s') (ht : AccessOk p d t b t') : Alike s' t' := by
  refine ⟨hs.inv, ht.inv, hs.coherent h.coherentLeft, ht.coherent h.coherentRight,
    h.same.1.square hs.frame ht.frame, fun q hq => ?_⟩
  rw [hs.frame.params] at hq
  by_cases hqp : q = p
  · rw [hqp, hs.own, ht.own, h.same.2 p (hqp ▸ hq)]
  · have hne : q.toNat ≠ p.toNat := fun he => hqp (BitVec.eq_of_toNat_eq he)
    have hout : ¬(p.toNat ≤ q.toNat ∧ q.toNat < p.toNat + if d.isSome then 1 else 0) := by
      split <;> omega
    rw [(hs.kept h.coherentLeft q hq hout).1, (ht.kept h.coherentRight q (h.same.1.params ▸ hq) hout).1, h.same.2 q hq]

theorem access_alike (p : Word) (d : Option Byte) {s t : State} (h : Alike s t) :
    (access p d s).Rel Alike (access p d t) := by
  have hm : t.params.memSize = s.params.memSize := by rw [h.same.1.params]
  by_cases hp : p.toNat < s.params.memSize
  · obtain ⟨a, s', hs, has⟩ := access_ok h.invLeft hp d
    obtain ⟨b, t', ht, hat⟩ := access_ok h.invRight (hm ▸ hp) d
    have hab : a = b := by rw [has.value, hat.value, has.own, hat.own, h.same.2 p hp]
    rw [hs, ht, hab]
    exact .ok b (has.alike h hat)
  · rw [access_outOfBounds d (Nat.not_lt.1 hp), access_outOfBounds d (hm ▸ Nat.not_lt.1 hp)]
    exact .err _ _ h

theorem readByte_alike (p : Word) {s t : State} (h : Alike s t) : (readByte p s).Rel Alike (readByte p t) :=
  access_alike p none h

theorem writeByte_alike (p : Word) (d : Byte) {s t : State} (h : Alike s t) :
    (writeByte p d s).Rel Alike (writeByte p d t) :=
  (access_alike p (some d) h).bind fun _ _ _ h => .ok () h

/-- Two outcomes whose next states read alike and have the invariants. -/
inductive AlikeOutcome : Host.Outcome State Fault Refusal → Host.Outcome State Fault Refusal → Prop
  | next {s t : State} (h : Alike s t) : AlikeOutcome (.next s) (.next t)
  | fault (f : Fault) : AlikeOutcome (.fault f) (.fault f)
  | refused (r : Refusal) : AlikeOutcome (.refused r) (.refused r)

theorem AlikeOutcome.sameOutcome {o o' : Host.Outcome State Fault Refusal} (h : AlikeOutcome o o') :
    SameOutcome o o' := by
  cases h with
  | next h => exact h.same
  | fault f => exact rfl
  | refused r => exact rfl

theorem Res.Rel.endCommand {r r' : Res Word} (h : r.Rel Alike r') : AlikeOutcome (endCommand r) (endCommand r') := by
  cases h with
  | ok v h => exact .next ((sparesMemory_respond _ _).alike h)
  | err e info h => exact .next ((sparesMemory_respond _ _).alike h)
  | fault f => exact .fault f
  | refused r => exact .refused r

theorem notImplementedCommand_alike (cmd : BitVec 16) {s t : State} (h : Alike s t) :
    AlikeOutcome (notImplementedCommand cmd s) (notImplementedCommand cmd t) :=
  Res.Rel.endCommand (.err _ _ h)

theorem command_alike {i : Instr} (hi : i.isCommand = true) (hr : ∀ a, i ≠ .brd64 a) (hw : ∀ a b, i ≠ .bwr64 a b)
    {s t : State} (h : Alike s t) : AlikeOutcome (exec i s) (exec i t) := by
  cases i <;> simp only [Instr.isCommand, Bool.false_eq_true] at hi
  case crd a => exact ((readByte_alike a h).bind fun b _ _ h => .ok (zext64 b) h).endCommand
  case cwr a d => exact ((writeByte_alike a d h).bind fun _ _ _ h => .ok 0 h).endCommand
  case xlt a b => exact (translateVa_alike a b h).endCommand
  case rrd c view => exact (readReg_alike c view h).endCommand
  case rwr c view a => exact ((writeReg_alike c view a h).bind fun _ _ _ h => .ok 0 h).endCommand
  case iprd => exact (readRip_alike h).endCommand
  case ipwr a => exact ((writeRip_alike a h).bind fun _ _ _ h => .ok 0 h).endCommand
  case frd => exact ((readFlags_alike h).bind fun f _ _ h => .ok (packFlags f) h).endCommand
  case fclr => exact ((clearFlags_alike h).bind fun _ _ _ h => .ok 0 h).endCommand
  case aluAdd a b => exact (aluAdd_alike a b h).endCommand
  case aluSub a b => exact (aluSub_alike a b h).endCommand
  case aluCmp a b => exact (aluCmp_alike a b h).endCommand
  case ptwr lvl a b present => exact Res.Rel.endCommand (.ok 0 ((sparesMemory_setPte _ _ _).alike h))
  case brd64 a => exact absurd rfl (hr a)
  case bwr64 a b => exact absurd rfl (hw a b)
  case reservedOp0 low => exact notImplementedCommand_alike _ h
  case reservedOp16to31 low => exact notImplementedCommand_alike _ h

/-! ### The host's requests inside an engine instruction (R804; log 7) -/

/-- The request is none of the word port's two, which reach the store behind the cache (R600). -/
def AvoidsStorePort (r : Request) : Prop :=
  (∀ a, decodeRequest r ≠ .ok (.brd64 a)) ∧ ∀ a b, decodeRequest r ≠ .ok (.bwr64 a b)

theorem serveRequest_alike {r : Request} (hr : AvoidsStorePort r) {s t : State} (h : Alike s t) :
    AlikeOutcome (serveRequest r s) (serveRequest r t) := by
  unfold serveRequest
  cases hd : decodeRequest r with
  | ok i =>
    have hi := isCommand_of_decodeRequest hd
    simp only [runCommand_eq hi]
    exact command_alike hi (fun a he => hr.1 a (he ▸ hd)) (fun a b he => hr.2 a b (he ▸ hd)) h
  | error e => exact notImplementedCommand_alike r.cmd h

theorem afterRequest_alike {r : Request} (hr : AvoidsStorePort r) {s t : State} (h : Alike s t) :
    Alike (afterRequest r s) (afterRequest r t) := by
  unfold afterRequest
  have ho := serveRequest_alike hr h
  generalize serveRequest r s = o, serveRequest r t = o' at ho
  cases ho with
  | next h => exact h
  | fault f => exact h
  | refused r => exact h

theorem SameButMemory.inbox {s t : State} (h : SameButMemory s t) : t.inbox = s.inbox := by rw [h]

theorem serveRequests_alike (n : Nat) : ∀ {s t : State}, Alike s t →
    (∀ r ∈ (leadingRequests s.inbox).take n, AvoidsStorePort r) → Alike (serveRequests n s) (serveRequests n t) := by
  induction n with
  | zero => exact fun h _ => h
  | succ n ih =>
    intro s t h hq
    rw [serveRequests, serveRequests, h.same.1.inbox]
    split
    · rename_i r rest hs
      rw [hs, leadingRequests, List.take_succ_cons, List.forall_mem_cons] at hq
      refine ih (afterRequest_alike hq.1 ((sparesMemory_inbox rest).alike h)) ?_
      rw [(afterRequest_host r _).1]
      exact hq.2
    all_goals exact h

/-- No request that may land is one of the word port's. -/
def Quiet (s : State) : Prop := ∀ r ∈ s.mayLand, AvoidsStorePort r

theorem hostTurn_quiet {s : State} (h : Quiet s) : Quiet (hostTurn s) :=
  (hostTurn_keeps (P := fun _ => True) (fun _ _ _ => trivial) (fun _ _ _ => trivial) (fun _ _ _ _ => trivial) trivial
    h).2

theorem hostTurn_alike {s t : State} (h : Alike s t) (hq : Quiet s) : Alike (hostTurn s) (hostTurn t) := by
  unfold hostTurn
  rw [h.same.1.gaps]
  cases hg : s.gaps with
  | nil => exact h
  | cons n rest =>
    refine serveRequests_alike n ((sparesMemory_gaps rest).alike h) fun r hr => hq r ?_
    rw [State.mayLand, hg, List.sum_cons, List.take_add]
    exact List.mem_append_left _ hr

/-- What may land is read off the inbox and the gaps, which no command of the engine's changes. -/
theorem engineStable_quiet : EngineStable Quiet where
  access p d s h := by
    rcases access_cases p d s with ⟨_, hs⟩ | ⟨_, b, c, m, hs⟩ <;> rw [hs] <;> exact h
  setCell _ _ _ _ h := h
  setRip _ _ h := h
  setFlags _ _ h := h
  noteRead _ _ h := h
  host _ h := hostTurn_quiet h

/-! ### The engine's sequences of commands -/

/-- Two states inside an engine instruction that read alike, with no request of the word port to land. -/
structure Paired (s t : State) : Prop extends Alike s t where
  quiet : Quiet s

/-- The sequence comes to the same from two states that read alike. -/
def Invisible {α : Type} (f : State → Res α) : Prop := ∀ s t, Paired s t → (f s).Rel Paired (f t)

theorem Invisible.bind {α β : Type} {f : State → Res α} {g : α → State → Res β} (hf : Invisible f)
    (hg : ∀ v, Invisible (g v)) : Invisible fun s => (f s).bind (g · ·) :=
  fun s t h => (hf s t h).bind hg

theorem invisible_ok {α : Type} (v : α) : Invisible (Res.ok v) := fun _ _ h => .ok v h

theorem Invisible.ite {α : Type} {f g : State → Res α} (hf : Invisible f) (b : Bool) (hg : Invisible g) :
    Invisible fun s => if b then f s else g s := by
  cases b with
  | true => exact hf
  | false => exact hg

theorem Res.Rel.paired {α : Type} {r r' : Res α} (h : r.Rel Alike r') (hq : r.All Quiet) : r.Rel Paired r' := by
  cases h with
  | ok v h => exact .ok v ⟨h, hq⟩
  | err e info h => exact .err e info ⟨h, hq⟩
  | fault f => exact .fault f
  | refused r => exact .refused r

/-- A command that cannot see the cache, once the host has had its turn. -/
theorem issue_invisible {α : Type} {f : State → Res α} (hf : ∀ {s t}, Alike s t → (f s).Rel Alike (f t))
    (hq : ∀ {s}, Quiet s → (issue f s).All Quiet) : Invisible (issue f) := fun _ _ h =>
  (hf (hostTurn_alike h.toAlike h.quiet)).paired (hq h.quiet)

theorem readReg_invisible (c : BitVec 4) (view : BitVec 3) : Invisible (issue (readReg c view)) :=
  issue_invisible (readReg_alike c view) fun h => readRegIssued_all engineStable_quiet h c view

theorem writeReg_invisible (c : BitVec 4) (view : BitVec 3) (x : Word) : Invisible (issue (writeReg c view x)) :=
  issue_invisible (writeReg_alike c view x) fun h => writeReg_all engineStable_quiet h c view x

theorem readRip_invisible : Invisible (issue readRip) :=
  issue_invisible readRip_alike (readRip_all engineStable_quiet)

theorem writeRip_invisible (x : Word) : Invisible (issue (writeRip x)) :=
  issue_invisible (writeRip_alike x) fun h => writeRip_all engineStable_quiet h x

theorem readFlags_invisible : Invisible (issue readFlags) :=
  issue_invisible readFlags_alike (readFlags_all engineStable_quiet)

theorem clearFlags_invisible : Invisible (issue clearFlags) :=
  issue_invisible clearFlags_alike (clearFlags_all engineStable_quiet)

theorem aluAdd_invisible (a b : Word) : Invisible (issue (aluAdd a b)) :=
  issue_invisible (aluAdd_alike a b) fun h =>
    issue_all engineStable_quiet h fun _ h => aluAdd_all engineStable_quiet h a b

theorem aluSub_invisible (a b : Word) : Invisible (issue (aluSub a b)) :=
  issue_invisible (aluSub_alike a b) fun h =>
    issue_all engineStable_quiet h fun _ h => aluSub_all engineStable_quiet h a b

theorem aluCmp_invisible (a b : Word) : Invisible (issue (aluCmp a b)) :=
  issue_invisible (aluCmp_alike a b) fun h =>
    issue_all engineStable_quiet h fun _ h => aluCmp_all engineStable_quiet h a b

theorem translateVa_invisible (va r : Word) : Invisible (issue (translateVa va r)) :=
  issue_invisible (translateVa_alike va r) fun h => translateVa_all engineStable_quiet h va r

theorem readByte_invisible (p : Word) : Invisible (issue (readByte p)) :=
  issue_invisible (readByte_alike p) fun h => readByte_all engineStable_quiet h p

theorem writeByte_invisible (p : Word) (d : Byte) : Invisible (issue (writeByte p d)) :=
  issue_invisible (writeByte_alike p d) fun h => writeByte_all engineStable_quiet h p d

theorem root_invisible : Invisible root := by
  intro s t h
  unfold root
  rw [h.same.1.params]
  cases s.params.rootSrc with
  | gprRbp => exact readReg_invisible _ _ s t h
  | const r => exact .ok r h

theorem targetOf_invisible (x : Target) : Invisible (targetOf x) := by
  cases x with
  | literal v => exact invisible_ok v
  | reg c view => exact readReg_invisible c view

theorem addrRegister_invisible (o : Option (BitVec 4)) : Invisible (addrRegister o) := by
  cases o with
  | none => exact invisible_ok 0
  | some c => exact readReg_invisible c qView

theorem effectiveAddress_invisible (e : AddrExpr) : Invisible (effectiveAddress e) :=
  (addrRegister_invisible _).bind fun _ => (addrRegister_invisible _).bind fun _ => invisible_ok _

theorem resolveSource_invisible (src : Source) : Invisible (resolveSource src) := by
  cases src with
  | imm v => exact invisible_ok _
  | reg c view => exact (readReg_invisible c view).bind fun _ => invisible_ok _
  | mem e => exact (effectiveAddress_invisible e).bind fun _ => invisible_ok _

theorem readWordFrom_invisible (va : Word) (n : Nat) : ∀ k, Invisible (readWordFrom va k n) := by
  induction n with
  | zero => exact fun _ => invisible_ok 0
  | succ n ih =>
    exact fun k => root_invisible.bind fun r => (translateVa_invisible _ r).bind fun pa =>
      (readByte_invisible pa).bind fun _ => (ih (k + 1)).bind fun _ => invisible_ok _

/-- Whether a word crosses its page is read off its virtual address, and the refusal keeps the record of Unwritten. -/
theorem ifInOnePage_invisible {α : Type} {f : State → Res α} (hf : Invisible f) (va : Word) :
    Invisible fun s => if inOnePage va then f s else .refused (.pageCrossingWord s.unwritten) := by
  intro s t h
  simp only [h.same.1.unwritten]
  split
  · exact hf s t h
  · exact .refused _

theorem readWord_invisible (va : Word) : Invisible (readWord va) :=
  ifInOnePage_invisible (readWordFrom_invisible va 8 0) va

theorem writeWordFrom_invisible (va v : Word) (n : Nat) : ∀ k, Invisible (writeWordFrom va v k n) := by
  induction n with
  | zero => exact fun _ => invisible_ok ()
  | succ n ih =>
    exact fun k => root_invisible.bind fun r => (translateVa_invisible _ r).bind fun pa =>
      (writeByte_invisible pa _).bind fun _ => ih (k + 1)

theorem writeWord_invisible (va v : Word) : Invisible (writeWord va v) :=
  ifInOnePage_invisible (writeWordFrom_invisible va v 8 0) va

theorem valueOf_invisible (r : Resolved) : Invisible (valueOf r) := by
  cases r with
  | value v => exact invisible_ok v
  | addr va => exact readWord_invisible va

theorem advance_invisible : Invisible advance := readRip_invisible.bind fun _ => writeRip_invisible _

theorem clearAndAdvance_invisible : Invisible clearAndAdvance := clearFlags_invisible.bind fun _ => advance_invisible

theorem popInto_invisible (c : BitVec 4) (view : BitVec 3) : Invisible (popInto c view) :=
  (readReg_invisible _ _).bind fun sp => (readWord_invisible sp).bind fun v =>
    (writeReg_invisible c view v).bind fun _ => (readReg_invisible _ _).bind fun _ => writeReg_invisible _ _ _

theorem pushWord_invisible (v : Word) : Invisible (pushWord v) :=
  (readReg_invisible _ _).bind fun _ => (writeWord_invisible _ v).bind fun _ => writeReg_invisible _ _ _

/-! ### The engine's opcodes -/

/-- Two outcomes of an engine instruction from states that read alike. -/
def InvisibleStep (f : State → Host.Outcome State Fault Refusal) : Prop :=
  ∀ s t, Paired s t → SameOutcome (f s) (f t)

theorem Res.Rel.endEngine {r r' : Res Unit} (h : r.Rel Paired r') : SameOutcome (endEngine r) (endEngine r') := by
  cases h with
  | ok v h => exact h.same
  | err e info h => exact (sparesMemory_engineFault _ _).sameToClient h.same
  | fault f => exact rfl
  | refused r => exact rfl

theorem Invisible.endEngine {f : State → Res Unit} (hf : Invisible f) : InvisibleStep fun s => endEngine (f s) :=
  fun s t h => (hf s t h).endEngine

theorem engineNotImplemented_invisible : InvisibleStep engineNotImplemented := fun _ _ h =>
  (sparesMemory_engineFault _ _).sameToClient h.same

theorem movToRegister_invisible (src : Source) (c : BitVec 4) (view : BitVec 3) :
    Invisible (movToRegister src c view) :=
  (resolveSource_invisible src).bind fun r => (valueOf_invisible r).bind fun v =>
    (writeReg_invisible c view v).bind fun _ => clearAndAdvance_invisible

theorem movToMemory_invisible (src : Source) (e : AddrExpr) : Invisible (movToMemory src e) :=
  (resolveSource_invisible src).bind fun r => (effectiveAddress_invisible e).bind fun va =>
    (valueOf_invisible r).bind fun v => (writeWord_invisible va v).bind fun _ => clearAndAdvance_invisible

theorem aluToRegister_invisible {op : Word → Word → State → Res Word} (hop : ∀ a b, Invisible (issue (op a b)))
    (src : Source) (c : BitVec 4) (view : BitVec 3) : Invisible (aluToRegister op src c view) :=
  (resolveSource_invisible src).bind fun r => (readReg_invisible c view).bind fun a =>
    (valueOf_invisible r).bind fun b => (hop a b).bind fun x =>
      (writeReg_invisible c view x).bind fun _ => advance_invisible

/-- Every engine instruction is a sequence of commands that cannot see the cache (R650, R660 to R671). -/
theorem engine_invisible {i : Instr} (hi : i.isCommand = false) : InvisibleStep (exec i) := by
  intro s t h
  have no := engineNotImplemented_invisible s t h
  cases i <;> simp only [Instr.isCommand, Bool.true_eq_false] at hi <;> simp only [exec]
  case mov src dst =>
    unfold execMov
    split
    · exact (movToRegister_invisible _ _ _).endEngine s t h
    · exact (movToMemory_invisible _ _).endEngine s t h
    · exact no
  case push src dst =>
    unfold execPush
    split
    · exact ((resolveSource_invisible _).bind fun r => (valueOf_invisible r).bind fun v =>
        (pushWord_invisible v).bind fun _ => clearAndAdvance_invisible).endEngine s t h
    · exact no
  case pop src dst =>
    unfold execPop
    split
    · exact ((popInto_invisible _ _).bind fun _ => clearAndAdvance_invisible).endEngine s t h
    · exact no
  case leave src dst =>
    unfold execLeave
    split
    · exact ((readReg_invisible _ _).bind fun bp => (writeReg_invisible _ _ bp).bind fun _ =>
        (popInto_invisible _ _).bind fun _ => clearAndAdvance_invisible).endEngine s t h
    · exact no
  case call src dst =>
    unfold execCall
    split
    · exact ((targetOf_invisible _).bind fun target => readRip_invisible.bind fun ip =>
        (pushWord_invisible (ip + slot)).bind fun _ => (writeRip_invisible target).bind fun _ =>
          clearFlags_invisible).endEngine s t h
    · exact no
  case ret src dst =>
    unfold execRet
    split
    · exact ((readReg_invisible _ _).bind fun sp => (readWord_invisible sp).bind fun ra =>
        (writeRip_invisible ra).bind fun _ => (writeReg_invisible _ _ (sp + 8)).bind fun _ =>
          clearFlags_invisible).endEngine s t h
    · exact no
  case add src dst =>
    unfold execAdd
    split
    · exact (aluToRegister_invisible aluAdd_invisible _ _ _).endEngine s t h
    · exact no
  case sub src dst =>
    unfold execSub
    split
    · exact (aluToRegister_invisible aluSub_invisible _ _ _).endEngine s t h
    · exact no
  case cmp src dst =>
    unfold execCmp
    split
    · exact ((resolveSource_invisible _).bind fun r => (effectiveAddress_invisible _).bind fun va =>
        (valueOf_invisible r).bind fun b => (readWord_invisible va).bind fun a =>
          (aluCmp_invisible a b).bind fun _ => advance_invisible).endEngine s t h
    · exact no
  case jne src dst =>
    unfold execJne
    split
    · exact ((targetOf_invisible _).bind fun target => readFlags_invisible.bind fun f =>
        advance_invisible.ite f.zf (writeRip_invisible target)).endEngine s t h
    · exact no
  case jmp src dst =>
    unfold execJmp
    split
    · exact ((targetOf_invisible _).bind fun target => (writeRip_invisible target).bind fun _ =>
        clearFlags_invisible).endEngine s t h
    · exact no
  all_goals exact no

/-- Settles O59: a command cannot see the cache, and an engine instruction is a sequence of commands of its own and of
the host's. -/
theorem cacheIsInvisible : Obligations.CacheIsInvisible := by
  intro s t i hs hsc ht htc hst hr hw hq
  have h : Alike s t := ⟨hs, ht, hsc, htc, hst⟩
  cases hi : i.isCommand with
  | true => exact (command_alike hi hr hw h).sameOutcome
  | false => exact engine_invisible hi s t ⟨h, hq hi⟩

end Sys2Proof.Machine
end

section
/-! What each instruction changes and leaves unchanged (spec/10_state.md R100, R105 to R107), read off what a command
can do (`CommandDid`) and what every engine instruction keeps (`engine_keeps`); and the state after reset (R120 to R124). -/

namespace Sys2Proof.Machine

/-! ### Reads and writes of single registers -/

/-- Lane j is byte j of the cell (R501). -/
theorem getLsbD_viewLanes (v : View) :
    ∀ j < 8, (viewLanes v).getLsbD j = decide (viewLo v ≤ 8 * j ∧ 8 * j < viewLo v + viewWidth v) := by
  cases v <;> decide

theorem State.laneWritten_iff (s : State) (c : BitVec 4) (v : View) : s.laneWritten c v = true ↔
    ∀ j < 8, viewLo v ≤ 8 * j → 8 * j < viewLo v + viewWidth v → (s.marks c).getLsbD j = true := by
  have bit : ∀ j < 8, (s.marks c &&& viewLanes v).getLsbD j = (viewLanes v).getLsbD j ↔
      (viewLo v ≤ 8 * j → 8 * j < viewLo v + viewWidth v → (s.marks c).getLsbD j = true) := by
    intro j hj
    rw [BitVec.getLsbD_and, getLsbD_viewLanes v j hj]
    by_cases hv : viewLo v ≤ 8 * j ∧ 8 * j < viewLo v + viewWidth v <;> simp [hv]
    omega
  rw [State.laneWritten, beq_iff_eq]
  exact ⟨fun h j hj => (bit j hj).1 (by rw [h]), fun h => BitVec.eq_of_getLsbD_eq fun j hj => (bit j hj).2 (h j hj)⟩

/-- Settles O16: RRD is `readReg`, and its record is set by a clear mark among the view's lanes. -/
theorem rrdReadsView : Obligations.RrdReadsView := by
  intro s c view v hv
  refine ⟨!s.laneWritten c v, ?_, ?_⟩
  · have hr : readReg c view s = .ok (viewRead v (s.cell c)) (s.noteRead (s.laneWritten c v)) := by
      simp only [readReg, hv]
    simp only [exec, execRrd, hr, endCommand]
    rfl
  · rw [Bool.not_eq_false']
    exact s.laneWritten_iff c v

/-- Settles O18: both are one update of the state. -/
theorem ripReadsAndWrites : Obligations.RipReadsAndWrites := fun _ _ => ⟨rfl, rfl⟩

/-! ### The frame of a command -/

theorem access_frame {p : Word} {d : Option Byte} {s u : State} {b : Byte} (h : access p d s = .ok b u) :
    SameButMemory s u := by
  rcases access_cases p d s with ⟨_, hs⟩ | ⟨_, _, _, _, hs⟩ <;> rw [hs] at h <;> cases h
  rfl

/-- Settles O22: of what a command can do, only the write of the flag register changes the flags. -/
theorem onlyFlagCommandsChangeFlags : Obligations.OnlyFlagCommandsChangeFlags := by
  refine ⟨fun s t i hi h hadd hsub hcmp hclr => ?_, fun s t a b => ?_⟩
  · cases command_did hi h with
    | access p d b u v _ ha ht => rw [ht, State.respond_flags, (access_frame ha).flags]
    | flags f v hi _ =>
      rcases hi with ⟨a, b, hi⟩ | ⟨a, b, hi⟩ | ⟨a, b, hi⟩ | hi
      · exact absurd hi (hadd a b)
      · exact absurd hi (hsub a b)
      · exact absurd hi (hcmp a b)
      · exact absurd hi hclr
    | _ =>
      rename_i ht
      rw [ht]
      rfl
  · refine ⟨fun h => ?_, fun h => ?_, fun h => ?_, fun h => ?_, fun h => ?_⟩ <;> cases h <;> rfl

/-- Settles O31: each change a command can make is in a column of its own. -/
theorem commandFrame : Obligations.CommandFrame := by
  intro s t i hi h
  cases command_did hi h with
  | noted w v hi ht =>
    subst ht
    exact ⟨.inl ⟨rfl, rfl⟩, .inl ⟨rfl, rfl⟩, .inl rfl, .inl rfl, .inl rfl, .inr hi, rfl, rfl, rfl, rfl, rfl⟩
  | access p d b u v hi ha ht =>
    obtain ⟨c, m, rfl⟩ := (access_frame ha).exists_eq
    subst ht
    have hcrd : (∃ a, i = .crd a) ∨ ∃ a d, i = .cwr a d := hi.imp (⟨p, ·⟩) (⟨p, ·⟩)
    exact ⟨.inl ⟨rfl, rfl⟩, .inl ⟨rfl, rfl⟩, .inr hcrd, .inl rfl, .inr (or_assoc.1 (.inl hcrd)), .inl rfl,
      rfl, rfl, rfl, rfl, rfl⟩
  | cell c view a x m v hi ht =>
    subst ht
    exact ⟨.inr ⟨c, view, a, hi⟩, .inl ⟨rfl, rfl⟩, .inl rfl, .inl rfl, .inl rfl, .inl rfl, rfl, rfl, rfl, rfl, rfl⟩
  | rip a hi ht =>
    subst ht
    exact ⟨.inl ⟨rfl, rfl⟩, .inr ⟨a, hi⟩, .inl rfl, .inl rfl, .inl rfl, .inl rfl, rfl, rfl, rfl, rfl, rfl⟩
  | pte lvl a b present hi ht =>
    subst ht
    exact ⟨.inl ⟨rfl, rfl⟩, .inl ⟨rfl, rfl⟩, .inl rfl, .inr ⟨lvl, a, b, present, hi⟩, .inl rfl, .inl rfl,
      rfl, rfl, rfl, rfl, rfl⟩
  | word a b hi ha hb ht =>
    subst ht
    exact ⟨.inl ⟨rfl, rfl⟩, .inl ⟨rfl, rfl⟩, .inl rfl, .inl rfl, .inr (.inr (.inr ⟨a, b, hi⟩)), .inl rfl,
      rfl, rfl, rfl, rfl, rfl⟩
  | _ =>
    -- an error, a plain read or a write of the flags
    rename_i ht
    subst ht
    exact ⟨.inl ⟨rfl, rfl⟩, .inl ⟨rfl, rfl⟩, .inl rfl, .inl rfl, .inl rfl, .inl rfl, rfl, rfl, rfl, rfl, rfl⟩

/-! ### The frame of an engine instruction -/

/-- From s to t nothing changed that no engine instruction writes, and no request waits to land in t. -/
def EngineKept (s t : State) : Prop :=
  t.pt = s.pt ∧ t.params = s.params ∧ t.prog = s.prog ∧ t.resp = s.resp ∧ t.inbox = s.inbox ∧ t.gaps = []

theorem engineStable_kept (s : State) : EngineStable (EngineKept s) where
  access p d u h := by
    rcases access_cases p d u with ⟨_, hu⟩ | ⟨_, _, c, m, hu⟩ <;> rw [hu] <;> exact h
  setCell _ _ _ _ h := h
  setRip _ _ h := h
  setFlags _ _ h := h
  noteRead _ _ h := h
  host u h := by
    obtain ⟨_, _, _, _, _, hgaps⟩ := id h
    rw [hostTurn_nil hgaps]
    exact h

/-- Settles O48: with no request to land, each of the engine's own commands keeps what the statement lists. -/
theorem engineFrame : Obligations.EngineFrame := fun s _ _ hi hg ht =>
  engine_keeps (engineStable_kept s) hi (fun _ _ _ h => h) ⟨rfl, rfl, rfl, rfl, rfl, hg⟩ ht

/-! ### Reset -/

/-- Settles O60: `State.resetOf` gives each field its value of R120 to R124. -/
theorem resetState : Obligations.ResetState := by
  intro p image
  refine ⟨fun i => ⟨?_, fun l hl => ?_⟩, fun c => Vector.getElem_replicate c.isLt, rfl, rfl,
    State.resetOf_pt p image, rfl⟩
  · rw [State.resetOf_cache]
    exact List.length_replicate
  · rw [State.eq_reset_of_mem_resetOf_cache hl]
    exact ⟨rfl, by decide⟩

end Sys2Proof.Machine
end

section
/-! The address codec: each slice is a bit field (spec/20_memory.md R201 to R203), replacing a field and reading it back
(R205 to R207), and the tag, set and offset as a name of a byte (R204). -/

namespace Sys2Proof.Machine

/-! ### Slices as bit fields -/

/-- A field taken out by a mask of its bits and a shift. -/
theorem and_ushiftRight_eq_extractLsb' {mask : Word} {lo n : Nat}
    (hm : ∀ j < 64, mask.getLsbD j = decide (lo ≤ j ∧ j < lo + n)) (a : Word) :
    (a &&& mask) >>> lo = zext64 (a.extractLsb' lo n) := by
  apply BitVec.eq_of_getLsbD_eq
  intro j hj
  simp only [zext64, BitVec.getLsbD_ushiftRight, BitVec.getLsbD_and, BitVec.getLsbD_setWidth,
    BitVec.getLsbD_extractLsb', hj, decide_true, Bool.true_and]
  by_cases hin : lo + j < 64
  · rw [hm _ hin, Bool.and_comm]
    simp
  · simp [BitVec.getLsbD_of_ge a (lo + j) (by omega)]

theorem pageOffset_eq (a : Word) : pageOffset a = zext64 (a.extractLsb' 0 12) :=
  and_ushiftRight_eq_extractLsb' (mask := 0xFFF) (lo := 0) (by decide) a

theorem pageNumber_eq (a : Word) : pageNumber a = zext64 (a.extractLsb' 12 40) :=
  and_ushiftRight_eq_extractLsb' (by decide) a

theorem blockOffset_eq (a : Word) : blockOffset a = zext64 (a.extractLsb' 0 6) :=
  and_ushiftRight_eq_extractLsb' (mask := 0x3F) (lo := 0) (by decide) a

theorem setIndex_eq (a : Word) : setIndex a = zext64 (a.extractLsb' 6 6) :=
  and_ushiftRight_eq_extractLsb' (by decide) a

/-- Settles O1: each mask covers the bits of its field. -/
theorem codecSlicesAreBitFields : Obligations.CodecSlicesAreBitFields := fun a =>
  ⟨pageOffset_eq a, pageNumber_eq a, blockOffset_eq a, setIndex_eq a⟩

/-! ### The codec bit by bit -/

theorem getLsbD_pageOffset (a : Word) {j : Nat} (hj : j < 64) :
    (pageOffset a).getLsbD j = (decide (j < 12) && a.getLsbD j) := by
  rw [pageOffset, BitVec.getLsbD_and, getLsbD_offsetMask j hj, Bool.and_comm]

theorem getLsbD_pageNumber (a : Word) {j : Nat} (hj : j < 64) :
    (pageNumber a).getLsbD j = (decide (j < 40) && a.getLsbD (12 + j)) := by
  simp [pageNumber_eq, zext64, hj]

theorem getLsbD_withPageOffset (a q : Word) {j : Nat} (hj : j < 64) :
    (withPageOffset a q).getLsbD j = if j < 12 then q.getLsbD j else a.getLsbD j := by
  simp only [withPageOffset, BitVec.getLsbD_or, BitVec.getLsbD_and, BitVec.getLsbD_not, getLsbD_offsetMask j hj, hj]
  by_cases h : j < 12 <;> simp [h]

theorem getLsbD_withPageNumber (a p : Word) {j : Nat} (hj : j < 64) :
    (withPageNumber a p).getLsbD j = if 12 ≤ j ∧ j < 52 then p.getLsbD (j - 12) else a.getLsbD j := by
  simp only [withPageNumber, BitVec.getLsbD_or, BitVec.getLsbD_and, BitVec.getLsbD_not, BitVec.getLsbD_shiftLeft,
    getLsbD_pnMask j hj, hj]
  by_cases h : 12 ≤ j ∧ j < 52
  · simp [h, Nat.not_lt.2 h.1]
  · simp [h]

theorem withPageOffset_pageOffset (a : Word) : withPageOffset a (pageOffset a) = a := by
  apply BitVec.eq_of_getLsbD_eq
  intro j hj
  rw [getLsbD_withPageOffset _ _ hj, getLsbD_pageOffset _ hj]
  split <;> simp [*]

theorem withPageNumber_pageNumber (a : Word) : withPageNumber a (pageNumber a) = a := by
  apply BitVec.eq_of_getLsbD_eq
  intro j hj
  rw [getLsbD_withPageNumber _ _ hj]
  split
  · rw [getLsbD_pageNumber _ (by omega), decide_eq_true (by omega), Bool.true_and, Nat.add_sub_cancel' (by omega)]
  · rfl

theorem pageNumber_withPageNumber (a p : Word) : pageNumber (withPageNumber a p) = p &&& 0xFFFFFFFFFF := by
  have hmask : ∀ j < 64, (0xFFFFFFFFFF : Word).getLsbD j = decide (j < 40) := by decide
  apply BitVec.eq_of_getLsbD_eq
  intro j hj
  rw [getLsbD_pageNumber _ hj, BitVec.getLsbD_and, hmask j hj, Bool.and_comm]
  by_cases h : j < 40
  · rw [getLsbD_withPageNumber _ _ (by omega), if_pos (by omega), Nat.add_sub_cancel_left]
  · simp [h]

theorem pageOffset_withPageOffset (a q : Word) : pageOffset (withPageOffset a q) = q &&& 0xFFF := by
  apply BitVec.eq_of_getLsbD_eq
  intro j hj
  rw [getLsbD_pageOffset _ hj, getLsbD_withPageOffset _ _ hj, BitVec.getLsbD_and, getLsbD_offsetMask j hj,
    Bool.and_comm]
  by_cases h : j < 12 <;> simp [h]

/-- Settles O2: the two functions that replace a field keep the bits outside it, and the two that read one read it. -/
theorem codecRoundTrips : Obligations.CodecRoundTrips := fun a p q =>
  ⟨withPageOffset_pageOffset a, withPageNumber_pageNumber a, pageNumber_withPageNumber a p,
    pageOffset_withPageOffset a q⟩

/-! ### The name of a byte -/

theorem setIndex_toNat (a : Word) : (setIndex a).toNat = (setIndexOf a).val := by
  rw [setIndex_eq, setIndexOf_val, zext64, BitVec.toNat_setWidth, BitVec.extractLsb'_toNat, Nat.shiftRight_eq_div_pow]
  omega

theorem blockOffset_toNat (a : Word) : (blockOffset a).toNat = (offsetOf a).val := by
  rw [blockOffset_eq, offsetOf_val, zext64, BitVec.toNat_setWidth, BitVec.extractLsb'_toNat, Nat.shiftRight_eq_div_pow]
  omega

/-- Byte o of the block that a line of this set and tag holds (R204, R407). -/
def byteAddr (i : Fin 64) (tag : BitVec 40) (o : Fin 64) : Word := wbAddr i tag + BitVec.ofNat 64 o.val

theorem byteAddr_toNat (i : Fin 64) (tag : BitVec 40) (o : Fin 64) :
    (byteAddr i tag o).toNat = tag.toNat * 4096 + i.val * 64 + o.val := by
  rw [byteAddr, BitVec.toNat_add, wbAddr_toNat, BitVec.toNat_ofNat]
  omega

theorem byteAddr_lt (i : Fin 64) (tag : BitVec 40) (o : Fin 64) : (byteAddr i tag o).toNat < 2 ^ 52 := by
  rw [byteAddr_toNat]
  omega

theorem tagOf_byteAddr (i : Fin 64) (tag : BitVec 40) (o : Fin 64) : tagOf (byteAddr i tag o) = tag := by
  apply BitVec.eq_of_toNat_eq
  rw [tagOf_toNat, byteAddr_toNat]
  omega

theorem setIndexOf_byteAddr (i : Fin 64) (tag : BitVec 40) (o : Fin 64) : setIndexOf (byteAddr i tag o) = i := by
  apply Fin.ext
  rw [setIndexOf_val, byteAddr_toNat]
  omega

theorem offsetOf_byteAddr (i : Fin 64) (tag : BitVec 40) (o : Fin 64) : offsetOf (byteAddr i tag o) = o := by
  apply Fin.ext
  rw [offsetOf_val, byteAddr_toNat]
  omega

/-- Settles O3: the byte of a tag, set and offset is `byteAddr`, and no other address below 2^52 has the three. -/
theorem addressNamesOneByte : Obligations.AddressNamesOneByte := by
  refine ⟨fun a => ⟨rfl, pageNumber_eq a, pageNumber_eq a, setIndex_toNat a, blockOffset_toNat a⟩, fun tag i o => ?_⟩
  refine ⟨byteAddr i tag o, byteAddr_lt i tag o, tagOf_byteAddr i tag o, setIndexOf_byteAddr i tag o,
    offsetOf_byteAddr i tag o, fun q hq ht hi ho => ?_⟩
  exact slices_inj hq (byteAddr_lt i tag o) (hi.trans (setIndexOf_byteAddr i tag o).symm)
    (ht.trans (tagOf_byteAddr i tag o).symm) (ho.trans (offsetOf_byteAddr i tag o).symm)

end Sys2Proof.Machine
end

section
/-! The valid lines of the cache stay valid (spec/20_memory.md R229, spec/40_cache.md R408), with no premise on the
state. -/

namespace Sys2Proof.Machine

/-! ### One set -/

/-- A way the set does not have is an Invalid line (log 19). -/
theorem lt_length_of_valid_wayOf {set : CacheSet} {w : Nat} (h : (wayOf set w).valid) : w < set.length := by
  by_contra hw
  rw [wayOf, List.getD_eq_default _ _ (Nat.not_lt.1 hw)] at h
  exact Line.not_valid_reset h

/-- Every way that is valid in the first set is valid in the second. -/
def SetStays (a b : CacheSet) : Prop := ∀ w, (wayOf a w).valid → (wayOf b w).valid

theorem SetStays.refl (a : CacheSet) : SetStays a a := fun _ h => h

theorem SetStays.trans {a b c : CacheSet} (h : SetStays a b) (h' : SetStays b c) : SetStays a c := fun w hw =>
  h' w (h w hw)

theorem setStays_set (set : CacheSet) (w : Nat) {l : Line} (hl : l.valid) : SetStays set (set.set w l) := by
  intro v hv
  have hlt := lt_length_of_valid_wayOf hv
  rw [wayOf_eq (by rwa [List.length_set]), List.getElem_set]
  split
  · exact hl
  · rwa [wayOf_eq hlt] at hv

theorem setStays_touch (set : CacheSet) (w : Nat) : SetStays set (touch set w) := by
  intro v hv
  have hlt := lt_length_of_valid_wayOf hv
  rw [wayOf_eq hlt] at hv
  rw [wayOf_eq (by rwa [length_touch]), getElem_touch, Line.valid, touchLine_state]
  exact hv

theorem setStays_storeIn (set : CacheSet) (w : Nat) (o : Fin 64) (d : Option Byte) :
    SetStays set (storeIn set w o d) := by
  cases d with
  | none => exact .refl set
  | some d => exact setStays_set set w (by simp [Line.valid, Line.store])

/-- A hit changes no line, and a fill makes its line Clean. -/
theorem setStays_place (i : Fin 64) (p : Word) (x : SetMem) : SetStays x.set (place i p x).2.set := by
  unfold place
  split
  · exact .refl x.set
  · exact setStays_set x.set _ (by simp [Line.valid])

theorem setStays_accessSet (i : Fin 64) (p : Word) (d : Option Byte) (x : SetMem) :
    SetStays x.set (accessSet i p d x).2.set :=
  (setStays_place i p x).trans ((setStays_touch _ _).trans (setStays_storeIn _ _ _ d))

/-! ### The whole cache -/

/-- Every line that is valid in s is valid in t. -/
def LinesStay (s t : State) : Prop := ∀ i, SetStays (s.setAt i) (t.setAt i)

theorem LinesStay.refl (s : State) : LinesStay s s := fun i => .refl (s.setAt i)

theorem LinesStay.trans {s t u : State} (h : LinesStay s t) (h' : LinesStay t u) : LinesStay s u := fun i =>
  (h i).trans (h' i)

theorem SparesMemory.linesStay {f : State → State} (hf : SparesMemory f) (s : State) : LinesStay s (f s) := by
  intro i
  rw [State.setAt, State.setAt, hf.cache]
  exact .refl s.cache[i]

theorem LinesStay.access (p : Word) (d : Option Byte) (s : State) : (access p d s).All (LinesStay s) := by
  unfold Machine.access
  split
  · exact .refl s
  · intro j
    simp only [State.setAt, State.setCache_cache, getElem_set_fin]
    split
    · rename_i hj
      subst hj
      exact setStays_accessSet (setIndexOf p) p d ⟨s.cache[setIndexOf p], s.mem⟩
    · exact .refl s.cache[j]

theorem CommandDid.linesStay {i : Instr} {s t : State} (hd : CommandDid i s t) : LinesStay s t := by
  cases hd with
  | access p d b u v hi ha ht =>
    have hu : (Res.ok b u).All (LinesStay s) := ha ▸ LinesStay.access p d s
    rw [ht]
    exact hu
  | _ =>
    -- no other command changes the cache
    rename_i ht
    rw [ht]
    exact .refl s

theorem LinesStay.afterRequest (r : Request) (s : State) : LinesStay s (afterRequest r s) := by
  rcases afterRequest_did r s with ⟨_, _, _, _, hd⟩ | ⟨_, ht⟩
  · exact hd.linesStay
  · rw [ht]
    exact .refl s

theorem LinesStay.hostTurn (s : State) : LinesStay s (hostTurn s) :=
  (hostTurn_keeps (P := LinesStay s) (Q := fun _ => True) (fun _ _ h => h) (fun _ _ h => h)
    (fun r t _ h => h.trans (.afterRequest r t)) (.refl s) fun _ _ => trivial).1

theorem Res.All.mono {α : Type} {P Q : State → Prop} {r : Res α} (h : r.All P) (hpq : ∀ s, P s → Q s) : r.All Q := by
  cases r with
  | ok v s => exact hpq s h
  | err e info s => exact hpq s h
  | fault f => trivial
  | refused r => trivial

theorem engineStable_linesStay (s : State) : EngineStable (LinesStay s) where
  access p d t h := (LinesStay.access p d t).mono fun _ => h.trans
  setCell _ _ _ _ h := h
  setRip _ _ h := h
  setFlags _ _ h := h
  noteRead _ _ h := h
  host t h := h.trans (.hostTurn t)

theorem State.setAt_engineTurn {s s' : State} (h : s.engineTurn = some s') (i : Fin 64) : s'.setAt i = s.setAt i := by
  unfold State.engineTurn at h
  split at h <;> cases h <;> rfl

theorem step_linesStay {s t : State} (h : step s = .next t) : LinesStay s t := by
  have turn : ∀ {s'}, s.engineTurn = some s' → LinesStay s s' := fun hs i => by
    rw [State.setAt_engineTurn hs]
    exact .refl (s.setAt i)
  cases step_did h with
  | command r rest i hs hd hx =>
    exact ((sparesMemory_inbox rest).linesStay s).trans (command_did (isCommand_of_decodeRequest hd) hx).linesStay
  | refusedWord r rest hs ht =>
    rw [ht]
    exact .refl s
  | launch prog exitRip rest hs ht =>
    rw [ht]
    exact .refl s
  | engine s' i hs hi hx =>
    exact engine_keeps (engineStable_linesStay s) hi (fun _ _ _ h => h)
      ((turn hs).trans ((sparesMemory_noteRead _).linesStay s')) hx
  | run s' w run hs ht =>
    rw [ht]
    exact (turn hs).trans ((sparesMemory_noteRead w).linesStay s')

/-- Settles O10: an access touches, fills or writes a line, which makes none Invalid, and nothing else changes one. -/
theorem noStepInvalidatesALine : Obligations.NoStepInvalidatesALine := fun _ _ h i w _ hv =>
  have ht := step_linesStay h i w hv
  ⟨lt_length_of_valid_wayOf ht, ht⟩

end Sys2Proof.Machine
end

section
/-! The word port (spec/44_store_port.md R600 to R602): the bytes of a word of the store, what BRD64 and BWR64 do to the
state, and that the client sees a BWR64 only where no line holds its block (spec/20_memory.md R222). Beside it, CRD and
CWR as the client sees them (R220, R221). -/

namespace Sys2Proof.Machine

/-! ### The bytes of a word -/

theorem byteOf_eq_extractLsb' (v : Word) (k : Nat) : byteOf v k = v.extractLsb' (8 * k) 8 := rfl

/-- Byte k of a word is byte k of the list it was made of (R212). -/
theorem byteOf_wordOfBytes (bs : List Byte) (k : Nat) (hk : k < 8) : byteOf (wordOfBytes bs) k = bs.getD k 0 := by
  induction bs generalizing k with
  | nil =>
    apply BitVec.eq_of_getLsbD_eq
    intro j hj
    simp [byteOf, wordOfBytes]
  | cons b bs ih =>
    cases k with
    | zero =>
      apply BitVec.eq_of_getLsbD_eq
      intro j hj
      simp [byteOf, wordOfBytes, zext64, hj, Nat.lt_trans hj]
    | succ k =>
      rw [List.getD_cons_succ, ← ih k (by omega)]
      apply BitVec.eq_of_getLsbD_eq
      intro j hj
      have hb : b.getLsbD (8 * (k + 1) + j) = false := BitVec.getLsbD_of_ge b _ (by omega)
      have hsub : 8 * (k + 1) + j - 8 = 8 * k + j := by omega
      simp [byteOf, wordOfBytes, zext64, hj, hb, hsub]
      omega

theorem byteOf_readWord (m : Memory) (a k : Nat) (hk : k < 8) : byteOf (m.readWord a) k = m.read (a + k) := by
  rw [Memory.readWord, byteOf_wordOfBytes _ k hk, Memory.readBytes_eq]
  simp [List.getD_eq_getElem?_getD, hk]

/-! ### The two commands -/

section

variable {s : State} {a : Word} (ha : a.toNat % 8 = 0) (hb : a.toNat + 8 ≤ s.params.memSize)

include ha hb

theorem wordPortCheck_ok : wordPortCheck a s = .ok () s := by
  simp [wordPortCheck, ha, Nat.not_lt.2 hb]

theorem exec_brd64 : exec (.brd64 a) s = .next (s.respond .ok (s.mem.readWord a.toNat)) := by
  simp only [exec, execBrd64, wordPortCheck_ok ha hb, Res.bind, endCommand]

theorem exec_bwr64 (b : Word) :
    exec (.bwr64 a b) s = .next ((s.setMem (s.mem.writeWord a.toNat b)).respond .ok 0) := by
  simp only [exec, execBwr64, wordPortCheck_ok ha hb, Res.bind, endCommand]

end

/-- Settles O23: the value is the word of the store, byte for byte. -/
theorem brd64ReadsStore : Obligations.Brd64ReadsStore := fun s a ha hb =>
  ⟨s.mem.readWord a.toNat, exec_brd64 ha hb, fun k hk => byteOf_readWord s.mem a.toNat k hk⟩

/-- Settles O24: BWR64 writes the eight bytes of the word, and BRD64 puts them together again. -/
theorem bwr64WritesStore : Obligations.Bwr64WritesStore := by
  intro s a b ha hb
  refine ⟨_, exec_bwr64 ha hb b, rfl, fun k hk => ?_, fun q hq => ?_, ?_⟩
  · rw [State.respond_mem, State.setMem_mem, Memory.read_writeWord, if_pos (by omega), Nat.add_sub_cancel_left,
      byteOf_eq_extractLsb']
  · rw [State.respond_mem, State.setMem_mem, Memory.read_writeWord, if_neg hq]
  · rw [exec_brd64 ha (by exact hb), State.respond_mem, State.setMem_mem, Memory.readWord_writeWord]
    rfl

/-! ### What the client sees of a BWR64 -/

theorem State.eff_setMem_of_holds {s : State} {q : Word} (h : s.holds q) (m : Memory) :
    (s.setMem m).eff q = s.eff q := by
  obtain ⟨l, hl, ht⟩ := h
  cases hf : s.cache[setIndexOf q].find? fun l => l.holds (tagOf q) with
  | none => exact absurd ht (List.find?_eq_none.1 hf l hl)
  | some l' => simp only [State.eff, State.setMem_cache, hf]

theorem State.eff_of_not_holds {s : State} {q : Word} (h : ¬ s.holds q) : s.eff q = s.mem.read q.toNat := by
  have hnone : s.cache[setIndexOf q].find? (fun l => l.holds (tagOf q)) = none :=
    List.find?_eq_none.2 fun l hl ht => h ⟨l, hl, ht⟩
  simp only [State.eff, hnone]

/-- Settles O26: a held block is read from its line, any other from the store. -/
theorem hostWriteHazard : Obligations.HostWriteHazard := by
  intro s t a b q ha hb ht
  rw [exec_bwr64 ha hb b] at ht
  cases ht
  refine ⟨fun h => State.eff_setMem_of_holds h _, fun k hk hq h => ?_⟩
  have hk' : q.toNat - a.toNat = k := by omega
  rw [(sparesMemory_respond _ _).eff, State.eff_of_not_holds (s := s.setMem (s.mem.writeWord a.toNat b)) h,
    State.setMem_mem, Memory.read_writeWord, if_pos (by omega), hk', byteOf_eq_extractLsb']

/-! ### The client's view of CRD and CWR -/

theorem exec_crd {a : Word} {b : Byte} {s t : State} (h : readByte a s = .ok b t) :
    exec (.crd a) s = .next (t.respond .ok (zext64 b)) := by
  simp only [exec, execCrd, h, Res.bind, endCommand]

theorem exec_cwr {a : Word} {d : Byte} {s t : State} (h : writeByte a d s = .ok () t) :
    exec (.cwr a d) s = .next (t.respond .ok 0) := by
  simp only [exec, execCwr, h, Res.bind, endCommand]

/-- Settles O4: a CRD is an access that writes no byte, a CWR one that writes one. -/
theorem clientSeesPlainMemory : Obligations.ClientSeesPlainMemory := by
  intro s p d hi hc hp
  constructor
  · obtain ⟨t, ht, ha⟩ := readByte_ok hi hc hp
    refine ⟨_, exec_crd ht, ?_, fun q hq => (ha.kept q hq (by omega)).1, ha.kept⟩
    obtain ⟨c, m, rfl⟩ := ha.frame.exists_eq
    rfl
  · obtain ⟨t, ht, ha, hd⟩ := writeByte_ok hi hc hp d
    refine ⟨_, exec_cwr ht, ?_, hd, fun q hq hne => (ha.kept q hq ?_).1, ha.kept⟩
    · obtain ⟨c, m, rfl⟩ := ha.frame.exists_eq
      rfl
    · have hpq : q.toNat ≠ p.toNat := fun he => hne (BitVec.eq_of_toNat_eq he)
      omega

end Sys2Proof.Machine
end

section
/-! Every step but a BWR64 to a block that a line holds keeps the Clean lines equal to the store (spec/20_memory.md
R221). -/

namespace Sys2Proof.Machine

/-! ### BWR64 beside the cache (R602) -/

/-- A BWR64 to a block that no line holds reaches no line's block, since a word lies in one block. -/
theorem State.Coherent.setMem_writeWord {s : State} (hi : s.Inv) (h : s.Coherent) {a : Word} (ha : a.toNat % 8 = 0)
    (hb : a.toNat + 8 ≤ s.params.memSize) (hn : ¬ s.holds a) (v : Word) :
    (s.setMem (s.mem.writeWord a.toNat v)).Coherent := by
  intro i l hl hcl
  have hsmall : a.toNat < 2 ^ 52 := by
    have := hi.params.2.2.2
    omega
  have hout : ¬((wbAddr i l.tag).toNat ≤ a.toNat ∧ a.toNat < (wbAddr i l.tag).toNat + 64) := fun hin => by
    obtain ⟨rfl, ht⟩ := slices_of_mem_block hsmall hin.1 hin.2
    exact hn ⟨l, hl, (Line.holds_iff l _).2 ⟨by simp [Line.valid, hcl], ht.symm⟩⟩
  rw [h i l hl hcl, State.setMem_mem]
  ext1 k hk
  rw [busReadLine_getElem, busReadLine_getElem, Memory.read_writeWord, if_neg]
  have := wbAddr_toNat i l.tag
  omega

/-! ### What a command keeps -/

/-- The request is no BWR64. -/
def NoHostWrite (r : Request) : Prop := ∀ a b, decodeRequest r ≠ .ok (.bwr64 a b)

/-- The invariant and the condition of R221. -/
def Sound (s : State) : Prop := s.Inv ∧ s.Coherent

theorem SparesMemory.sound {f : State → State} (hf : SparesMemory f) {s : State} (h : Sound s) : Sound (f s) :=
  ⟨hf.inv h.1, hf.coherent h.2⟩

theorem Sound.access {s : State} (h : Sound s) (p : Word) (d : Option Byte) : (access p d s).All Sound := by
  by_cases hp : p.toNat < s.params.memSize
  · obtain ⟨b, t, ht, ha⟩ := access_ok h.1 hp d
    rw [ht]
    exact ⟨ha.inv, ha.coherent h.2⟩
  · rw [access_outOfBounds d (Nat.not_lt.1 hp)]
    exact h

theorem CommandDid.sound {i : Instr} {s t : State} (hd : CommandDid i s t) (h : Sound s)
    (hw : ∀ a b, i = .bwr64 a b → ¬ s.holds a) : Sound t := by
  refine ⟨hd.inv h.1, ?_⟩
  cases hd with
  | access p d b u v hi ha ht =>
    have hu : (Res.ok b u).All Sound := ha ▸ h.access p d
    rw [ht]
    exact (sparesMemory_respond _ _).coherent hu.2
  | word a b hi ha hb ht =>
    rw [ht]
    exact (sparesMemory_respond _ _).coherent (h.2.setMem_writeWord h.1 ha hb (hw a b hi) b)
  | _ =>
    -- no other command changes the cache or the store
    rename_i ht
    rw [ht]
    exact h.2

theorem Sound.afterRequest {r : Request} (hr : NoHostWrite r) {s : State} (h : Sound s) :
    Sound (afterRequest r s) := by
  rcases afterRequest_did r s with ⟨i, hi, _, _, hd⟩ | ⟨_, ht⟩
  · exact hd.sound h fun a b he => absurd (he ▸ hi) (hr a b)
  · rw [ht]
    exact (sparesMemory_respond _ _).sound h

/-! ### What a step keeps -/

/-- Inside an engine instruction: sound, and no BWR64 is to land. -/
structure SoundTurn (s : State) : Prop where
  sound : Sound s
  noWrite : ∀ r ∈ s.mayLand, NoHostWrite r

theorem SoundTurn.hostTurn {s : State} (h : SoundTurn s) : SoundTurn (hostTurn s) :=
  have hk := hostTurn_keeps (P := Sound) (Q := NoHostWrite) (fun _ inbox h => (sparesMemory_inbox inbox).sound h)
    (fun _ gaps h => (sparesMemory_gaps gaps).sound h) (fun _ _ hr h => h.afterRequest hr) h.sound h.noWrite
  ⟨hk.1, hk.2⟩

theorem engineStable_soundTurn : EngineStable SoundTurn where
  access p d s h := by
    have ha := h.sound.access p d
    rcases access_cases p d s with ⟨_, hs⟩ | ⟨_, b, c, m, hs⟩ <;> rw [hs] at ha ⊢ <;> exact ⟨ha, h.noWrite⟩
  setCell _ c x m h := ⟨(sparesMemory_setCell c x m).sound h.sound, h.noWrite⟩
  setRip _ x h := ⟨(sparesMemory_setRip x).sound h.sound, h.noWrite⟩
  setFlags _ f h := ⟨(sparesMemory_setFlags f).sound h.sound, h.noWrite⟩
  noteRead _ w h := ⟨(sparesMemory_noteRead w).sound h.sound, h.noWrite⟩
  host _ h := h.hostTurn

theorem State.Coherent.engineTurn {s s' : State} (h : s.Coherent) (hs : s.engineTurn = some s') : s'.Coherent := by
  unfold State.engineTurn at hs
  split at hs <;> cases hs <;> exact h

/-- Settles O57: of what a command can do, only a BWR64 changes the store and not the cache, and it reaches no line;
inside an engine instruction there is none. -/
theorem stepKeepsCoherence : Obligations.StepKeepsCoherence := by
  intro s t hi hc hw hq ht
  cases step_did ht with
  | command r rest i hs hd hx =>
    exact ((command_did (isCommand_of_decodeRequest hd) hx).sound ((sparesMemory_inbox rest).sound ⟨hi, hc⟩)
      fun a b he => hw r rest a b hs (he ▸ hd)).2
  | refusedWord r rest hs ht =>
    rw [ht]
    exact hc
  | launch prog exitRip rest hs ht =>
    rw [ht]
    exact hc
  | engine s' i hs hi' hx =>
    have h : SoundTurn (s'.noteRead s'.ripWr) :=
      ⟨(sparesMemory_noteRead _).sound ⟨hi.engineTurn hs, hc.engineTurn hs⟩, hq s' hs⟩
    exact (engine_keeps engineStable_soundTurn hi' (fun _ e info h =>
      ⟨(sparesMemory_engineFault e info).sound h.sound, h.noWrite⟩) h hx).sound.2
  | run s' w run hs ht =>
    rw [ht]
    exact (hc.engineTurn hs).noteRead w

end Sys2Proof.Machine
end

section
/-! A PTWR of the host that lands between two translations of one word store (spec/41_translation.md R455,
spec/70_reset_and_hazards.md R804). The store is cut at the byte before whose XLT it lands: up to there it is a store
with nothing landing, and from there on one from the state that the PTWR leaves. -/

namespace Sys2Proof.Machine

/-! ### Gaps in which no request lands (log 7) -/

/-- The gap before the read of the root: one where it is a register (R651). -/
def rootGaps : RootSrc → List Nat
  | .gprRbp => [0]
  | .const _ => []

/-- The gaps before the commands of m bytes of a word store: the root, the XLT and the CWR of each (R655). -/
def byteGaps (x : RootSrc) : Nat → List Nat
  | 0 => []
  | m + 1 => rootGaps x ++ 0 :: 0 :: byteGaps x m

theorem byteGaps_gprRbp (m : Nat) : byteGaps .gprRbp m = List.replicate (3 * m) 0 := by
  induction m with
  | zero => rfl
  | succ m ih => rw [byteGaps, ih]; rfl

theorem byteGaps_const (x : Word) (m : Nat) : byteGaps (.const x) m = List.replicate (2 * m) 0 := by
  induction m with
  | zero => rfl
  | succ m ih => rw [byteGaps, ih]; rfl

/-- A store begins with the read of the root, be it for one of the m bytes or, with m = 0, for the next. -/
theorem byteGaps_append_rootGaps (x : RootSrc) (m : Nat) (g : List Nat) :
    ∃ g', byteGaps x m ++ (rootGaps x ++ g) = rootGaps x ++ g' := by
  cases m with
  | zero => exact ⟨g, rfl⟩
  | succ m => exact ⟨_, by rw [byteGaps, List.append_assoc]⟩

/-- The state with other gaps to come. -/
def State.withGaps (s : State) (g : List Nat) : State := { s with gaps := g }

theorem State.withGaps_eq_self {s : State} {g : List Nat} (h : s.gaps = g) : s.withGaps g = s := by
  subst h
  rfl

theorem sparesMemory_withGaps (g : List Nat) : SparesMemory (·.withGaps g) := sparesMemory_gaps g

/-- A gap in which none is to land is passed over. -/
theorem issue_passes {α : Type} {s : State} {g : List Nat} (h : s.gaps = 0 :: g) (f : State → Res α) :
    issue f s = f (s.withGaps g) := issue_zero h f

theorem translateVa_passes {s : State} {g : List Nat} (hg : s.gaps = 0 :: g) {va r pa : Word}
    (h : walk s.pt va r = .ok pa) : issue (translateVa va r) s = .ok pa (s.withGaps g) := by
  rw [issue_passes hg]
  exact translateVa_ok (s := s.withGaps g) h

theorem root_passes {s : State} {g : List Nat} (hg : s.gaps = rootGaps s.params.rootSrc ++ g) :
    root s = .ok s.rootKey ((s.withGaps g).noteRead s.rootWritten) := by
  unfold root State.rootKey State.rootWritten
  cases hx : s.params.rootSrc with
  | gprRbp =>
    rw [hx] at hg
    simp only [issue_passes hg, readReg_q]
    rfl
  | const x =>
    rw [hx] at hg
    rw [State.noteRead_true, State.withGaps_eq_self (g := g) hg]

/-- Reading the root adds no note, whatever may land. -/
def RootNoted (s : State) : Prop := s.rootWritten = true ∨ s.unwritten = true

theorem rootNoted_noteRead (s : State) : RootNoted (s.noteRead s.rootWritten) := by
  unfold RootNoted
  cases h : s.rootWritten <;> simp [h]

theorem RootNoted.noteRead_eq {s : State} (h : RootNoted s) : s.noteRead s.rootWritten = s := by
  rcases h with h | h
  · rw [h, State.noteRead_true]
  · exact State.noteRead_of_unwritten h _

theorem RootNoted.mono {s t : State} (h : RootNoted s) (hf : SameButMemory s t) : RootNoted t := by
  unfold RootNoted
  rw [hf.rootWritten, hf.unwritten]
  exact h

theorem RootNoted.withGaps {s : State} (h : RootNoted s) (g : List Nat) : RootNoted (s.withGaps g) := h

theorem RootNoted.root_passes {s : State} (h : RootNoted s) {g : List Nat}
    (hg : s.gaps = rootGaps s.params.rootSrc ++ g) : root s = .ok s.rootKey (s.withGaps g) :=
  (Machine.root_passes hg).trans (congrArg (Res.ok s.rootKey) (h.withGaps g).noteRead_eq)

/-- The first byte's read of the root is the only one that can add a note. -/
theorem writeWordFrom_noted_of_gaps {s : State} {g : List Nat} (hg : s.gaps = rootGaps s.params.rootSrc ++ g)
    (va v : Word) (k n : Nat) :
    writeWordFrom va v k (n + 1) s = writeWordFrom va v k (n + 1) (s.noteRead s.rootWritten) := by
  rw [writeWordFrom, writeWordFrom, root_passes hg, (rootNoted_noteRead s).root_passes hg]
  rfl

/-! ### The bytes before the request lands -/

theorem SparesMemory.accesses {f : State → State} (hf : SparesMemory f) {s t : State} {lo n : Nat}
    (h : Accesses s t lo n) : Accesses (f s) (f t) lo n := by
  refine ⟨?_, hf.inv h.inv, hf.coherent h.coherent, fun q hq hne => ?_⟩
  · obtain ⟨c, m, rfl⟩ := h.frame.exists_eq
    unfold SameButMemory
    rw [hf.cache, hf.mem]
    exact hf.frame s c m
  · rw [hf.eff, hf.eff, hf.mem, hf.mem]
    exact h.kept q (hf.params s ▸ hq) hne

theorem Bytes.take {s : State} {va pa : Word} {k m n : Nat} (h : Bytes s va pa k n) (hm : m ≤ n) :
    Bytes s va pa k m :=
  ⟨fun j h₁ h₂ => h.walk j h₁ (by omega), fun j h₁ h₂ => h.addr j h₁ (by omega),
    fun j h₁ h₂ => h.bound j h₁ (by omega)⟩

theorem Bytes.withGaps {s : State} {va pa : Word} {k n : Nat} (h : Bytes s va pa k n) (g : List Nat) :
    Bytes (s.withGaps g) va pa k n := ⟨h.walk, h.addr, h.bound⟩

/-- Bytes in whose gaps nothing lands are stored, and the store goes on with the rest. -/
theorem writeWordFrom_passes {va pa v : Word} (n : Nat) (g : List Nat) (m : Nat) : ∀ (k : Nat) (s : State), s.Inv →
    s.Coherent → RootNoted s → Bytes s va pa k m → s.gaps = byteGaps s.params.rootSrc m ++ g →
    ∃ t, writeWordFrom va v k (n + m) s = writeWordFrom va v (k + m) n t ∧
      Accesses (s.withGaps g) t (pa.toNat + k) m ∧
      ∀ j, k ≤ j → j < k + m → t.eff (pa + BitVec.ofNat 64 j) = byteOf v j := by
  induction m with
  | zero =>
    intro k s hi hc _ _ hg
    rw [State.withGaps_eq_self (g := g) hg]
    exact ⟨s, rfl, Accesses.refl hi hc _, fun j _ _ => by omega⟩
  | succ m ih =>
    intro k s hi hc hn hb hg
    have ha := hb.addr k (Nat.le_refl k) (by omega)
    have hbd := hb.bound k (Nat.le_refl k) (by omega)
    rw [byteGaps, List.append_assoc, List.cons_append, List.cons_append] at hg
    generalize hrest : byteGaps s.params.rootSrc m ++ g = rest at hg
    have hf := sparesMemory_withGaps rest
    obtain ⟨s₁, h₁, hq₁, he₁⟩ := writeByte_ok (s := s.withGaps rest) (p := pa + BitVec.ofNat 64 k) (hf.inv hi)
      (hf.coherent hc) (by rw [ha]; exact hbd) (byteOf v k)
    rw [ha] at hq₁
    have hbyte : writeWordFrom va v k (n + m + 1) s = writeWordFrom va v (k + 1) (n + m) s₁ := by
      rw [writeWordFrom, hn.root_passes hg, Res.bind,
        translateVa_passes (s := s.withGaps (0 :: 0 :: rest)) rfl (hb.walk k (Nat.le_refl k) (by omega)), Res.bind,
        issue_passes rfl]
      exact congrArg (Res.bind · _) h₁
    obtain ⟨t, h₂, hq₂, he₂⟩ := ih (k + 1) s₁ hq₁.inv hq₁.coherent ((hn.withGaps rest).mono hq₁.frame)
      ((hb.withGaps rest).tail hq₁.frame) (by rw [hq₁.frame.gaps, hq₁.frame.params]; exact hrest.symm)
    have hq : Accesses (s.withGaps g) (s₁.withGaps g) (pa.toNat + k) 1 :=
      (sparesMemory_withGaps g).accesses (s := s.withGaps rest) hq₁
    refine ⟨t, ?_, hq.trans hq₂ fun q hne => ⟨by omega, by omega⟩, fun j hj₁ hj₂ => ?_⟩
    · rw [← Nat.add_assoc, hbyte, h₂, Nat.add_right_comm, Nat.add_assoc]
    · by_cases hj : j = k
      · subst hj
        exact (hq₂.kept _ (by rw [ha, hq.frame.params]; exact hbd) (by omega)).1.trans he₁
      · exact he₂ j (by omega) (by omega)

/-! ### The request lands -/

/-- The state once a PTWR, the last request of the gaps, has been served (R461). -/
def State.afterPtwr (s : State) (lvl : BitVec 2) (a : Word) (e : Pte) (rest : List Input) : State :=
  { s.setPte (levelOf lvl) a e with inbox := rest, gaps := [], resp := some { status := .ok, rdata := 0 } }

theorem sparesMemory_afterPtwr (lvl : BitVec 2) (a : Word) (e : Pte) (rest : List Input) :
    SparesMemory (·.afterPtwr lvl a e rest) :=
  ⟨fun _ _ _ => rfl, fun _ => rfl, (sparesMemory_setPte (levelOf lvl) a e).maps⟩

theorem RootNoted.noted_afterPtwr {s : State} (h : RootNoted s) (lvl : BitVec 2) (a : Word) (e : Pte)
    (rest : List Input) : Noted (s.afterPtwr lvl a e rest) :=
  ⟨rfl, RootNoted.noteRead_eq (s := s.afterPtwr lvl a e rest) h⟩

section

variable {s : State} {r : Request} {rest : List Input} {lvl : BitVec 2} {a b va : Word} {present : Bool}
  (hd : decodeRequest r = .ok (.ptwr lvl a b present)) (hin : s.inbox = .command r :: rest)

include hd hin

theorem hostTurn_ptwr : hostTurn (s.withGaps [1]) = s.afterPtwr lvl a { present, base := b } rest := by
  simp only [hostTurn, State.withGaps, serveRequests, hin, afterRequest, serveRequest, hd, runCommand, execPtwr,
    endCommand]
  rfl

/-- A PTWR before the XLT of a byte: the store of that byte and of those after it runs from the state it leaves. -/
theorem writeWordFrom_lands (hn : RootNoted s) (hg : s.gaps = rootGaps s.params.rootSrc ++ [1]) (v : Word) (k n : Nat) :
    writeWordFrom va v k (n + 1) s =
      writeWordFrom va v k (n + 1) (s.afterPtwr lvl a { present, base := b } rest) := by
  have hn' := hn.noted_afterPtwr lvl a { present, base := b } rest
  rw [writeWordFrom, writeWordFrom, hn.root_passes hg, hn'.root_ok]
  simp only [Res.bind, issue_nil hn'.gaps]
  rw [issue, hostTurn_ptwr hd hin]
  rfl

/-- The store up to the byte before whose XLT the PTWR lands, and what is left of it. -/
theorem writeWord_lands {pa : Word} {j : Nat} (hi : s.Inv) (hc : s.Coherent) (hw : s.wordAddr va = some pa) (hj : j < 8)
    (hg : s.gaps = byteGaps s.params.rootSrc j ++ (rootGaps s.params.rootSrc ++ [1])) (v : Word) :
    ∃ u, writeWord va v s = writeWordFrom va v j (7 - j + 1) u ∧ Noted u ∧
      Accesses ((s.afterPtwr lvl a { present, base := b } rest).noteRead s.rootWritten) u pa.toNat j ∧
      ∀ i < j, u.eff (pa + BitVec.ofNat 64 i) = byteOf v i := by
  obtain ⟨hpage, hb, _⟩ := bytes_of_wordAddr hw
  obtain ⟨g, hg'⟩ := byteGaps_append_rootGaps s.params.rootSrc j [1]
  obtain ⟨t, ht, ha, he⟩ := writeWordFrom_passes (v := v) (7 - j + 1) (rootGaps s.params.rootSrc ++ [1]) j 0
    (s.noteRead s.rootWritten) (hi.noteRead _) (hc.noteRead _) (rootNoted_noteRead s)
    (Bytes.take ⟨hb.walk, hb.addr, hb.bound⟩ (Nat.le_of_lt hj)) hg
  have hf := sparesMemory_afterPtwr lvl a { present, base := b } rest
  have hn : RootNoted t := ((rootNoted_noteRead s).withGaps _).mono ha.frame
  have hin' : t.inbox = .command r :: rest := ha.frame.inbox.trans hin
  have hgt : t.gaps = rootGaps t.params.rootSrc ++ [1] := by rw [ha.frame.gaps, ha.frame.params]; rfl
  refine ⟨t.afterPtwr lvl a { present, base := b } rest, ?_,
    hn.noted_afterPtwr lvl a { present, base := b } rest, hf.accesses ha,
    fun i hij => (hf.eff t _).trans (he i (Nat.zero_le i) (by omega))⟩
  have h8 : 7 + 1 = 7 - j + 1 + j := by omega
  rw [writeWord, if_pos hpage, writeWordFrom_noted_of_gaps (n := 7) (hg.trans hg'), h8, ht, Nat.zero_add,
    writeWordFrom_lands hd hin' hn hgt]

end

/-! ### The bytes from there on -/

/-- Which level is missing does not depend on the virtual address (R453). -/
theorem walk_error {pt : Vector PageMap 4} {va r : Word} {k : Fin 4} (h : walk pt va r = .error k) (va' : Word) :
    walk pt va' r = .error k := by
  rw [walk_eq] at h ⊢
  cases hl : walkLevels pt [0, 1, 2, 3] r with
  | ok ppn => rw [hl] at h; cases h
  | error e => rw [hl] at h; cases h; rfl

/-- A translation keeps the page offset (R454). -/
theorem walk_offset {pt : Vector PageMap 4} {va r pa : Word} (h : walk pt va r = .ok pa) :
    pa.toNat % 4096 = va.toNat % 4096 := by
  rw [walk_eq] at h
  cases hl : walkLevels pt [0, 1, 2, 3] r with
  | ok ppn =>
    rw [hl] at h
    obtain rfl : compose ppn va = pa := Except.ok.inj h
    rw [compose_toNat]
    omega
  | error e => rw [hl] at h; cases h

theorem walk_of_wordAddr {s : State} {va pa : Word} (h : s.wordAddr va = some pa) :
    walk s.pt va s.rootKey = .ok pa := by
  have hb := (bytes_of_wordAddr h).2.1.walk 0 (Nat.le_refl 0) (by omega)
  simpa using hb

theorem writeWordFrom_pageFault {s : State} (hn : Noted s) {va : Word} {k : Fin 4}
    (h : walk s.pt va s.rootKey = .error k) (v : Word) (j n : Nat) :
    writeWordFrom va v j (n + 1) s = .err .pageFault (BitVec.ofNat 64 (k.val + 1)) s := by
  simp only [writeWordFrom, hn.root_ok, issue_nil hn.gaps, translateVa, walk_error h, Res.bind]

/-- A store from byte k on that leaves the bounds, by its first byte or a later one: it answers the first address out of
bounds, and keeps the bytes before it. -/
theorem writeWordFrom_leaves_store {s : State} (hi : s.Inv) (hc : s.Coherent) (hn : Noted s) {va pa : Word}
    (ht : Translated s va pa) {k n : Nat} (hk : k + (n + 1) = 8) (hb : s.params.memSize < pa.toNat + 8) (v : Word) :
    ∃ t, writeWordFrom va v k (n + 1) s =
        .err .outOfBounds (BitVec.ofNat 64 (max (pa.toNat + k) s.params.memSize)) t ∧
      Accesses s t (pa.toNat + k) (s.params.memSize - (pa.toNat + k)) ∧
      ∀ j, k ≤ j → j < 8 → pa.toNat + j < s.params.memSize → t.eff (pa + BitVec.ofNat 64 j) = byteOf v j := by
  by_cases hle : pa.toNat + k ≤ s.params.memSize
  · have hmax : max (pa.toNat + k) s.params.memSize = max pa.toNat s.params.memSize := by omega
    rw [hmax]
    exact writeWordFrom_outOfBounds (n + 1) k s hi hc hn ht hk (.inl hle) hb
  · have ha := ht.addr k (by omega)
    have hinfo : pa + BitVec.ofNat 64 k = BitVec.ofNat 64 (max (pa.toNat + k) s.params.memSize) := by
      rw [Nat.max_eq_left (by omega), ← ha, BitVec.ofNat_toNat, BitVec.setWidth_eq]
    have h0 : s.params.memSize - (pa.toNat + k) = 0 := by omega
    have hout : s.params.memSize ≤ (pa + BitVec.ofNat 64 k).toNat := by omega
    refine ⟨s, ?_, by rw [h0]; exact Accesses.refl hi hc _, fun j hj hj8 hjm => by omega⟩
    simp only [writeWordFrom, hn.root_ok, issue_nil hn.gaps, translateVa_ok (ht.walk k (by omega)), writeByte,
      access_outOfBounds (some (byteOf v k)) hout, Res.bind]
    rw [hinfo]

/-! ### A word whose bytes go to two places -/

/-- From s to t the bytes of a word below j went to pa and those from j up, where in bounds, to pa'; the client sees no
other byte change. -/
structure SplitStore (s t : State) (value pa pa' : Word) (j : Nat) : Prop where
  below : ∀ i < j, t.eff (pa + BitVec.ofNat 64 i) = byteOf value i
  above : ∀ i < 8, j ≤ i → pa'.toNat + i < s.params.memSize → t.eff (pa' + BitVec.ofNat 64 i) = byteOf value i
  kept : ∀ q : Word, q.toNat < s.params.memSize → ¬(pa.toNat ≤ q.toNat ∧ q.toNat < pa.toNat + j) →
    ¬(pa'.toNat + j ≤ q.toNat ∧ q.toNat < pa'.toNat + 8) →
    t.eff q = s.eff q ∧ (t.mem.read q.toNat = s.mem.read q.toNat ∨ t.mem.read q.toNat = s.eff q)

/-- Both places have the word's page offset, so that the bytes of the one do not reach those of the other. -/
theorem splitStore_of_accesses {s u t : State} {value pa pa' : Word} {j n : Nat}
    (hpa : ∀ i < j, (pa + BitVec.ofNat 64 i).toNat = pa.toNat + i)
    (hbd : pa.toNat + j ≤ s.params.memSize) (hj : j < 8) (hoff : pa.toNat % 4096 = pa'.toNat % 4096)
    (h : Accesses s u pa.toNat j) (hlow : ∀ i < j, u.eff (pa + BitVec.ofNat 64 i) = byteOf value i)
    (h' : Accesses u t (pa'.toNat + j) n) (hn : j + n ≤ 8)
    (hup : ∀ i, j ≤ i → i < 8 → pa'.toNat + i < u.params.memSize → t.eff (pa' + BitVec.ofNat 64 i) = byteOf value i) :
    SplitStore s t value pa pa' j := by
  refine ⟨fun i hij => ?_, fun i hi8 hji hbd => hup i hji hi8 (by rw [h.frame.params]; exact hbd), fun q hq h₁ h₂ => ?_⟩
  · have hi := hpa i hij
    rw [(h'.kept _ (by rw [hi, h.frame.params]; omega) (by omega)).1, hlow i hij]
  · obtain ⟨hsame, hstore⟩ := h.kept q hq h₁
    obtain ⟨hsame', hstore'⟩ := h'.kept q (by rw [h.frame.params]; exact hq) (by omega)
    refine ⟨hsame'.trans hsame, ?_⟩
    rcases hstore' with hstore' | hstore'
    · rw [hstore']
      exact hstore
    · exact .inr (hstore'.trans hsame)

/-! ### The Mov -/

theorem exec_mov_imm_memDirect (value va : Word) (s : State) : exec (.mov (.imm value) (.memDirect va)) s =
    endEngine ((writeWord va value s).bind fun _ s => clearAndAdvance s) := by
  simp [exec, execMov, asSource, asDest, directAddr, movToMemory, resolveSource, effectiveAddress, addrRegister,
    valueOf, Res.bind]

/-- The store was the last command that could fail. -/
theorem exec_mov_of_stored {value va : Word} {s t : State} (h : writeWord va value s = .ok () t) (hg : t.gaps = []) :
    exec (.mov (.imm value) (.memDirect va)) s =
      .next { t.noteRead t.ripWr with flags := Flags.clear, rip := t.rip + 0x40, ripWr := true } := by
  rw [exec_mov_imm_memDirect, h, Res.bind, clearAndAdvance_ok hg, endEngine]

theorem exec_mov_of_err {value va info : Word} {e : Status} {s t : State} (h : writeWord va value s = .err e info t) :
    exec (.mov (.imm value) (.memDirect va)) s = .next (t.engineFault e (some info)) := by
  rw [exec_mov_imm_memDirect, h, Res.bind, endEngine]

/-- Settles O47: the store goes on from the state that the PTWR leaves, whose walk decides where the rest of the bytes
go and whether the Mov completes. -/
theorem ptwrLandsBetweenXlts : Obligations.PtwrLandsBetweenXlts := by
  intro s s' r rest lvl a b value va pa present j hi hc hin hd hw hj hg hs'
  obtain rfl : s' = s.afterPtwr lvl a { present, base := b } rest := hs'
  have hgaps : s.gaps = byteGaps s.params.rootSrc j ++ (rootGaps s.params.rootSrc ++ [1]) := by
    rw [hg]
    cases s.params.rootSrc with
    | gprRbp => rw [byteGaps_gprRbp, List.replicate_succ', List.append_assoc]; rfl
    | const x => rw [byteGaps_const]; rfl
  obtain ⟨u, hu, hn, ha, hlow⟩ := writeWord_lands hd hin hi hc hw hj hgaps value
  have hpar : u.params = s.params := ha.frame.params
  have hwalk : walk u.pt va u.rootKey = walk (s.afterPtwr lvl a { present, base := b } rest).pt va s.rootKey := by
    rw [ha.frame.pt, ha.frame.rootKey]
    rfl
  refine ⟨fun k hk => ?_, fun pa' hpa' => ?_⟩
  · -- the new walk has no translation: the store stops where the PTWR landed
    have hstop := writeWordFrom_pageFault hn (hwalk.trans hk) value j (7 - j)
    refine ⟨_, exec_mov_of_err (hu.trans hstop), ?_, hlow, ha.kept⟩
    obtain ⟨c, m, rfl⟩ := ha.frame.exists_eq
    rfl
  · obtain ⟨hpage, hold, hold8⟩ := bytes_of_wordAddr hw
    have htr : Translated u va pa' :=
      ⟨fun i hi8 => (bytes_of_walk hpage (hwalk.trans hpa') i hi8).1, fun i hi8 => (bytes_of_walk hpage hpa' i hi8).2⟩
    have hoff := (walk_offset (walk_of_wordAddr hw)).trans (walk_offset hpa').symm
    -- wherever the bytes from j up go, they spare those below j
    have split : ∀ {t : State} {n : Nat}, Accesses u t (pa'.toNat + j) n → j + n ≤ 8 →
        (∀ i, j ≤ i → i < 8 → pa'.toNat + i < u.params.memSize →
          t.eff (pa' + BitVec.ofNat 64 i) = byteOf value i) →
        SplitStore ((s.afterPtwr lvl a { present, base := b } rest).noteRead s.rootWritten) t value pa pa' j :=
      splitStore_of_accesses (fun i hij => hold.addr i (Nat.zero_le i) (by omega))
        (show pa.toNat + j ≤ s.params.memSize by omega) hj hoff ha hlow
    by_cases hbd : pa'.toNat + 8 ≤ s.params.memSize
    · obtain ⟨t, ht, hat, hup⟩ := writeWordFrom_ok (v := value) (7 - j + 1) j u ha.inv ha.coherent hn
        ⟨fun i _ _ => htr.walk i (by omega), fun i _ _ => htr.addr i (by omega), fun i _ _ => by rw [hpar]; omega⟩
      have hsplit := split hat (by omega) fun i hji hi8 _ => hup i hji (by omega)
      refine ⟨_, exec_mov_of_stored (hu.trans ht) (hat.frame.gaps.trans hn.gaps), fun _ => ?_, fun h => by omega,
        hsplit.below, hsplit.above, hsplit.kept⟩
      obtain ⟨c, m, rfl⟩ := (ha.frame.trans hat.frame).exists_eq
      rw [← State.noteRead_noteRead]
      rfl
    · obtain ⟨t, ht, hat, hup⟩ := writeWordFrom_leaves_store (k := j) (n := 7 - j) ha.inv ha.coherent hn htr (by omega)
        (by rw [hpar]; omega) value
      have hsplit := split hat (by rw [hpar]; omega) hup
      refine ⟨_, exec_mov_of_err (hu.trans ht), fun h => by omega, fun _ => ?_, hsplit.below, hsplit.above, hsplit.kept⟩
      rw [hpar]
      obtain ⟨c, m, rfl⟩ := (ha.frame.trans hat.frame).exists_eq
      rfl

end Sys2Proof.Machine
end

section
/-! The command words (spec/30_encoding.md R301 to R308): their fields as numbers, the row of the opcode map that
decodes each, and that decoding undoes encoding in both spaces (R301 to R314). -/

namespace Sys2Proof

/-! ### The fields of a command word (R301) -/

theorem opOf_toNat (cmd : BitVec 16) : (opOf cmd).toNat = cmd.toNat / 2048 := by
  have := cmd.isLt
  rw [opOf, BitVec.extractLsb'_toNat, Nat.shiftRight_eq_div_pow]
  omega

theorem opOf_rrdCmd : ∀ (cell : BitVec 4) (view : BitVec 3), opOf (rrdCmd cell view) = 4 := by decide
theorem cellOf_rrdCmd : ∀ (cell : BitVec 4) (view : BitVec 3), cellOf (rrdCmd cell view) = cell := by decide
theorem viewOf_rrdCmd : ∀ (cell : BitVec 4) (view : BitVec 3), viewOf (rrdCmd cell view) = view := by decide
theorem opOf_rwrCmd : ∀ (cell : BitVec 4) (view : BitVec 3), opOf (rwrCmd cell view) = 5 := by decide
theorem cellOf_rwrCmd : ∀ (cell : BitVec 4) (view : BitVec 3), cellOf (rwrCmd cell view) = cell := by decide
theorem viewOf_rwrCmd : ∀ (cell : BitVec 4) (view : BitVec 3), viewOf (rwrCmd cell view) = view := by decide
theorem opOf_ptwrCmd : ∀ lvl : BitVec 2, opOf (ptwrCmd lvl) = 13 := by decide
theorem lvlOf_ptwrCmd : ∀ lvl : BitVec 2, lvlOf (ptwrCmd lvl) = lvl := by decide

theorem zext64_rrdCmd : ∀ (cell : BitVec 4) (view : BitVec 3),
    zext64 (rrdCmd cell view) = BitVec.ofNat 64 (0x2000 + 128 * cell.toNat + 16 * view.toNat) := by decide

theorem zext64_rwrCmd : ∀ (cell : BitVec 4) (view : BitVec 3),
    zext64 (rwrCmd cell view) = BitVec.ofNat 64 (0x2800 + 128 * cell.toNat + 16 * view.toNat) := by decide

theorem reservedOp0Cmd_toNat (low : BitVec 11) : (reservedOp0Cmd low).toNat = low.toNat := by
  have := low.isLt
  rw [reservedOp0Cmd, BitVec.toNat_setWidth]
  omega

theorem reservedOp16to31Cmd_toNat (low : BitVec 15) : (reservedOp16to31Cmd low).toNat = 0x8000 + low.toNat := by
  have hlow : low.toNat < 2 ^ 15 := low.isLt
  have hor := Nat.two_pow_add_eq_or_of_lt hlow 1
  rw [reservedOp16to31Cmd, BitVec.toNat_or, BitVec.toNat_setWidth, Nat.mod_eq_of_lt (by omega)]
  exact hor.symm

theorem extractLsb'_reservedOp0Cmd (low : BitVec 11) : (reservedOp0Cmd low).extractLsb' 0 11 = low := by
  have hlow : low.toNat < 2 ^ 11 := low.isLt
  apply BitVec.eq_of_toNat_eq
  rw [BitVec.extractLsb'_toNat, reservedOp0Cmd_toNat, Nat.shiftRight_zero, Nat.mod_eq_of_lt hlow]

theorem extractLsb'_reservedOp16to31Cmd (low : BitVec 15) : (reservedOp16to31Cmd low).extractLsb' 0 15 = low := by
  have hlow : low.toNat < 2 ^ 15 := low.isLt
  apply BitVec.eq_of_toNat_eq
  rw [BitVec.extractLsb'_toNat, reservedOp16to31Cmd_toNat, Nat.shiftRight_zero]
  omega

theorem reservedOp0Cmd_extractLsb' {cmd : BitVec 16} (h : cmd.toNat / 2048 = 0) :
    reservedOp0Cmd (cmd.extractLsb' 0 11) = cmd := by
  apply BitVec.eq_of_toNat_eq
  rw [reservedOp0Cmd_toNat, BitVec.extractLsb'_toNat, Nat.shiftRight_zero]
  omega

theorem reservedOp16to31Cmd_extractLsb' {cmd : BitVec 16} (h : 16 ≤ cmd.toNat / 2048) :
    reservedOp16to31Cmd (cmd.extractLsb' 0 15) = cmd := by
  have hcmd := cmd.isLt
  apply BitVec.eq_of_toNat_eq
  rw [reservedOp16to31Cmd_toNat, BitVec.extractLsb'_toNat, Nat.shiftRight_zero]
  omega

/-! ### The opcode map (R302, R303, R307) -/

/-- The mask of an OP's row in the opcode map: every bit but those of CELL and VIEW, or of LVL, where the command uses
them (R302). -/
def rowMask (op : Nat) : BitVec 16 := if op = 4 ∨ op = 5 then 0xF80F else if op = 13 then 0xFFF3 else 0xFFFF

/-- The fixed bits of an OP's row: OP itself in bits 15:11, the rest 0 (R302). -/
def rowPattern (op : Nat) : BitVec 16 := BitVec.ofNat 16 (2048 * op)

theorem decodeRequest_of_op_zero {r : Request} (h : (opOf r.cmd).toNat = 0) :
    decodeRequest r = .ok (.reservedOp0 (r.cmd.extractLsb' 0 11)) := by
  simp only [decodeRequest, h]

theorem decodeRequest_of_sixteen_le {r : Request} (h : 16 ≤ (opOf r.cmd).toNat) :
    decodeRequest r = .ok (.reservedOp16to31 (r.cmd.extractLsb' 0 15)) := by
  unfold decodeRequest
  split
  case h_17 => rfl
  all_goals omega

/-- Every other OP has a row of its own. -/
theorem decodeRequest_eq_matchRow {r : Request} (h : 1 ≤ (opOf r.cmd).toNat) (h' : (opOf r.cmd).toNat < 16) :
    ∃ i, decodeRequest r = matchRow r.cmd (rowMask (opOf r.cmd).toNat) (rowPattern (opOf r.cmd).toNat) i := by
  unfold decodeRequest
  generalize (opOf r.cmd).toNat = op at h h' ⊢
  interval_cases op
  all_goals exact ⟨_, rfl⟩

/-! ### Decoding undoes encoding -/

theorem decode_encode_command {i : Instr} (hi : i.isCommand = true) : decode (encode i) = .ok i := by
  cases i <;> simp only [Instr.isCommand, Bool.false_eq_true] at hi
  case rrd cell view =>
    show decodeRequest { cmd := rrdCmd cell view, a := 0, b := 0, d := 0 } = _
    simp only [decodeRequest, opOf_rrdCmd, cellOf_rrdCmd, viewOf_rrdCmd]
    exact if_pos (Laws.RowMatch.rrd cell view)
  case rwr cell view a =>
    show decodeRequest { cmd := rwrCmd cell view, a, b := 0, d := 0 } = _
    simp only [decodeRequest, opOf_rwrCmd, cellOf_rwrCmd, viewOf_rwrCmd]
    exact if_pos (Laws.RowMatch.rwr cell view a)
  case ptwr lvl a b present =>
    have hbit : (if present then 1 else 0 : Byte).getLsbD 0 = present := by cases present <;> rfl
    show decodeRequest { cmd := ptwrCmd lvl, a, b, d := if present then 1 else 0 } = _
    simp only [decodeRequest, opOf_ptwrCmd, lvlOf_ptwrCmd, hbit]
    exact if_pos (Laws.RowMatch.ptwr lvl a b present)
  case reservedOp0 low =>
    have hop : (opOf (reservedOp0Cmd low)).toNat = 0 := by
      rw [opOf_toNat, reservedOp0Cmd_toNat]
      omega
    show decodeRequest { cmd := reservedOp0Cmd low, a := 0, b := 0, d := 0 } = _
    rw [decodeRequest_of_op_zero, extractLsb'_reservedOp0Cmd]
    exact hop
  case reservedOp16to31 low =>
    have hop : 16 ≤ (opOf (reservedOp16to31Cmd low)).toNat := by
      rw [opOf_toNat, reservedOp16to31Cmd_toNat]
      omega
    show decodeRequest { cmd := reservedOp16to31Cmd low, a := 0, b := 0, d := 0 } = _
    rw [decodeRequest_of_sixteen_le, extractLsb'_reservedOp16to31Cmd]
    exact hop
  -- the words without operand fields are literals
  all_goals
    simp only [encode, encodeRequest, decode, decodeRequest]
    refine if_pos ?_
    decide

theorem kindReserved_encodeOperand (o : Operand) : kindReserved (encodeOperand o).kind = false := by
  cases o <;> rfl

theorem selCell_append : ∀ (cell : BitVec 4) (view : BitVec 3), selCell (cell ++ view) = cell := by decide
theorem selView_append : ∀ (cell : BitVec 4) (view : BitVec 3), selView (cell ++ view) = view := by decide

theorem decodeOperand_encodeOperand {o : Operand} (h : o.wf = true) : decodeOperand (encodeOperand o) = .ok o := by
  cases o with
  | empty => rfl
  | imm v => rfl
  | reg cell view => simp [encodeOperand, decodeOperand, ifUnusedZero, selCell_append, selView_append]
  | memDirect a => rfl
  | memIndirect e =>
    have hscale : scaleOk e.scale = true := h
    simp [encodeOperand, decodeOperand, ifUnusedZero, hscale]

theorem decode_encodeRecord (tag : BitVec 4) {src dst : Operand} (hsrc : src.wf = true) (hdst : dst.wf = true) :
    decode (encodeRecord tag src dst) = .ok (instrOfTag tag src dst) := by
  simp [encodeRecord, decode, decodeRecord, kindReserved_encodeOperand, decodeOperand_encodeOperand hsrc,
    decodeOperand_encodeOperand hdst]

/-- An engine instruction is a TAG and two operands (R310). -/
theorem exists_encodeRecord {i : Instr} (hi : i.isCommand = false) :
    ∃ tag src dst, encode i = encodeRecord tag src dst ∧ instrOfTag tag src dst = i ∧ i.operands = [src, dst] := by
  cases i <;> simp only [Instr.isCommand, Bool.true_eq_false] at hi
  case mov src dst => exact ⟨0, src, dst, rfl, rfl, rfl⟩
  case push src dst => exact ⟨1, src, dst, rfl, rfl, rfl⟩
  case pop src dst => exact ⟨2, src, dst, rfl, rfl, rfl⟩
  case leave src dst => exact ⟨3, src, dst, rfl, rfl, rfl⟩
  case call src dst => exact ⟨4, src, dst, rfl, rfl, rfl⟩
  case ret src dst => exact ⟨5, src, dst, rfl, rfl, rfl⟩
  case add src dst => exact ⟨6, src, dst, rfl, rfl, rfl⟩
  case sub src dst => exact ⟨7, src, dst, rfl, rfl, rfl⟩
  case cmp src dst => exact ⟨8, src, dst, rfl, rfl, rfl⟩
  case jne src dst => exact ⟨9, src, dst, rfl, rfl, rfl⟩
  case jmp src dst => exact ⟨10, src, dst, rfl, rfl, rfl⟩
  case reservedTag11 src dst => exact ⟨11, src, dst, rfl, rfl, rfl⟩
  case reservedTag12 src dst => exact ⟨12, src, dst, rfl, rfl, rfl⟩
  case reservedTag13 src dst => exact ⟨13, src, dst, rfl, rfl, rfl⟩
  case reservedTag14 src dst => exact ⟨14, src, dst, rfl, rfl, rfl⟩
  case reservedTag15 src dst => exact ⟨15, src, dst, rfl, rfl, rfl⟩

theorem decode_encode_engine {i : Instr} (hi : i.isCommand = false) (h : i.wf = true) :
    decode (encode i) = .ok i := by
  obtain ⟨tag, src, dst, henc, rfl, hops⟩ := exists_encodeRecord hi
  simp only [Instr.wf, hops, List.all_cons, List.all_nil, Bool.and_true, Bool.and_eq_true] at h
  rw [henc]
  exact decode_encodeRecord tag h.1 h.2

/-- Settles O53: a command's word and buses, and an engine instruction's TAG and operands, hold every field. -/
theorem decodeEncode : Obligations.DecodeEncode := by
  intro i h
  cases hi : i.isCommand with
  | true => exact decode_encode_command hi
  | false => exact decode_encode_engine hi h

/-- Settles O54, by evaluation of each word and record. -/
theorem specWordsDecode : Obligations.SpecWordsDecode := by
  refine ⟨?_, ?_, ?_, ?_, ?_, ?_, ?_, ?_⟩ <;> decide

end Sys2Proof
end

section
/-! What a step comes to, by what it takes (spec/30_encoding.md R300, R303, R307, R308, spec/46_engine.md R650, R671):
a request or a record that decodes, one that does not, and the reserved ones. -/

namespace Sys2Proof.Machine

/-! ### One step -/

theorem step_of_request_ok {s : State} {r : Request} {rest : List Input} {i : Instr} (hs : s.inbox = .command r :: rest)
    (hd : decodeRequest r = .ok i) : step s = exec i { s with inbox := rest } := by
  simp only [step, fetch, hs, fetchRequest, hd]

theorem step_of_request_error {s : State} {r : Request} {rest : List Input} {e : DecodeError}
    (hs : s.inbox = .command r :: rest) (hd : decodeRequest r = .error e) :
    step s = .next ({ s with inbox := rest }.respond .notImplemented (zext64 r.cmd)) := by
  simp only [step, fetch, hs, fetchRequest, hd]
  rfl

/-- The engine has the turn where the inbox is empty or names it (R650; log 7). -/
theorem fetch_of_engineTurn {s s' : State} (h : s.engineTurn = some s') : fetch s = fetchEngine s' := by
  unfold State.engineTurn at h
  unfold fetch
  split at h <;> cases h
  all_goals
    rename_i hs
    simp only [hs]

section

variable {s s' : State} {exitRip : Word} {r : Record} (ht : s.engineTurn = some s') (hrun : s'.run = .running exitRip)
  (hrip : s'.rip ≠ exitRip) (hp : lookupKey s'.prog s'.rip.toNat = some r)

include ht hrun hrip hp

theorem fetch_of_record : fetch s = fetchRecord r (s'.noteRead s'.ripWr) := by
  rw [fetch_of_engineTurn ht]
  simp [fetchEngine, hrun, hrip, hp]

theorem step_of_record_ok {i : Instr} (hd : decodeRecord r = .ok i) : step s = exec i (s'.noteRead s'.ripWr) := by
  simp only [step, fetch_of_record ht hrun hrip hp, fetchRecord, hd]

theorem step_of_record_error {e : DecodeError} (hd : decodeRecord r = .error e) :
    step s = .next ((s'.noteRead s'.ripWr).engineFault e.status e.info) := by
  simp only [step, fetch_of_record ht hrun hrip hp, fetchRecord, hd]

end

/-- Settles O49: the step adds to exec the input it takes, and for a record the read of rip. -/
theorem stepRunsDecodedInstruction : Obligations.StepRunsDecodedInstruction := fun _ _ =>
  ⟨fun _ _ hs hd => step_of_request_ok hs hd, fun _ _ _ ht hrun hrip hp hd => step_of_record_ok ht hrun hrip hp hd⟩

/-! ### Command words that are no command (R303, R307) -/

/-- OP 0 and 16 to 31 answer with the very word they were decoded from. -/
theorem step_of_reservedOp {s : State} {r : Request} {rest : List Input} (hs : s.inbox = .command r :: rest)
    (hop : r.cmd.toNat / 2048 = 0 ∨ 16 ≤ r.cmd.toNat / 2048) :
    step s = .next ({ s with inbox := rest }.respond .notImplemented (zext64 r.cmd)) := by
  rcases hop with hop | hop
  · rw [step_of_request_ok hs (decodeRequest_of_op_zero ((opOf_toNat r.cmd).trans hop)), exec, execReservedOp0,
      reservedOp0Cmd_extractLsb' hop]
    rfl
  · rw [step_of_request_ok hs (decodeRequest_of_sixteen_le ((opOf_toNat r.cmd).symm ▸ hop)), exec,
      execReservedOp16to31, reservedOp16to31Cmd_extractLsb' hop]
    rfl

/-- Settles O27: the reserved words are kept whole by the decoder, so that the answer is the word. -/
theorem reservedOpcodes : Obligations.ReservedOpcodes := by
  refine ⟨fun s r rest hs hop => step_of_reservedOp hs hop, fun s low => ?_, fun s low => ?_⟩
  · have hword : zext64 (reservedOp0Cmd low) = BitVec.ofNat 64 low.toNat := by
      rw [zext64, ← BitVec.ofNat_toNat, reservedOp0Cmd_toNat]
    rw [← hword]
    rfl
  · have hword : zext64 (reservedOp16to31Cmd low) = BitVec.ofNat 64 (0x8000 + low.toNat) := by
      rw [zext64, ← BitVec.ofNat_toNat, reservedOp16to31Cmd_toNat]
    rw [← hword]
    rfl

/-- Where a row fixes a field, a word that matches the row has the pattern's field. -/
theorem extractLsb'_of_and_eq {cmd mask pattern : BitVec 16} (h : cmd &&& mask = pattern) {start len : Nat}
    (hm : mask.extractLsb' start len = BitVec.allOnes len) :
    cmd.extractLsb' start len = pattern.extractLsb' start len := by
  rw [← h, BitVec.extractLsb'_and, hm, BitVec.and_allOnes]

/-- The rows leave CELL and VIEW open for RRD and RWR alone, LVL for PTWR alone, and bits 1:0 for none (R302, R303). -/
theorem rowMask_fields : ∀ op < 16,
    (op ≠ 4 → op ≠ 5 → (rowMask op).extractLsb' 7 4 = BitVec.allOnes 4 ∧
      (rowMask op).extractLsb' 4 3 = BitVec.allOnes 3) ∧
    (op ≠ 13 → (rowMask op).extractLsb' 2 2 = BitVec.allOnes 2) ∧ (rowMask op).extractLsb' 0 2 = BitVec.allOnes 2 := by
  decide

theorem rowPattern_fields : ∀ op < 16, (rowPattern op).extractLsb' 7 4 = 0 ∧ (rowPattern op).extractLsb' 4 3 = 0 ∧
    (rowPattern op).extractLsb' 2 2 = 0 ∧ (rowPattern op).extractLsb' 0 2 = 0 := by decide

/-- The word has a bit in a field its command does not use (R303). -/
def UnusedFieldSet (cmd : BitVec 16) : Prop :=
  (opOf cmd ≠ 4 ∧ opOf cmd ≠ 5 ∧ (cellOf cmd ≠ 0 ∨ viewOf cmd ≠ 0)) ∨ (opOf cmd ≠ 13 ∧ lvlOf cmd ≠ 0) ∨
    cmd.extractLsb' 0 2 ≠ 0

theorem decodeRequest_of_unusedFieldSet {r : Request} (h : UnusedFieldSet r.cmd) (h₁ : 1 ≤ (opOf r.cmd).toNat)
    (h₂ : (opOf r.cmd).toNat < 16) : decodeRequest r = .error (.mustBeZero r.cmd) := by
  obtain ⟨i, hi⟩ := decodeRequest_eq_matchRow h₁ h₂
  rw [hi]
  refine if_neg fun hrow => ?_
  obtain ⟨hcellview, hlvl, hlow⟩ := rowMask_fields _ h₂
  obtain ⟨pcell, pview, plvl, plow⟩ := rowPattern_fields _ h₂
  have ne : ∀ k : BitVec 5, opOf r.cmd ≠ k → (opOf r.cmd).toNat ≠ k.toNat :=
    fun _ hk he => hk (BitVec.eq_of_toNat_eq he)
  rcases h with ⟨h4, h5, hf⟩ | ⟨h13, hf⟩ | hf
  · obtain ⟨hcell, hview⟩ := hcellview (ne 4 h4) (ne 5 h5)
    exact hf.elim (· ((extractLsb'_of_and_eq hrow hcell).trans pcell))
      (· ((extractLsb'_of_and_eq hrow hview).trans pview))
  · exact hf ((extractLsb'_of_and_eq hrow (hlvl (ne 13 h13))).trans plvl)
  · exact hf ((extractLsb'_of_and_eq hrow hlow).trans plow)

/-- The decoder reads only the buses the command uses (R303). -/
theorem decodeRequest_congr {cmd : BitVec 16} {a a' b b' : Word} {d d' : Byte}
    (ha : (opOf cmd).toNat ∈ [1, 2, 3, 5, 7, 10, 11, 12, 13, 14, 15] → a = a')
    (hb : (opOf cmd).toNat ∈ [3, 10, 11, 12, 13, 15] → b = b') (hd : (opOf cmd).toNat = 2 → d = d')
    (hd0 : (opOf cmd).toNat = 13 → d.getLsbD 0 = d'.getLsbD 0) :
    decodeRequest { cmd, a, b, d } = decodeRequest { cmd, a := a', b := b', d := d' } := by
  have hlt : (opOf cmd).toNat < 32 := (opOf cmd).isLt
  unfold decodeRequest
  generalize (opOf cmd).toNat = op at ha hb hd hd0 hlt ⊢
  interval_cases op
  -- each row's instruction holds only buses on which the two requests agree
  all_goals simp_all

/-- Settles O28: a set bit in an unused field breaks the match with the row; the decoder reads no unused bus. -/
theorem unusedFieldsAndBuses : Obligations.UnusedFieldsAndBuses := by
  refine ⟨fun s r rest hs h => ?_, fun r r' hcmd ha hb hd hd0 => ?_⟩
  · by_cases hop : 1 ≤ (opOf r.cmd).toNat ∧ (opOf r.cmd).toNat < 16
    · exact step_of_request_error hs (decodeRequest_of_unusedFieldSet h hop.1 hop.2)
    · rw [opOf_toNat] at hop
      exact step_of_reservedOp hs (by omega)
  · obtain ⟨cmd, a', b', d'⟩ := r'
    obtain rfl : r.cmd = cmd := hcmd
    exact decodeRequest_congr ha hb hd hd0

/-! ### Every request is answered (R300, R700) -/

/-- A sequence of commands that does not stop the machine and whose error, if any, is not the client's (R700). -/
def Res.Answers {α : Type} : Res α → Prop
  | .ok _ _ => True
  | .err e _ _ => e ≠ .malformedOperand
  | .fault _ => False
  | .refused _ => False

theorem Res.Answers.bind {α β : Type} {r : Res α} {f : α → State → Res β} (h : r.Answers)
    (hf : ∀ v s, (f v s).Answers) : (r.bind f).Answers := by
  cases r with
  | ok v s => exact hf v s
  | err e info s => exact h
  | fault t => exact h
  | refused t => exact h

/-- A step's outcome is a state with a response, and not the client's MalformedOperand. -/
def Answered (o : Host.Outcome State Fault Refusal) : Prop :=
  ∃ t a, o = .next t ∧ t.resp = some a ∧ a.status ≠ .malformedOperand

theorem Res.Answers.answered {r : Res Word} (h : r.Answers) : Answered (endCommand r) := by
  cases r with
  | ok v s => exact ⟨_, _, rfl, rfl, by simp⟩
  | err e info s => exact ⟨_, _, rfl, rfl, h⟩
  | fault t => exact h.elim
  | refused t => exact h.elim

theorem Res.Answers.bind_answered {α : Type} {r : Res α} {f : α → State → Res Word} (h : r.Answers)
    (hf : ∀ v s, (f v s).Answers) : Answered (endCommand (r.bind f)) := (h.bind hf).answered

theorem access_answers (p : Word) (d : Option Byte) (s : State) : (access p d s).Answers := by
  rcases access_cases p d s with ⟨_, h⟩ | ⟨_, _, _, _, h⟩ <;> rw [h] <;> simp [Res.Answers]

theorem writeByte_answers (p : Word) (d : Byte) (s : State) : (writeByte p d s).Answers :=
  (access_answers p (some d) s).bind fun _ _ => trivial

theorem readReg_answers (c : BitVec 4) (view : BitVec 3) (s : State) : (readReg c view s).Answers := by
  rcases readReg_cases c view s with ⟨_, _, h⟩ | ⟨_, _, h⟩ <;> rw [h] <;> simp [Res.Answers]

theorem writeReg_answers (c : BitVec 4) (view : BitVec 3) (x : Word) (s : State) : (writeReg c view x s).Answers := by
  rcases writeReg_cases c view x s with ⟨_, _, h⟩ | ⟨_, h⟩ <;> rw [h] <;> simp [Res.Answers]

theorem translateVa_answers (va root : Word) (s : State) : (translateVa va root s).Answers := by
  unfold translateVa
  split <;> simp [Res.Answers]

theorem wordPortCheck_answers (a : Word) (s : State) : (wordPortCheck a s).Answers := by
  unfold wordPortCheck
  split
  · simp [Res.Answers]
  · split <;> simp [Res.Answers]

theorem exec_command_answered {i : Instr} (hi : i.isCommand = true) (s : State) : Answered (exec i s) := by
  cases i <;> simp only [Instr.isCommand, Bool.false_eq_true] at hi
  case crd a => exact (access_answers a none s).bind_answered fun _ _ => trivial
  case cwr a d => exact (writeByte_answers a d s).bind_answered fun _ _ => trivial
  case xlt a b => exact (translateVa_answers a b s).answered
  case rrd cell view => exact (readReg_answers cell view s).answered
  case rwr cell view a => exact (writeReg_answers cell view a s).bind_answered fun _ _ => trivial
  case brd64 a => exact (wordPortCheck_answers a s).bind_answered fun _ _ => trivial
  case bwr64 a b => exact (wordPortCheck_answers a s).bind_answered fun _ _ => trivial
  -- the others have one way to end
  all_goals exact ⟨_, _, rfl, rfl, by simp⟩

theorem Status.code_eq_zero_iff (e : Status) : (e.code = 0 ↔ e = .ok) ∧ e.code ≠ 7 := by
  cases e <;> decide

/-- Settles O30: a word that decodes is a command, which answers and keeps inbox, run and gaps; any other word is
answered NotImplemented. -/
theorem everyRequestIsAnswered : Obligations.EveryRequestIsAnswered := by
  refine ⟨fun s r rest hs => ?_, Status.code_eq_zero_iff, rfl, rfl, rfl, rfl, rfl, rfl⟩
  cases hd : decodeRequest r with
  | error e => exact ⟨_, _, step_of_request_error hs hd, rfl, rfl, rfl, rfl, by simp⟩
  | ok i =>
    have hi := isCommand_of_decodeRequest hd
    obtain ⟨t, a, ht, hresp, hstatus⟩ := exec_command_answered hi { s with inbox := rest }
    obtain ⟨_, _, _, _, _, _, _, _, hrun, hinbox, hgaps⟩ := commandFrame _ t i hi ht
    exact ⟨t, a, (step_of_request_ok hs hd).trans ht, hresp, hinbox, hrun, hgaps, hstatus⟩

/-! ### Selectors (R304) -/

theorem viewOfSel_eq_none {cell : BitVec 4} {view : BitVec 3} (h : 5 ≤ view.toNat ∨ (view = 4 ∧ 4 ≤ cell.toNat)) :
    viewOfSel cell view = none := by
  have all : ∀ (cell : BitVec 4) (view : BitVec 3), 5 ≤ view.toNat ∨ (view = 4 ∧ 4 ≤ cell.toNat) →
      viewOfSel cell view = none := by decide
  exact all cell view h

/-- Settles O15: the five views by their bits, and the command word of a selector that names none. -/
theorem selectorsNameViews : Obligations.SelectorsNameViews := by
  intro s cell view a
  refine ⟨?_, ?_, ?_, ?_, ?_, fun h => ?_⟩
  · rintro rfl; exact ⟨.q, rfl, rfl, rfl⟩
  · rintro rfl; exact ⟨.d, rfl, rfl, rfl⟩
  · rintro rfl; exact ⟨.w, rfl, rfl, rfl⟩
  · rintro rfl; exact ⟨.bl, rfl, rfl, rfl⟩
  · rintro ⟨rfl, hcell⟩; exact ⟨.bh, if_pos hcell, rfl, rfl⟩
  · have hnone := viewOfSel_eq_none h
    rw [← zext64_rrdCmd, ← zext64_rwrCmd]
    simp only [exec, execRrd, execRwr, readReg_of_none hnone, writeReg_of_none hnone]
    exact ⟨rfl, rfl⟩

/-! ### Records that do not decode, and reserved TAGs (R671) -/

/-- A reserved TAG is NotImplemented, whatever its operands are. -/
theorem exec_instrOfTag_reserved {tag : BitVec 4} (h : 11 ≤ tag.toNat) (src dst : Operand) (s : State) :
    exec (instrOfTag tag src dst) s = engineNotImplemented s := by
  unfold instrOfTag
  split
  case h_12 | h_13 | h_14 | h_15 | h_16 => rfl
  all_goals omega

/-- A record with a reserved TAG or KIND ends in NotImplemented without info, decoded or not. -/
theorem decodeRecord_reserved {r : Record}
    (h : 11 ≤ r.tag.toNat ∨ 5 ≤ r.src.kind.toNat ∨ 5 ≤ r.dst.kind.toNat) :
    (∃ e, decodeRecord r = .error e ∧ e.status = .notImplemented ∧ e.info = none) ∨
    ∃ i, decodeRecord r = .ok i ∧ ∀ s, exec i s = engineNotImplemented s := by
  unfold decodeRecord
  by_cases hsrc : kindReserved r.src.kind = true
  · exact .inl ⟨_, if_pos hsrc, rfl, rfl⟩
  by_cases hdst : kindReserved r.dst.kind = true
  · exact .inl ⟨_, (if_neg hsrc).trans (if_pos hdst), rfl, rfl⟩
  have htag : 11 ≤ r.tag.toNat := by
    simp only [kindReserved, decide_eq_true_eq] at hsrc hdst
    omega
  have hres : tagReserved r.tag = true := decide_eq_true htag
  simp only [if_neg hsrc, if_neg hdst, if_pos hres]
  split
  · exact .inr ⟨_, rfl, exec_instrOfTag_reserved htag _ _⟩
  · exact .inl ⟨_, rfl, rfl, rfl⟩
  · exact .inl ⟨_, rfl, rfl, rfl⟩

theorem scaleOk_of_not_mem {scale : Word} (h : scale ∉ ([1, 2, 4, 8] : List Word)) : scaleOk scale = false := by
  simpa [scaleOk, and_assoc] using h

/-- A bad scale decides before the SEL does (log 28). -/
theorem decodeOperand_badScale {o : RawOperand} {p : AddrParts} (hk : o.kind = 4) (hp : o.parts = some p)
    (h : p.scale ∉ ([1, 2, 4, 8] : List Word)) : decodeOperand o = .error (.badScale p.scale) := by
  simp [decodeOperand, hk, hp, scaleOk_of_not_mem h]

/-- With no reserved TAG or KIND, the error of src decides, and with none the error of dst. -/
theorem decodeRecord_operandError {r : Record} {e : DecodeError} (htag : r.tag.toNat < 11)
    (hsrc : r.src.kind.toNat < 5) (hdst : r.dst.kind.toNat < 5)
    (h : decodeOperand r.src = .error e ∨ (∃ o, decodeOperand r.src = .ok o) ∧ decodeOperand r.dst = .error e) :
    decodeRecord r = .error e := by
  have hs : kindReserved r.src.kind = false := decide_eq_false (by omega)
  have hd : kindReserved r.dst.kind = false := decide_eq_false (by omega)
  have ht : tagReserved r.tag = false := decide_eq_false (by omega)
  rcases h with h | ⟨⟨o, ho⟩, h⟩
  · simp [decodeRecord, hs, hd, ht, h]
  · simp [decodeRecord, hs, hd, ht, h, ho]

/-- Settles O51: the decoder's error decides the fault; a reserved TAG that decodes faults alike when it runs. -/
theorem badRecordsFault : Obligations.BadRecordsFault := by
  intro s s' exitRip r ht hrun hrip hp
  refine ⟨fun h => ?_, fun p htag hsrc hdst hscale h => ?_⟩
  · rcases decodeRecord_reserved h with ⟨e, hd, hstatus, hinfo⟩ | ⟨i, hd, hexec⟩
    · rw [step_of_record_error ht hrun hrip hp hd, hstatus, hinfo]
      rfl
    · rw [step_of_record_ok ht hrun hrip hp hd, hexec]
      rfl
  · have hd : decodeRecord r = .error (.badScale p.scale) :=
      decodeRecord_operandError htag hsrc hdst (h.imp
        (fun ⟨hk, hp⟩ => decodeOperand_badScale hk hp hscale)
        (fun ⟨ho, hk, hp⟩ => ⟨ho, decodeOperand_badScale hk hp hscale⟩))
    rw [step_of_record_error ht hrun hrip hp hd]
    rfl

end Sys2Proof.Machine
end

section
/-! An engine instruction whose register operand names no register (spec/30_encoding.md R304, spec/46_engine.md R654,
R657): the fault comes at the RRD or RWR for it, as source, as destination read at the start, or as destination
written. -/

namespace Sys2Proof.Machine

/-! ### Operand kinds -/

theorem exists_asDest {dst : Operand} (h : (dst.isRegister || dst.isMemory) = true) : ∃ d, asDest dst = some d := by
  cases dst with
  | empty | imm => cases h
  | reg | memDirect | memIndirect => exact ⟨_, rfl⟩

theorem exists_asMemory {dst : Operand} (h : dst.isMemory = true) : ∃ e, asMemory dst = some e := by
  cases dst with
  | empty | imm | reg => cases h
  | memDirect | memIndirect => exact ⟨_, rfl⟩

theorem exists_reg_of_isRegister {dst : Operand} (h : dst.isRegister = true) : ∃ cell view, dst = .reg cell view := by
  cases dst with
  | reg cell view => exact ⟨cell, view, rfl⟩
  | empty | imm | memDirect | memIndirect => cases h

/-! ### As source -/

section

variable {s : State} {cell : BitVec 4} {view : BitVec 3} (hg : s.gaps = []) (hv : viewOfSel cell view = none)

include hg hv

theorem resolveSource_of_none :
    resolveSource (.reg cell view) s = .err .unknownRegister (zext64 (rrdCmd cell view)) s := by
  simp only [resolveSource, issue_nil hg, readReg_of_none hv, Res.bind]

theorem targetOf_of_none : targetOf (.reg cell view) s = .err .unknownRegister (zext64 (rrdCmd cell view)) s := by
  simp only [targetOf, issue_nil hg, readReg_of_none hv]

/-- A source is resolved before anything else (R654). -/
theorem exec_of_unknown_source {i : Instr} {dst : Operand} (ha : i.admitted = true)
    (hi : i = .mov (.reg cell view) dst ∨ i = .push (.reg cell view) dst ∨ i = .call (.reg cell view) dst ∨
      i = .add (.reg cell view) dst ∨ i = .sub (.reg cell view) dst ∨ i = .cmp (.reg cell view) dst ∨
      i = .jne (.reg cell view) dst ∨ i = .jmp (.reg cell view) dst) :
    exec i s = .next (s.engineFault .unknownRegister (some (zext64 (rrdCmd cell view)))) := by
  have hsource := resolveSource_of_none hg hv
  have htarget := targetOf_of_none hg hv
  rcases hi with rfl | rfl | rfl | rfl | rfl | rfl | rfl | rfl <;>
    simp only [Instr.admitted, Operand.isValue, Operand.isTarget, Bool.true_and, beq_iff_eq] at ha
  · obtain ⟨d, hd⟩ := exists_asDest ha
    cases d <;>
      simp only [exec, execMov, asSource, hd, movToRegister, movToMemory, hsource, Res.bind, endEngine]
  · subst ha
    simp only [exec, execPush, asSource, hsource, Res.bind, endEngine]
  · subst ha
    simp only [exec, execCall, asTarget, htarget, Res.bind, endEngine]
  · obtain ⟨c, w, rfl⟩ := exists_reg_of_isRegister ha
    simp only [exec, execAdd, asSource, asRegister, aluToRegister, hsource, Res.bind, endEngine]
  · obtain ⟨c, w, rfl⟩ := exists_reg_of_isRegister ha
    simp only [exec, execSub, asSource, asRegister, aluToRegister, hsource, Res.bind, endEngine]
  · obtain ⟨e, he⟩ := exists_asMemory ha
    simp only [exec, execCmp, asSource, he, hsource, Res.bind, endEngine]
  · subst ha
    simp only [exec, execJne, asTarget, htarget, Res.bind, endEngine]
  · subst ha
    simp only [exec, execJmp, asTarget, htarget, Res.bind, endEngine]

/-! ### As destination -/

/-- Add and Sub read their destination once the source is resolved (R654; log 24). -/
theorem aluToRegister_of_unknown_dst (op : Word → Word → State → Res Word) {x : Source} {r : Resolved}
    (hx : s.resolved x = some r) : aluToRegister op x cell view s =
      .err .unknownRegister (zext64 (rrdCmd cell view)) (s.noteRead (s.resolveWritten x)) := by
  simp only [aluToRegister, resolveSource_ok hg hx, Res.bind, issue_nil (s := s.noteRead _) hg, readReg_of_none hv]

/-- Mov writes its destination once it has the value (R660). -/
theorem movToRegister_of_unknown_dst (hi : s.Inv) (hc : s.Coherent) {x : Source} {v : Word}
    (hx : s.sourceValue x = some v) : ∃ u, movToRegister x cell view s =
      .err .unknownRegister (zext64 (rwrCmd cell view)) u ∧ Accesses (s.noteRead (s.sourceWritten x)) u 0 0 := by
  obtain ⟨r, hr, hval⟩ := source_ok hi hc hg hx
  obtain ⟨u, hu, hacc, _⟩ := hval (s.resolveWritten x)
  rw [State.resolve_and_value] at hacc
  refine ⟨u, ?_, hacc⟩
  simp only [movToRegister, resolveSource_ok hg hr, hu, Res.bind, issue_nil (hacc.frame.gaps.trans hg),
    writeReg_of_none hv]

/-- Pop writes its destination once it has loaded the word (R662). -/
theorem popInto_of_unknown_dst (hi : s.Inv) (hc : s.Coherent) {v : Word}
    (hx : s.wordValue (s.cell rspCell) = some v) : ∃ u, popInto cell view s =
      .err .unknownRegister (zext64 (rwrCmd cell view)) u ∧
      Accesses (s.noteRead (s.laneWritten rspCell .q && s.rootWritten)) u 0 0 := by
  obtain ⟨pa, hpa, _⟩ := Option.map_eq_some_iff.1 hx
  obtain ⟨u, hu, hacc⟩ := readWord_ok (hi.noteRead (s.laneWritten rspCell .q)) (hc.noteRead _) hg
    (va := s.cell rspCell) (pa := pa) hpa
  rw [State.noteRead_noteRead] at hacc
  refine ⟨u, ?_, hacc⟩
  simp only [popInto, issue_nil hg, readReg_q, hu, Res.bind, issue_nil (hacc.frame.gaps.trans hg),
    writeReg_of_none hv]

end

/-- What a fault leaves after reads alone: the run is faulted, the reads are noted, and the client sees no change. -/
theorem engineFault_of_reads {s u : State} {w : Bool} (h : Accesses (s.noteRead w) u 0 0) (e : Status) (info : Word) :
    u.engineFault e (some info) = { s.noteRead w with
      run := .faulted e (some info), cache := u.cache, mem := u.mem } ∧
    MemoryKept s (u.engineFault e (some info)) 0 0 := by
  obtain ⟨c, m, rfl⟩ := h.frame.exists_eq
  exact ⟨rfl, h.kept⟩

/-- Settles O43: as a source the operand is read first; as a destination of Add and Sub it is read next; as one of Mov
and Pop it is written after the value has been read. -/
theorem unknownRegisterOperands : Obligations.UnknownRegisterOperands := by
  intro s i src dst cell view hi hc hg hv
  refine ⟨fun hsrc ha hop => ?_, fun x hx => ⟨fun hval => ?_, fun hres hop => ?_⟩, fun hword => ?_⟩
  · subst hsrc
    exact exec_of_unknown_source hg hv ha hop
  · obtain ⟨v, hval⟩ := Option.ne_none_iff_exists'.1 hval
    obtain ⟨u, hu, hacc⟩ := movToRegister_of_unknown_dst hg hv hi hc hval
    refine ⟨_, ?_, engineFault_of_reads hacc _ _⟩
    simp only [exec, execMov, hx, asDest, hu, endEngine]
  · obtain ⟨r, hres⟩ := Option.ne_none_iff_exists'.1 hres
    rcases hop with rfl | rfl <;>
      simp only [exec, execAdd, execSub, hx, asRegister, aluToRegister_of_unknown_dst hg hv _ hres, endEngine] <;> rfl
  · obtain ⟨v, hword⟩ := Option.ne_none_iff_exists'.1 hword
    obtain ⟨u, hu, hacc⟩ := popInto_of_unknown_dst hg hv hi hc hword
    refine ⟨_, ?_, engineFault_of_reads hacc _ _⟩
    simp only [exec, execPop, asRegister, hu, Res.bind, endEngine]

end Sys2Proof.Machine
end

section
/-! Distinct times (spec/40_cache.md R412): every step keeps the times of a set's valid lines distinct until they
saturate. -/

namespace Sys2Proof.Machine

/-- The invariant, and in every set the condition of R412. -/
structure TimesApart (s : State) : Prop where
  inv : s.Inv
  times : ∀ i : Fin 64, TimesDiffer s.cache[i]

theorem SparesMemory.timesApart {f : State → State} (hf : SparesMemory f) {s : State} (h : TimesApart s) :
    TimesApart (f s) :=
  ⟨hf.inv h.inv, by rw [hf.cache]; exact h.times⟩

theorem TimesApart.access {s : State} (h : TimesApart s) (p : Word) (d : Option Byte) :
    (access p d s).All TimesApart := by
  by_cases hp : p.toNat < s.params.memSize
  · obtain ⟨b, t, ht, ha⟩ := access_ok h.inv hp d
    rw [ht]
    exact ⟨ha.inv, ha.times h.times⟩
  · rw [access_outOfBounds d (Nat.not_lt.1 hp)]
    exact h

theorem CommandDid.timesApart {i : Instr} {s t : State} (hd : CommandDid i s t) (h : TimesApart s) :
    TimesApart t := by
  refine ⟨hd.inv h.inv, ?_⟩
  cases hd with
  | access p d b u v hi ha ht =>
    have hu : (Res.ok b u).All TimesApart := ha ▸ h.access p d
    rw [ht]
    exact hu.times
  | _ =>
    -- no other command changes the cache
    rename_i ht
    rw [ht]
    exact h.times

theorem TimesApart.afterRequest {s : State} (r : Request) (h : TimesApart s) : TimesApart (afterRequest r s) := by
  rcases afterRequest_did r s with ⟨_, _, _, _, hd⟩ | ⟨_, ht⟩
  · exact hd.timesApart h
  · rw [ht]
    exact (sparesMemory_respond _ _).timesApart h

theorem TimesApart.hostTurn {s : State} (h : TimesApart s) : TimesApart (hostTurn s) :=
  (hostTurn_keeps (Q := fun _ => True) (fun _ inbox h => (sparesMemory_inbox inbox).timesApart h)
    (fun _ gaps h => (sparesMemory_gaps gaps).timesApart h) (fun r _ _ h => h.afterRequest r) h
    fun _ _ => trivial).1

theorem engineStable_timesApart : EngineStable TimesApart where
  access p d _ h := h.access p d
  setCell _ c x m h := (sparesMemory_setCell c x m).timesApart h
  setRip _ x h := (sparesMemory_setRip x).timesApart h
  setFlags _ f h := (sparesMemory_setFlags f).timesApart h
  noteRead _ w h := (sparesMemory_noteRead w).timesApart h
  host _ h := h.hostTurn

theorem TimesApart.engineTurn {s s' : State} (h : TimesApart s) (hs : s.engineTurn = some s') : TimesApart s' := by
  refine ⟨h.inv.engineTurn hs, fun i => ?_⟩
  have hset : s'.cache[i] = s.cache[i] := State.setAt_engineTurn hs i
  rw [hset]
  exact h.times i

/-- Settles O58: an access ages alike all lines but the one it touches, whose time alone becomes 0, and nothing else
changes a time. -/
theorem stepKeepsTimesDistinct : Obligations.StepKeepsTimesDistinct := by
  intro s t hi htd ht
  have h : TimesApart s := ⟨hi, htd⟩
  suffices TimesApart t from this.times
  cases step_did ht with
  | command r rest i hs hd hx =>
    exact (command_did (isCommand_of_decodeRequest hd) hx).timesApart ((sparesMemory_inbox rest).timesApart h)
  | refusedWord r rest hs ht =>
    rw [ht]
    exact (sparesMemory_respond _ _).timesApart ((sparesMemory_inbox rest).timesApart h)
  | launch prog exitRip rest hs ht =>
    rw [ht]
    exact (sparesMemory_run _).timesApart
      ((sparesMemory_prog prog).timesApart ((sparesMemory_inbox rest).timesApart h))
  | engine s' i hs hi' hx =>
    exact engine_keeps engineStable_timesApart hi' (fun _ e info h => (sparesMemory_engineFault e info).timesApart h)
      ((sparesMemory_noteRead _).timesApart (h.engineTurn hs)) hx
  | run s' w run hs ht =>
    rw [ht]
    exact (sparesMemory_run run).timesApart ((sparesMemory_noteRead w).timesApart (h.engineTurn hs))

end Sys2Proof.Machine
end

section
/-! The cache controller's access (spec/40_cache.md R400 to R408): the victim, and what CRD and CWR leave in the set of
their address and in the store. -/

namespace Sys2Proof.Machine

/-! ### The victim (R404) -/

theorem victim_of_mem_invalid {set : CacheSet} (h : ∃ l ∈ set, l.state = .invalid) :
    (wayOf set (victim set)).state = .invalid ∧ ∀ v < victim set, (wayOf set v).state ≠ .invalid := by
  obtain ⟨l, hl, hst⟩ := h
  unfold victim
  split
  · rename_i w hw
    obtain ⟨hlt, hinv, hbelow⟩ := List.findIdx?_eq_some_iff_getElem.1 hw
    refine ⟨by simpa [wayOf_eq hlt] using hinv, fun v hv => ?_⟩
    rw [wayOf_eq (Nat.lt_trans hv hlt)]
    simpa using hbelow v hv
  · rename_i hnone
    simpa [hst] using List.findIdx?_eq_none_iff.1 hnone l hl

theorem victim_of_all_valid {set : CacheSet} (hlen : 0 < set.length) (h : ∀ l ∈ set, l.valid) :
    (∀ v < set.length, (wayOf set v).time.toInt ≤ (wayOf set (victim set)).time.toInt) ∧
    ∀ v < victim set, (wayOf set v).time.toInt < (wayOf set (victim set)).time.toInt := by
  have hnone : set.findIdx? (fun l => l.state == .invalid) = none :=
    List.findIdx?_eq_none_iff.2 fun l hl => by simpa using h l hl
  have hv : victim set = maxTimeWay set 0 0 (-(2 ^ 63) - 1) := by simp only [victim, hnone]
  rcases maxTimeWay_spec set 0 0 (-(2 ^ 63) - 1) with ⟨_, hle⟩ | ⟨k, hk, hw, _, hle, hlt⟩
  · -- every time is above the scan's first value
    have hlow := hle _ (List.getElem_mem hlen)
    have := BitVec.le_toInt (x := set[0].time)
    omega
  · rw [hv, hw, Nat.zero_add, wayOf_eq hk]
    refine ⟨fun v hv => ?_, fun v hv => ?_⟩
    · rw [wayOf_eq hv]
      exact hle v hv
    · rw [wayOf_eq (Nat.lt_trans hv hk)]
      exact hlt v hv

/-- Settles O7: the scan for an Invalid way, and where there is none the scan for the maximum time. -/
theorem victimIsLowestInvalidElseOldest : Obligations.VictimIsLowestInvalidElseOldest := fun _ hlen =>
  ⟨victim_lt hlen, victim_of_mem_invalid, victim_of_all_valid hlen⟩

/-! ### Out of bounds (R402) -/

theorem le_toNat_of_extractLsb' {p : Word} (h : p.extractLsb' 52 12 ≠ 0) : 2 ^ 52 ≤ p.toNat := by
  by_contra hlt
  refine h (BitVec.eq_of_toNat_eq ?_)
  rw [BitVec.extractLsb'_toNat, Nat.shiftRight_eq_div_pow, Nat.div_eq_of_lt (Nat.not_le.1 hlt)]
  rfl

/-- Settles O5: the bounds check comes first, and no legal store reaches 2^52. -/
theorem cacheOutOfBounds : Obligations.CacheOutOfBounds := by
  refine ⟨fun s p d hp => ⟨?_, ?_⟩, fun s p hpar hp => Nat.le_trans hpar.2.2.2 (le_toNat_of_extractLsb' hp)⟩
  · simp only [exec, execCrd, readByte, access_outOfBounds none hp, Res.bind, endCommand]
    rfl
  · simp only [exec, execCwr, writeByte, access_outOfBounds (some d) hp, Res.bind, endCommand]
    rfl

/-! ### In bounds: the state an access leaves (R401) -/

/-- The set of p and the store. -/
def State.setMemOf (s : State) (p : Word) : SetMem := { set := s.setAt (setIndexOf p), mem := s.mem }

/-- What an access of p in bounds leaves; `d` is the byte a CWR writes. -/
def State.accessed (s : State) (p : Word) (d : Option Byte) : State :=
  s.setCache (setIndexOf p) (accessSet (setIndexOf p) p d (s.setMemOf p)).2

theorem access_of_lt {s : State} {p : Word} (hp : p.toNat < s.params.memSize) (d : Option Byte) :
    ∃ b, access p d s = .ok b (s.accessed p d) :=
  ⟨_, if_neg (Nat.not_le.2 hp)⟩

theorem exec_crd_of_lt {s : State} {p : Word} (hp : p.toNat < s.params.memSize) :
    ∃ v, exec (.crd p) s = .next ((s.accessed p none).respond .ok v) :=
  (access_of_lt hp none).imp' zext64 fun _ h => exec_crd h

theorem exec_cwr_of_lt {s : State} {p : Word} (hp : p.toNat < s.params.memSize) (d : Byte) :
    exec (.cwr p d) s = .next ((s.accessed p (some d)).respond .ok 0) := by
  obtain ⟨b, h⟩ := access_of_lt hp (some d)
  exact exec_cwr (by rw [writeByte, h, Res.bind])

theorem exec_crd_or_cwr {s : State} {p : Word} {d : Byte} {i : Instr} (hp : p.toNat < s.params.memSize)
    (hi : i = .crd p ∨ i = .cwr p d) : ∃ e v, exec i s = .next ((s.accessed p e).respond .ok v) := by
  rcases hi with rfl | rfl
  · exact ⟨none, exec_crd_of_lt hp⟩
  · exact ⟨some d, 0, exec_cwr_of_lt hp d⟩

theorem State.way_respond (s : State) (e : Status) (v : Word) (j : Fin 64) (w : Nat) :
    (s.respond e v).way j w = s.way j w := rfl

theorem State.setAt_accessed_self (s : State) (p : Word) (d : Option Byte) :
    (s.accessed p d).setAt (setIndexOf p) = (accessSet (setIndexOf p) p d (s.setMemOf p)).2.set := by
  simp only [State.setAt, State.accessed, State.setCache_cache, getElem_set_fin, if_true]

theorem State.setAt_accessed_of_ne (s : State) {p : Word} (d : Option Byte) {j : Fin 64} (hj : j ≠ setIndexOf p) :
    (s.accessed p d).setAt j = s.setAt j := by
  simp only [State.setAt, State.accessed, State.setCache_cache, getElem_set_fin, if_neg hj]

/-- An access places p's block, then touches its way and writes the byte of a CWR (R401). -/
theorem accessSet_eq (i : Fin 64) (p : Word) (d : Option Byte) (x : SetMem) :
    (accessSet i p d x).2 = (place i p x).2.after (place i p x).1 (offsetOf p) d := rfl

/-- What an access of p leaves, from the way `w` it uses and the set and store `y` with p's block in that way. -/
structure LeftBy (s : State) (p : Word) (d : Option Byte) (w : Nat) (y : SetMem) : Prop where
  mem : (s.accessed p d).mem = y.mem
  length : ((s.accessed p d).setAt (setIndexOf p)).length = y.set.length
  way : ∀ v < y.set.length,
    (s.accessed p d).way (setIndexOf p) v = afterLine w v (offsetOf p) d (wayOf y.set v)

theorem leftBy_of_place {s : State} {p : Word} {w : Nat} {y : SetMem}
    (h : place (setIndexOf p) p (s.setMemOf p) = (w, y)) (hw : w < y.set.length) (d : Option Byte) :
    LeftBy s p d w y := by
  have he : (accessSet (setIndexOf p) p d (s.setMemOf p)).2 = y.after w (offsetOf p) d := by rw [accessSet_eq, h]
  have hset : (s.accessed p d).setAt (setIndexOf p) = (y.after w (offsetOf p) d).set := by
    rw [State.setAt_accessed_self, he]
  refine ⟨(congrArg SetMem.mem he :), by rw [hset, SetMem.length_after], fun v hv => ?_⟩
  rw [State.way, hset, wayOf_eq (by rwa [SetMem.length_after]), SetMem.getElem_after hw, wayOf_eq hv]

section

variable {s : State} (hi : s.Inv) {p : Word}

include hi

theorem State.Inv.setAt_length_pos (i : Fin 64) : 0 < (s.setAt i).length := by
  rw [State.setAt, hi.ways]
  exact hi.params.1

/-- At most one way of a set holds a tag (R112(b), R403). -/
theorem State.Inv.way_unique {i : Fin 64} {t : BitVec 40} {v w : Nat} (hv : v < (s.setAt i).length)
    (hw : w < (s.setAt i).length) (h : (s.way i v).holds t = true) (h' : (s.way i w).holds t = true) : v = w := by
  rw [State.way, wayOf_eq hv, Line.holds_iff] at h
  rw [State.way, wayOf_eq hw, Line.holds_iff] at h'
  exact (tagsDiffer_iff _).1 (hi.tags i) v w hv hw h.1 h'.1 (h.2.trans h'.2.symm)

/-- On a hit the lines before Touch are those of s (R403). -/
theorem leftBy_of_hit {w : Nat} (hw : w < (s.setAt (setIndexOf p)).length)
    (h : (s.way (setIndexOf p) w).holds (tagOf p) = true) (d : Option Byte) : LeftBy s p d w (s.setMemOf p) := by
  refine leftBy_of_place ?_ hw d
  rcases place_cases (setIndexOf p) p (s.setMemOf p) (hi.setAt_length_pos _) with
    ⟨v, hv, hplace, hhit⟩ | ⟨_, _, _, _, hmiss⟩
  · rw [← wayOf_eq hv] at hhit
    rw [hplace, hi.way_unique hv hw hhit h]
  · rw [State.way, wayOf_eq hw] at h
    cases h.symm.trans (hmiss w hw)

/-- On a miss the line before Touch is the victim's fill, and the store is that after its write-back (R405). -/
theorem accessed_of_miss (h : ∀ l ∈ s.setAt (setIndexOf p), l.holds (tagOf p) = false) {w : Nat}
    (hw : w = victim (s.setAt (setIndexOf p))) (d : Option Byte) :
    (s.accessed p d).mem = writeBack (setIndexOf p) (s.way (setIndexOf p) w) s.mem ∧
    (s.accessed p d).way (setIndexOf p) w =
      afterLine w w (offsetOf p) d (filled (setIndexOf p) p (s.way (setIndexOf p) w) s.mem) := by
  rcases place_cases (setIndexOf p) p (s.setMemOf p) (hi.setAt_length_pos _) with
    ⟨v, hv, _, hhit⟩ | ⟨v, hv, hvictim, hplace, _⟩
  · cases (h _ (List.getElem_mem hv)).symm.trans hhit
  · obtain rfl : v = w := hvictim.trans hw.symm
    rw [fill_eq hv, ← wayOf_eq hv] at hplace
    have hl := leftBy_of_place hplace (by rwa [List.length_set]) d
    have hway := hl.way v (by rwa [List.length_set])
    rw [wayOf_eq (by rwa [List.length_set]), List.getElem_set_self] at hway
    exact ⟨hl.mem, hway⟩

end

/-! ### What becomes of one line -/

theorem touchLine_self (w : Nat) (l : Line) : touchLine w w l = { l with time := 0 } := if_pos rfl

theorem touchLine_of_ne {w v : Nat} (h : v ≠ w) (l : Line) :
    touchLine w v l = { l with time := if l.state = .invalid then l.time else older l.time } := by
  rw [touchLine, if_neg h]
  split <;> rfl

theorem afterLine_none (w v : Nat) (o : Fin 64) (l : Line) : afterLine w v o none l = touchLine w v l := rfl

theorem afterLine_some_self (w : Nat) (o : Fin 64) (d : Byte) (l : Line) :
    afterLine w w o (some d) l = (touchLine w w l).store o d := if_pos rfl

theorem afterLine_of_ne {w v : Nat} (h : v ≠ w) (o : Fin 64) (d : Option Byte) (l : Line) :
    afterLine w v o d l = touchLine w v l := by
  cases d with
  | none => rfl
  | some d => exact if_neg h

/-! ### What CRD and CWR leave -/

/-- Settles O6: the lines before Touch are those before the access. -/
theorem hitLeavesTagsAndStore : Obligations.HitLeavesTagsAndStore := by
  intro s p d w hi hp hw hhit
  refine ⟨fun v hv h => hi.way_unique hv hw h hhit, ?_, ?_⟩
  · obtain ⟨b, hexec⟩ := exec_crd_of_lt hp
    have hl := leftBy_of_hit hi hw hhit none
    refine ⟨_, hexec, hl.mem, fun j => s.setAt_accessed_of_ne _, hl.length, fun v hv => ?_⟩
    rw [State.way_respond, hl.way v hv, afterLine_none]
    exact ⟨touchLine_tag w v _, touchLine_state w v _, touchLine_block w v _⟩
  · have hl := leftBy_of_hit hi hw hhit (some d)
    refine ⟨_, exec_cwr_of_lt hp d, hl.mem, fun j => s.setAt_accessed_of_ne _, hl.length, fun v hv => ?_⟩
    rw [State.way_respond, hl.way v hv]
    by_cases hvw : v = w
    · subst hvw
      rw [afterLine_some_self, if_pos rfl, if_pos rfl, touchLine_self]
      exact ⟨rfl, rfl, rfl⟩
    · rw [afterLine_of_ne hvw, if_neg hvw, if_neg hvw]
      exact ⟨touchLine_tag w v _, touchLine_state w v _, touchLine_block w v _⟩

/-- Settles O8: the line before Touch is the victim's fill, from the store after the victim's write-back. -/
theorem missFillsTheVictim : Obligations.MissFillsTheVictim := by
  intro s p d w old hi hp hmiss hw hold
  subst hold
  obtain ⟨b, hcrd⟩ := exec_crd_of_lt hp
  obtain ⟨hmem, hway⟩ := accessed_of_miss hi hmiss hw none
  obtain ⟨hmem', hway'⟩ := accessed_of_miss hi hmiss hw (some d)
  have hwb := wbAddr_toNat (setIndexOf p) (s.way (setIndexOf p) w).tag
  refine ⟨_, _, hcrd, exec_cwr_of_lt hp d, hmem'.trans hmem.symm, fun hd => ?_,
    fun hd => ⟨fun o => ?_, fun a ha => ?_⟩, ?_, ?_⟩
  · rw [State.respond_mem, hmem, writeBack, if_neg hd]
  · have ho := o.isLt
    simp only [State.respond_mem, hmem, read_writeBack, hwb]
    rw [dif_pos ⟨hd, by omega, by omega⟩]
    simp
  · rw [State.respond_mem, hmem, read_writeBack, dif_neg fun h => ha (by rw [← hwb]; exact h.2)]
  · rw [State.way_respond, hway, State.respond_mem, hmem, afterLine_none, touchLine_self, filled, blockAddr_toNat]
  · rw [State.way_respond, hway', State.respond_mem, hmem, afterLine_some_self, touchLine_self, filled,
      blockAddr_toNat]
    rfl

/-- Settles O9: hit or miss, Touch runs on the lines of the set, of which placing changed only the accessed one. -/
theorem touchAgesTheSet : Obligations.TouchAgesTheSet := by
  intro s p d i hi hp hid
  obtain ⟨e, b, hexec⟩ := exec_crd_or_cwr hp hid
  have hplaced := place_placed (p := p) (x := s.setMemOf p) (hi.setOk (setIndexOf p)) hi.params.1
  generalize hw : (place (setIndexOf p) p (s.setMemOf p)).1 = w at hplaced
  generalize hy : (place (setIndexOf p) p (s.setMemOf p)).2 = y at hplaced
  have hl := leftBy_of_place (Prod.ext hw hy) hplaced.lt e
  have hlen : y.set.length = (s.setAt (setIndexOf p)).length := hplaced.ways.trans hplaced.was.symm
  refine ⟨_, w, hexec, fun j => s.setAt_accessed_of_ne _, hl.length.trans hlen, hlen ▸ hplaced.lt, ?_, ?_,
    fun v hv hvw => ?_⟩
  · rw [State.way_respond, hl.way w hplaced.lt, wayOf_eq hplaced.lt, hplaced.holds_after w hplaced.lt]
    exact hplaced.holds
  · rw [State.way_respond, hl.way w hplaced.lt, afterLine_time, touchLine_self]
  · have hv' : v < y.set.length := hlen ▸ hv
    rw [State.way_respond, hl.way v hv', afterLine_of_ne hvw, touchLine_of_ne hvw, wayOf_eq hv',
      hplaced.others v hv' hv hvw, State.way, wayOf_eq hv]
    rfl

end Sys2Proof.Machine
end

section
/-! Where the engine's word accesses fault (spec/46_engine.md R655, R657, R660 to R668): which access an instruction
comes to by reads alone, and what the access's error leaves. -/

namespace Sys2Proof.Machine

/-! ### Sequences -/

theorem Res.ok_bind {α β : Type} (v : α) (s : State) (f : α → State → Res β) : (Res.ok v s).bind f = f v s := rfl

theorem Res.err_bind {α β : Type} (e : Status) (info : Word) (s : State) (f : α → State → Res β) :
    (Res.err e info s).bind f = .err e info s := rfl

theorem Res.bind_assoc {α β γ : Type} (r : Res α) (f : α → State → Res β) (g : β → State → Res γ) :
    (r.bind f).bind g = r.bind fun v s => (f v s).bind g := by
  cases r <;> rfl

theorem asMemory_of_asDest {dst : Operand} {e : AddrExpr} (h : asDest dst = some (.mem e)) : asMemory dst = some e := by
  cases dst <;> cases h <;> rfl

/-! ### A fault after reads -/

/-- One more note after reads. -/
theorem Accesses.noted {s u : State} {w : Bool} (h : Accesses (s.noteRead w) u 0 0) (w' : Bool) :
    Accesses (s.noteRead (w && w')) (u.noteRead w') 0 0 :=
  h.trans_noted (.refl (h.inv.noteRead w') (h.coherent.noteRead w') 0)

/-- What a fault leaves after accesses: the run is faulted, the reads are noted, and memory is as they left it. -/
theorem engineFault_of_accesses {s u : State} {w : Bool} {lo n : Nat} (h : Accesses (s.noteRead w) u lo n) (e : Status)
    (info : Word) :
    u.engineFault e (some info) = { s.noteRead w with
      run := .faulted e (some info), cache := u.cache, mem := u.mem } ∧
    MemoryKept s (u.engineFault e (some info)) lo n := by
  obtain ⟨c, m, rfl⟩ := h.frame.exists_eq
  exact ⟨rfl, h.kept⟩

section

variable {s t : State} (h : SameButMemory s t) {va : Word}

include h

theorem SameButMemory.pageFaultAt {k : Fin 4} (hf : s.PageFaultAt va k) : t.PageFaultAt va k := by
  unfold State.PageFaultAt
  rw [h.pt, h.rootKey]
  exact hf

theorem SameButMemory.boundsFaultAt {pa : Word} (hf : s.BoundsFaultAt va pa) : t.BoundsFaultAt va pa := by
  unfold State.BoundsFaultAt
  rw [h.pt, h.rootKey, h.params]
  exact hf

end

/-- From s the instruction comes by reads alone, whose notes add up to `w`, to a state that is s' but for memory, and
there issues `f`, which ends it where it fails. -/
def Reaches {α : Type} (i : Instr) (s s' : State) (w : Bool) (f : State → Res α) : Prop :=
  ∃ u, Accesses (s'.noteRead w) u 0 0 ∧ ∃ next, exec i s = endEngine ((f u).bind next)

section

variable {α : Type} {i : Instr} {s s' : State} {w : Bool} {f : State → Res α}

theorem Accesses.reaches {u : State} (h : Accesses (s'.noteRead w) u 0 0) {next : α → State → Res Unit}
    (hexec : exec i s = endEngine ((f u).bind next)) : Reaches i s s' w f :=
  ⟨u, h, next, hexec⟩

/-- Where nothing but registers is read, notes are all that the reads leave. -/
theorem reaches_of_notes (hi : s'.Inv) (hc : s'.Coherent) {next : α → State → Res Unit}
    (hexec : exec i s = endEngine ((f (s'.noteRead w)).bind next)) : Reaches i s s' w f :=
  (Accesses.refl (hi.noteRead w) (hc.noteRead w) 0).reaches hexec

theorem Reaches.err (h : Reaches i s s' w f) {e : Status} {info : Word} {lo n : Nat} {Q : State → Prop}
    (hf : ∀ u, Accesses (s'.noteRead w) u 0 0 →
      ∃ t, f u = .err e info t ∧ Accesses (u.noteRead u.rootWritten) t lo n ∧ Q t) :
    ∃ t, exec i s = .next (t.engineFault e (some info)) ∧
      Accesses (s'.noteRead (w && s'.rootWritten)) t lo n ∧ Q t := by
  obtain ⟨u, hu, next, hexec⟩ := h
  obtain ⟨t, ht, ha, hq⟩ := hf u hu
  refine ⟨t, by rw [hexec, ht, Res.err_bind, endEngine], ?_, hq⟩
  have hroot : u.rootWritten = s'.rootWritten := hu.frame.rootWritten
  rw [← hroot]
  exact hu.trans_noted ha

/-- A word access whose first byte has no translation changes nothing (R453, R655). -/
theorem Reaches.pageFault {va : Word} {k : Fin 4} (h : Reaches i s s' w f) (hg : s'.gaps = [])
    (hf : ∀ {u : State}, u.gaps = [] → u.PageFaultAt va k →
      f u = .err .pageFault (BitVec.ofNat 64 (k.val + 1)) (u.noteRead u.rootWritten)) (hk : s'.PageFaultAt va k) :
    ∃ t, exec i s = .next t ∧
      t = { s'.noteRead (w && s'.rootWritten) with
        run := .faulted .pageFault (some (BitVec.ofNat 64 (k.val + 1))), cache := t.cache, mem := t.mem } ∧
      MemoryKept s' t 0 0 := by
  obtain ⟨t, ht, ha, _⟩ := h.err (Q := fun _ => True) fun u hu =>
    ⟨_, hf (hu.frame.gaps.trans hg) (hu.frame.pageFaultAt hk), .refl (hu.inv.noteRead _) (hu.coherent.noteRead _) 0,
      trivial⟩
  exact ⟨_, ht, engineFault_of_accesses ha _ _⟩

/-- A load that leaves the store's bounds changes nothing the client sees (R402, R655). -/
theorem Reaches.load_outOfBounds {va pa : Word} (h : Reaches i s s' w (readWord va)) (hg : s'.gaps = [])
    (hpa : s'.BoundsFaultAt va pa) :
    ∃ t, exec i s = .next t ∧
      t = { s'.noteRead (w && s'.rootWritten) with
        run := .faulted .outOfBounds (some (s'.boundsInfo pa)), cache := t.cache, mem := t.mem } ∧
      MemoryKept s' t 0 0 := by
  obtain ⟨t, ht, ha, _⟩ := h.err (Q := fun _ => True) fun u hu => by
    obtain ⟨t, ht, ha⟩ := readWord_outOfBounds hu.inv hu.coherent (hu.frame.gaps.trans hg)
      (hu.frame.boundsFaultAt hpa)
    rw [hu.frame.boundsInfo] at ht
    exact ⟨t, ht, ha, trivial⟩
  exact ⟨_, ht, engineFault_of_accesses ha _ _⟩

/-- A store that leaves the store's bounds keeps the bytes before (R402, R655). -/
theorem Reaches.store_outOfBounds {va pa v : Word} (h : Reaches i s s' w (writeWord va v)) (hg : s'.gaps = [])
    (hpa : s'.BoundsFaultAt va pa) :
    ∃ t, exec i s = .next t ∧
      t = { s'.noteRead (w && s'.rootWritten) with
        run := .faulted .outOfBounds (some (s'.boundsInfo pa)), cache := t.cache, mem := t.mem } ∧
      (∀ j < 8, pa.toNat + j < s'.params.memSize → t.eff (pa + BitVec.ofNat 64 j) = byteOf v j) ∧
      MemoryKept s' t pa.toNat (s'.params.memSize - pa.toNat) := by
  obtain ⟨t, ht, ha, hstored⟩ := h.err (lo := pa.toNat) (n := s'.params.memSize - pa.toNat)
    (Q := fun t => ∀ j < 8, pa.toNat + j < s'.params.memSize → t.eff (pa + BitVec.ofNat 64 j) = byteOf v j)
    fun u hu => by
      obtain ⟨t, ht, ha, hstored⟩ := writeWord_outOfBounds hu.inv hu.coherent (hu.frame.gaps.trans hg) v
        (hu.frame.boundsFaultAt hpa)
      rw [hu.frame.boundsInfo] at ht
      rw [hu.frame.params] at ha hstored
      exact ⟨t, ht, ha, hstored⟩
  obtain ⟨hleft, hkept⟩ := engineFault_of_accesses ha .outOfBounds (s'.boundsInfo pa)
  exact ⟨_, ht, hleft, hstored, hkept⟩

end

/-! ### The reads before the access -/

section

variable {s : State} (hi : s.Inv) (hc : s.Coherent) (hg : s.gaps = [])

include hi hc hg

/-- A source with a value is resolved and read (R654, R656). -/
theorem source_then {x : Source} {v : Word} (hv : s.sourceValue x = some v) :
    ∃ u, Accesses (s.noteRead (s.sourceWritten x)) u 0 0 ∧ ∀ {β : Type} (f : Word → State → Res β),
      ((resolveSource x s).bind fun r s => (valueOf r s).bind f) = f v u := by
  obtain ⟨r, hr, hval⟩ := source_ok hi hc hg hv
  obtain ⟨u, hu, ha, _⟩ := hval (s.resolveWritten x)
  rw [State.resolve_and_value] at ha
  exact ⟨u, ha, fun f => by rw [resolveSource_ok hg hr, Res.ok_bind, hu, Res.ok_bind]⟩

/-- The same where the address of a memory destination is fixed before the value is read (R654). -/
theorem source_and_address_then {x : Source} {v : Word} (hv : s.sourceValue x = some v) (e : AddrExpr) :
    ∃ u, Accesses (s.noteRead (s.sourceWritten x && s.eaWritten e)) u 0 0 ∧
      ∀ {β : Type} (f : Word → Word → State → Res β),
        ((resolveSource x s).bind fun r s => (effectiveAddress e s).bind fun va s =>
          (valueOf r s).bind fun v s => f va v s) = f (s.ea e) v u := by
  obtain ⟨r, hr, hval⟩ := source_ok hi hc hg hv
  obtain ⟨u, hu, ha, _⟩ := hval (s.resolveWritten x && s.eaWritten e)
  rw [Bool.and_right_comm, State.resolve_and_value] at ha
  refine ⟨u, ha, fun f => ?_⟩
  rw [resolveSource_ok hg hr, Res.ok_bind, effectiveAddress_ok (s := s.noteRead _) hg, Res.ok_bind,
    State.noteRead_noteRead, State.noteRead_eaWritten, State.noteRead_ea, hu, Res.ok_bind]

omit hi hc in
/-- A memory source is resolved to its address (R654). -/
theorem memSource_then {β : Type} (e : AddrExpr) (f : Resolved → State → Res β) :
    (resolveSource (.mem e) s).bind f = f (.addr (s.ea e)) (s.noteRead (s.eaWritten e)) := by
  rw [resolveSource_ok hg (r := .addr (s.ea e)) rfl, Res.ok_bind]
  rfl

/-! ### The stores -/

omit hi hc in
/-- A push comes to its store below the stack pointer (R661, R664). -/
theorem pushWord_eq {va : Word} (hsp : s.cell rspCell = va + 8) (v : Word) :
    pushWord v s = (writeWord va v (s.noteRead (s.laneWritten rspCell .q))).bind fun _ t =>
      issue (writeReg rspCell qView va) t := by
  rw [pushWord, issue_nil hg, readReg_q, Res.ok_bind, hsp, BitVec.add_sub_cancel]

theorem push_reaches_store {src : Operand} {x : Source} {v va : Word} (hsrc : asSource src = some x)
    (hv : s.sourceValue x = some v) (hsp : s.cell rspCell = va + 8) :
    Reaches (.push src .empty) s s (s.sourceWritten x && s.laneWritten rspCell .q) (writeWord va v) := by
  obtain ⟨u, ha, hthen⟩ := source_then hi hc hg hv
  have hcell : u.cell rspCell = va + 8 := (ha.frame.cell rspCell).trans hsp
  have hlane : u.laneWritten rspCell .q = s.laneWritten rspCell .q := ha.frame.laneWritten rspCell .q
  exact (ha.noted (s.laneWritten rspCell .q)).reaches (by
    simp only [exec, execPush, hsrc, hthen, pushWord_eq (ha.frame.gaps.trans hg) hcell, hlane, Res.bind_assoc]
    rfl)

theorem mov_reaches_store {src dst : Operand} {x : Source} {e : AddrExpr} {v : Word} (hsrc : asSource src = some x)
    (hv : s.sourceValue x = some v) (hdst : asDest dst = some (.mem e)) :
    Reaches (.mov src dst) s s (s.sourceWritten x && s.eaWritten e) (writeWord (s.ea e) v) := by
  obtain ⟨u, ha, hthen⟩ := source_and_address_then hi hc hg hv e
  exact ha.reaches (by
    simp only [exec, execMov, hsrc, hdst, movToMemory, hthen]
    rfl)

theorem call_reaches_store {src : Operand} {x : Target} {va : Word} (hsrc : asTarget src = some x)
    (hv : s.targetValue x ≠ none) (hsp : s.cell rspCell = va + 8) :
    Reaches (.call src .empty) s s (s.targetWritten x && s.ripWr && s.laneWritten rspCell .q)
      (writeWord va (s.rip + 0x40)) := by
  obtain ⟨v, hv⟩ := Option.ne_none_iff_exists'.1 hv
  exact reaches_of_notes hi hc (by
    simp only [exec, execCall, hsrc, targetOf_ok hg hv, Res.ok_bind, issue_nil (s := s.noteRead _) hg, readRip,
      State.noteRead_noteRead, pushWord_eq (s := s.noteRead _) hg hsp, Res.bind_assoc, slot]
    rfl)

/-! ### The loads -/

omit hi hc in
/-- A pop comes to its load at the stack pointer (R662). -/
theorem popInto_eq (cell : BitVec 4) (view : BitVec 3) :
    popInto cell view s = (readWord (s.cell rspCell) (s.noteRead (s.laneWritten rspCell .q))).bind fun v t =>
      (issue (writeReg cell view v) t).bind fun _ t =>
      (issue (readReg rspCell qView) t).bind fun sp t => issue (writeReg rspCell qView (sp + 8)) t := by
  rw [popInto, issue_nil hg, readReg_q, Res.ok_bind]

omit hi hc in
/-- The register forms of Add and Sub with a memory source come to their load (R666, R667; log 24). -/
theorem aluToRegister_eq {e : AddrExpr} {cell : BitVec 4} {view : BitVec 3} {a : Word}
    (hv : s.regValue cell view = some a) (op : Word → Word → State → Res Word) :
    aluToRegister op (.mem e) cell view s =
      (readWord (s.ea e) (s.noteRead (s.eaWritten e && s.viewWritten cell view))).bind fun b t =>
      (issue (op a b) t).bind fun r t => (issue (writeReg cell view r) t).bind fun _ t => advance t := by
  rw [aluToRegister, memSource_then hg, issue_nil (s := s.noteRead _) hg, readReg_of_value (s := s.noteRead _) hv,
    Res.ok_bind, State.noteRead_noteRead]
  rfl

theorem ret_reaches_load :
    Reaches (.ret .empty .empty) s s (s.laneWritten rspCell .q) (readWord (s.cell rspCell)) :=
  reaches_of_notes hi hc (by
    simp only [exec, execRet, issue_nil hg, readReg_q, Res.ok_bind]
    rfl)

theorem pop_reaches_load (cell : BitVec 4) (view : BitVec 3) :
    Reaches (.pop .empty (.reg cell view)) s s (s.laneWritten rspCell .q) (readWord (s.cell rspCell)) :=
  reaches_of_notes hi hc (by
    simp only [exec, execPop, asRegister, popInto_eq hg, Res.bind_assoc]
    rfl)

/-- Leave has set rsp to rbp when it comes to its load there (R663). -/
theorem leave_reaches_load :
    Reaches (.leave .empty .empty) s (s.writeView rspCell .q (s.cell rbpCell)) (s.laneWritten rbpCell .q)
      (readWord (s.cell rbpCell)) := by
  have hw := sparesMemory_writeView rspCell .q (s.cell rbpCell)
  have hmoved : ∀ w, (s.noteRead w).writeView rspCell .q (s.cell rbpCell) =
    (s.writeView rspCell .q (s.cell rbpCell)).noteRead w := fun _ => rfl
  exact reaches_of_notes (hw.inv hi) (hw.coherent hc) (by
    simp only [exec, execLeave, issue_nil hg, readReg_q, issue_nil (s := s.noteRead _) hg, Res.ok_bind,
      writeReg_of_view (viewOfSel_q _), hmoved, popInto_eq (s := (s.writeView _ _ _).noteRead _) hg,
      State.noteRead_cell, cell_writeView_q, State.noteRead_laneWritten, laneWritten_writeView, State.noteRead_true,
      Res.bind_assoc]
    rfl)

section

variable {src : Operand} {e : AddrExpr} (hsrc : asSource src = some (.mem e))

include hsrc

theorem push_reaches_load : Reaches (.push src .empty) s s (s.eaWritten e) (readWord (s.ea e)) :=
  reaches_of_notes hi hc (by
    simp only [exec, execPush, hsrc, memSource_then hg, valueOf]
    rfl)

theorem movToRegister_reaches_load (cell : BitVec 4) (view : BitVec 3) :
    Reaches (.mov src (.reg cell view)) s s (s.eaWritten e) (readWord (s.ea e)) :=
  reaches_of_notes hi hc (by
    simp only [exec, execMov, hsrc, asDest, movToRegister, memSource_then hg, valueOf]
    rfl)

/-- Add and Sub read their destination before the load (R654; log 24). -/
theorem alu_reaches_load {cell : BitVec 4} {view : BitVec 3} (hv : viewOfSel cell view ≠ none) {i : Instr}
    (h : i = .add src (.reg cell view) ∨ i = .sub src (.reg cell view)) :
    Reaches i s s (s.eaWritten e && s.viewWritten cell view) (readWord (s.ea e)) := by
  obtain ⟨v, hv⟩ := Option.ne_none_iff_exists'.1 hv
  have hdst : s.regValue cell view = some (viewRead v (s.cell cell)) := by rw [State.regValue, hv, Option.map_some]
  have halu := aluToRegister_eq hg (e := e) hdst
  rcases h with rfl | rfl
  · exact reaches_of_notes hi hc (by simp only [exec, execAdd, hsrc, asRegister, halu]; rfl)
  · exact reaches_of_notes hi hc (by simp only [exec, execSub, hsrc, asRegister, halu]; rfl)

/-- With a memory destination both addresses are fixed before the load (R654). -/
theorem memDest_reaches_load {dst : Operand} {e' : AddrExpr} (hdst : asDest dst = some (.mem e')) {i : Instr}
    (h : i = .mov src dst ∨ i = .cmp src dst) :
    Reaches i s s (s.eaWritten e && s.eaWritten e') (readWord (s.ea e)) := by
  have haddr : effectiveAddress e' (s.noteRead (s.eaWritten e)) =
      .ok (s.ea e') (s.noteRead (s.eaWritten e && s.eaWritten e')) := by
    rw [effectiveAddress_ok (s := s.noteRead _) hg, State.noteRead_ea, State.noteRead_eaWritten,
      State.noteRead_noteRead]
  rcases h with rfl | rfl
  · exact reaches_of_notes hi hc (by
      simp only [exec, execMov, hsrc, hdst, movToMemory, memSource_then hg, haddr, Res.ok_bind, valueOf]
      rfl)
  · exact reaches_of_notes hi hc (by
      simp only [exec, execCmp, hsrc, asMemory_of_asDest hdst, memSource_then hg, haddr, Res.ok_bind, valueOf]
      rfl)

end

/-- Cmp reads its source before the word at dst (R668). -/
theorem cmp_reaches_load {src dst : Operand} {x : Source} {e : AddrExpr} (hsrc : asSource src = some x)
    (hv : s.sourceValue x ≠ none) (hdst : asDest dst = some (.mem e)) :
    Reaches (.cmp src dst) s s (s.sourceWritten x && s.eaWritten e) (readWord (s.ea e)) := by
  obtain ⟨v, hv⟩ := Option.ne_none_iff_exists'.1 hv
  obtain ⟨u, ha, hthen⟩ := source_and_address_then hi hc hg hv e
  exact ha.reaches (by
    simp only [exec, execCmp, hsrc, asMemory_of_asDest hdst, hthen]
    rfl)

end

/-! ### The two statements -/

/-- Settles O45: each of the three comes to its store by reads alone. -/
theorem storeFaults : Obligations.StoreFaults := by
  intro s i src dst value va written hi hc hg hop
  obtain ⟨w, rfl, h⟩ : ∃ w, written = (w && s.rootWritten) ∧ Reaches i s s w (writeWord va value) := by
    rcases hop with ⟨x, hsrc, hv, ⟨rfl, hsp, hw⟩ | ⟨e, rfl, hdst, rfl, hw⟩⟩ | ⟨x, hsrc, hv, rfl, rfl, hsp, hw⟩
    · exact ⟨_, hw, push_reaches_store hi hc hg hsrc hv hsp⟩
    · exact ⟨_, hw, mov_reaches_store hi hc hg hsrc hv hdst⟩
    · exact ⟨_, hw, call_reaches_store hi hc hg hsrc hv hsp⟩
  exact ⟨fun k => h.pageFault hg fun hg => writeWord_pageFault hg value, fun pa => h.store_outOfBounds hg⟩

/-- The root is not in rsp (R651). -/
theorem rootKey_writeView_rsp (s : State) (v : View) (x : Word) : (s.writeView rspCell v x).rootKey = s.rootKey := by
  have hcell : (s.writeView rspCell v x).cell rbpCell = s.cell rbpCell := by
    rw [cell_writeView, if_neg (by decide)]
  unfold State.rootKey
  rw [hcell]
  rfl

theorem rootWritten_writeView_rsp (s : State) (v : View) (x : Word) :
    (s.writeView rspCell v x).rootWritten = s.rootWritten := by
  have hmarks : (s.writeView rspCell v x).marks rbpCell = s.marks rbpCell := by
    rw [marks_writeView, if_neg (by decide)]
  unfold State.rootWritten State.laneWritten
  rw [hmarks]
  rfl

/-- Settles O46: each opcode comes to its load by reads alone, but that Leave has written rsp, which is not the root. -/
theorem loadFaults : Obligations.LoadFaults := by
  intro s s' i src dst va written hi hc hg hop
  obtain ⟨w, rfl, hs, h⟩ : ∃ w, written = (w && s.rootWritten) ∧ (s' = s ∨ s' = s.writeView rspCell .q va) ∧
      Reaches i s s' w (readWord va) := by
    rcases hop with ⟨rfl, rfl, hw, rfl | ⟨cell, view, rfl⟩⟩ | ⟨rfl, rfl, hw, rfl⟩ | ⟨rfl, e, hsrc, rfl, hop⟩ |
      ⟨rfl, x, e, hsrc, hv, hdst, rfl, hw, rfl⟩
    · exact ⟨_, hw, .inl rfl, ret_reaches_load hi hc hg⟩
    · exact ⟨_, hw, .inl rfl, pop_reaches_load hi hc hg cell view⟩
    · exact ⟨_, hw, .inr rfl, leave_reaches_load hi hc hg⟩
    · rcases hop with ⟨hw, rfl | ⟨cell, view, rfl⟩⟩ | ⟨cell, view, hview, hw, hi'⟩ | ⟨e', hdst, hw, hi'⟩
      · exact ⟨_, hw, .inl rfl, push_reaches_load hi hc hg hsrc⟩
      · exact ⟨_, hw, .inl rfl, movToRegister_reaches_load hi hc hg hsrc cell view⟩
      · exact ⟨_, hw, .inl rfl, alu_reaches_load hi hc hg hsrc hview hi'⟩
      · exact ⟨_, hw, .inl rfl, memDest_reaches_load hi hc hg hsrc hdst hi'⟩
    · exact ⟨_, hw, .inl rfl, cmp_reaches_load hi hc hg hsrc hv hdst⟩
  rcases hs with rfl | rfl
  · exact ⟨fun k => h.pageFault hg fun hg => readWord_pageFault hg, fun pa => h.load_outOfBounds hg⟩
  · have hroot := rootKey_writeView_rsp s .q va
    rw [← rootWritten_writeView_rsp s .q va]
    refine ⟨fun k ⟨hpage, hwalk⟩ => ?_, fun pa ⟨hpage, hwalk, hbound⟩ => ?_⟩
    · rw [← hroot] at hwalk
      exact h.pageFault hg (fun hg => readWord_pageFault hg) ⟨hpage, hwalk⟩
    · rw [← hroot] at hwalk
      exact h.load_outOfBounds hg ⟨hpage, hwalk, hbound⟩

end Sys2Proof.Machine
end

section
/-! The walker's commands (spec/41_translation.md R450 to R461): what one level answers, what XLT comes to by the walk,
the bits of the composed address, and the one entry that PTWR sets. -/

namespace Sys2Proof.Machine

/-! ### One level -/

theorem presentBase_of_present {m : PageMap} {key base : Word} (h : PresentAt m key base) :
    presentBase m key = some base := by
  unfold PresentAt at h
  rw [presentBase, h]
  rfl

theorem presentBase_of_absent {m : PageMap} {key : Word} (h : AbsentAt m key) : presentBase m key = none := by
  unfold presentBase
  split
  next e he =>
    rw [h e he]
    rfl
  next => rfl

section

variable {pt : Vector PageMap 4} {k : Fin 4} {key : Word}

/-- A present entry hands its base to the next level (R452). -/
theorem walkLevels_of_present {base : Word} (h : PresentAt pt[k] key base) (ks : List (Fin 4)) :
    walkLevels pt (k :: ks) key = walkLevels pt ks base := by
  rw [walkLevels, presentBase_of_present h]

/-- The walk ends at a level whose entry is absent or not present (R452, R453). -/
theorem walkLevels_of_absent (h : AbsentAt pt[k] key) (ks : List (Fin 4)) : walkLevels pt (k :: ks) key = .error k := by
  rw [walkLevels, presentBase_of_absent h]

end

/-! ### XLT by its walk -/

section

variable {s : State} {r : Word} (va : Word)

theorem exec_xlt_of_page {ppn : Word} (h : walkLevels s.pt [0, 1, 2, 3] r = .ok ppn) :
    exec (.xlt va r) s = .next (s.respond .ok (compose ppn va)) := by
  have hwalk : walk s.pt va r = .ok (compose ppn va) := by
    rw [walk_eq, h]
    rfl
  rw [exec, execXlt, translateVa_ok hwalk]
  rfl

theorem exec_xlt_of_missing {k : Fin 4} (h : walkLevels s.pt [0, 1, 2, 3] r = .error k) :
    exec (.xlt va r) s = .next (s.respond .pageFault (BitVec.ofNat 64 (k.val + 1))) := by
  have hwalk : walk s.pt va r = .error k := by
    rw [walk_eq, h]
    rfl
  rw [exec, execXlt, translateVa, hwalk]
  rfl

end

/-! ### The composed address (R454) -/

theorem compose_eq_masked (ppn va : Word) :
    compose ppn va = ((ppn <<< 12) &&& 0x000FFFFFFFFFF000) ||| (va &&& 0xFFF) := by
  apply BitVec.eq_of_getLsbD_eq
  intro j hj
  rw [compose, getLsbD_withPageOffset _ _ hj, getLsbD_pageOffset _ hj, getLsbD_withPageNumber _ _ hj,
    BitVec.getLsbD_or, BitVec.getLsbD_and, BitVec.getLsbD_and, BitVec.getLsbD_shiftLeft, getLsbD_offsetMask j hj,
    show (0x000FFFFFFFFFF000 : Word).getLsbD j = _ from getLsbD_pnMask j hj]
  by_cases hlow : j < 12
  · simp [hlow]
  · by_cases hmid : j < 52
    · simp [hlow, hmid, hj, Nat.le_of_not_lt hlow]
    · simp [hlow, hmid]

theorem compose_pageNumber (ppn va : Word) : (compose ppn va).extractLsb' 12 40 = ppn.setWidth 40 := by
  apply BitVec.eq_of_toNat_eq
  rw [BitVec.extractLsb'_toNat, compose_toNat, BitVec.toNat_setWidth, Nat.shiftRight_eq_div_pow]
  omega

theorem compose_offset (ppn va : Word) : (compose ppn va).extractLsb' 0 12 = va.setWidth 12 := by
  apply BitVec.eq_of_toNat_eq
  rw [BitVec.extractLsb'_toNat, compose_toNat, BitVec.toNat_setWidth, Nat.shiftRight_eq_div_pow]
  omega

theorem compose_upper (ppn va : Word) : (compose ppn va).extractLsb' 52 12 = 0 := by
  have hlt := compose_lt ppn va
  apply BitVec.eq_of_toNat_eq
  rw [BitVec.extractLsb'_toNat, Nat.shiftRight_eq_div_pow, Nat.div_eq_of_lt hlt]
  rfl

/-- Of a virtual address only the page offset goes into the composed one (R456). -/
theorem compose_congr_offset {va va' : Word} (h : va.extractLsb' 0 12 = va'.extractLsb' 0 12) (ppn : Word) :
    compose ppn va = compose ppn va' := by
  rw [compose, compose, pageOffset_eq, pageOffset_eq, h]

/-! ### XLT -/

/-- Settles O11: the walk goes through the four present entries, and the composed address has the fields of R454. -/
theorem xltComposes : Obligations.XltComposes := by
  intro s va r b1 b2 b3 ppn h1 h2 h3 h4
  have hwalk : walkLevels s.pt [0, 1, 2, 3] r = .ok ppn := by
    rw [walkLevels_of_present h1, walkLevels_of_present h2, walkLevels_of_present h3, walkLevels_of_present h4,
      walkLevels]
  exact ⟨compose ppn va, exec_xlt_of_page va hwalk, compose_eq_masked ppn va, compose_pageNumber ppn va,
    compose_offset ppn va, compose_upper ppn va⟩

/-- Settles O12: the walk goes through the present entries before the first missing one and ends there. -/
theorem xltFaultsAtFirstMissingLevel : Obligations.XltFaultsAtFirstMissingLevel := by
  intro s va r b1 b2 b3
  refine ⟨fun h1 => ?_, fun h1 h2 => ?_, fun h1 h2 h3 => ?_, fun h1 h2 h3 h4 => ?_⟩
  · exact exec_xlt_of_missing va (walkLevels_of_absent h1 _)
  · have hwalk : walkLevels s.pt [0, 1, 2, 3] r = .error 1 := by
      rw [walkLevels_of_present h1, walkLevels_of_absent h2]
    exact exec_xlt_of_missing va hwalk
  · have hwalk : walkLevels s.pt [0, 1, 2, 3] r = .error 2 := by
      rw [walkLevels_of_present h1, walkLevels_of_present h2, walkLevels_of_absent h3]
    exact exec_xlt_of_missing va hwalk
  · have hwalk : walkLevels s.pt [0, 1, 2, 3] r = .error 3 := by
      rw [walkLevels_of_present h1, walkLevels_of_present h2, walkLevels_of_present h3, walkLevels_of_absent h4]
    exact exec_xlt_of_missing va hwalk

/-- Settles O13: which page the walk ends at, or which level is missing, is the root's alone. -/
theorem xltIgnoresPageNumber : Obligations.XltIgnoresPageNumber := by
  intro s va va' r h
  cases hwalk : walkLevels s.pt [0, 1, 2, 3] r with
  | ok ppn => rw [exec_xlt_of_page va hwalk, exec_xlt_of_page va' hwalk, compose_congr_offset h]
  | error k => rw [exec_xlt_of_missing va hwalk, exec_xlt_of_missing va' hwalk]

/-! ### PTWR -/

/-- The entry that a level holds for a key after one entry is set (R461). -/
theorem lookupKey_setPte (s : State) (k k' : Fin 4) (key : Word) (key' : Nat) (e : Pte) :
    lookupKey (s.setPte k key e).pt[k'] key' =
      if k' = k ∧ key' = key.toNat then some e else lookupKey s.pt[k'] key' := by
  rw [State.setPte_pt, getElem_set_fin]
  by_cases hk : k' = k
  · subst hk
    simp only [if_true, true_and]
    exact lookupKey_insertKey _ _ _ _
  · rw [if_neg hk, if_neg fun h => hk h.1]

/-- Settles O14: PTWR sets one entry, and a lookup elsewhere finds what it found before. -/
theorem ptwrReplacesOneEntry : Obligations.PtwrReplacesOneEntry := by
  intro s lvl a b present
  refine ⟨(s.setPte (levelOf lvl) a { present, base := b }).respond .ok 0, rfl, rfl, ?_, fun k key hne => ?_⟩
  · exact (lookupKey_setPte s (levelOf lvl) (levelOf lvl) a a.toNat _).trans (if_pos ⟨rfl, rfl⟩)
  · exact (lookupKey_setPte s (levelOf lvl) k a key _).trans
      (if_neg fun ⟨hk, hkey⟩ => hne ⟨congrArg Fin.val hk, hkey⟩)

end Sys2Proof.Machine
end

section
/-! What RWR leaves in the cell it writes and in the others (spec/42_regfile.md R503, R504, R506). -/

namespace Sys2Proof.Machine

/-- The view's bits of the written cell are the low bits of the value (R503). -/
theorem extractLsb'_viewWrite (v : View) (x value : Word) :
    (viewWrite v x value).extractLsb' (viewLo v) (viewWidth v) = value.setWidth (viewWidth v) := by
  have hwidth : viewWidth v ≤ 64 := by cases v <;> decide
  have hread := congrArg (BitVec.setWidth (viewWidth v)) (viewRead_viewWrite v x value)
  simpa only [viewRead, zext64, BitVec.setWidth_setWidth_of_le _ hwidth, BitVec.setWidth_eq] using hread

/-- Every bit outside the view is kept (R503). -/
theorem getLsbD_viewWrite_outside {v : View} {j : Nat} (hj : j < 64) (h : j < viewLo v ∨ viewLo v + viewWidth v ≤ j)
    (x value : Word) : (viewWrite v x value).getLsbD j = x.getLsbD j := by
  rw [getLsbD_viewWrite v x value j hj, if_neg (by omega)]

/-- A D view keeps bits 63 to 32 (R504). -/
theorem extractLsb'_viewWrite_d_upper (x value : Word) :
    (viewWrite .d x value).extractLsb' 32 32 = x.extractLsb' 32 32 := by
  apply BitVec.eq_of_getLsbD_eq
  intro j hj
  have hkept : (viewWrite .d x value).getLsbD (32 + j) = x.getLsbD (32 + j) :=
    getLsbD_viewWrite_outside (by omega) (.inr (Nat.le_add_right 32 j)) x value
  rw [BitVec.getLsbD_extractLsb', BitVec.getLsbD_extractLsb', hkept]

/-- RWR through a valid selector writes the view and completes (R503, R506). -/
theorem exec_rwr_of_view {cell : BitVec 4} {view : BitVec 3} {v : View} (hv : viewOfSel cell view = some v) (a : Word)
    (s : State) : exec (.rwr cell view a) s = .next ((s.writeView cell v a).respond .ok 0) := by
  simp only [exec, execRwr, writeReg_of_view hv]
  rfl

/-- Settles O17: RWR is `writeView`, whose cell and marks are known for the written cell and for every other. -/
theorem rwrWritesView : Obligations.RwrWritesView := by
  intro s cell view v a hv
  have hcell : (s.writeView cell v a).cell cell = viewWrite v (s.cell cell) a :=
    (cell_writeView s cell cell v a).trans (if_pos rfl)
  have hmarks : (s.writeView cell v a).marks cell = s.marks cell ||| viewLanes v :=
    (marks_writeView s cell cell v a).trans (if_pos rfl)
  have hothers : ∀ c ≠ cell, (s.writeView cell v a).cell c = s.cell c ∧ (s.writeView cell v a).marks c = s.marks c :=
    fun c hc => ⟨(cell_writeView s cell c v a).trans (if_neg hc), (marks_writeView s cell c v a).trans (if_neg hc)⟩
  refine ⟨_, exec_rwr_of_view hv a s, rfl, ?view, ?otherBits, ?marks, hothers, ?dView⟩
  case view => exact (congrArg _ hcell).trans (extractLsb'_viewWrite v (s.cell cell) a)
  case otherBits =>
    intro j hj hout
    exact (congrArg (·.getLsbD j) hcell).trans (getLsbD_viewWrite_outside hj hout _ _)
  case marks =>
    intro j hj
    rw [← getLsbD_viewLanes v j hj, ← BitVec.getLsbD_or]
    exact congrArg (·.getLsbD j) hmarks
  case dView =>
    rintro rfl
    have hlower : (viewWrite .d (s.cell cell) a).extractLsb' 0 32 = a.extractLsb' 0 32 :=
      (extractLsb'_viewWrite .d (s.cell cell) a).trans (BitVec.setWidth_eq_extractLsb' (by decide))
    exact ⟨(congrArg _ hcell).trans hlower, (congrArg _ hcell).trans (extractLsb'_viewWrite_d_upper _ _)⟩

end Sys2Proof.Machine
end

section
/-! The flag unit (spec/43_flags_alu.md R550 to R561): the flags of ADD and SUB as the pseudocode names them and as
integers, FRD and FCLR; and the engine's Add, Sub and Cmp (spec/46_engine.md R666 to R668), which come to a command of
the flag unit by reads alone and then advance. -/

namespace Sys2Proof.Machine

/-! ### The flags as integers (R561) -/

section

variable (a b : Word)

theorem addResult_cf_iff : (addResult a b).2.cf = true ↔ 2 ^ 64 ≤ a.toNat + b.toNat := by
  have hcf : (addResult a b).2.cf = decide ((a + b).toNat < b.toNat) := rfl
  rw [hcf, decide_eq_true_iff, BitVec.toNat_add]
  omega

theorem subResult_cf_iff : (subResult a b).2.cf = true ↔ a.toNat < b.toNat := by
  have hcf : (subResult a b).2.cf = decide (a.toNat < (a - b).toNat) := rfl
  rw [hcf, decide_eq_true_iff, BitVec.toNat_sub]
  omega

theorem subResult_zf_iff : (subResult a b).2.zf = true ↔ a = b :=
  beq_iff_eq.trans sub_eq_zero

/-- The signs that OF compares are those of a signed overflow. -/
theorem addResult_ovf : (addResult a b).2.ovf = a.saddOverflow b :=
  (BitVec.saddOverflow_eq a b).symm

theorem subResult_ovf : (subResult a b).2.ovf = a.ssubOverflow b := by
  have hovf : (subResult a b).2.ovf = (a.msb != b.msb && (a - b).msb != a.msb) := rfl
  rw [hovf, BitVec.ssubOverflow_eq]
  cases a.msb <;> cases b.msb <;> cases (a - b).msb <;> rfl

theorem saddOverflow_iff :
    a.saddOverflow b = true ↔ ¬(-(2 ^ 63) ≤ a.toInt + b.toInt ∧ a.toInt + b.toInt ≤ 2 ^ 63 - 1) := by
  simp only [BitVec.saddOverflow, Bool.or_eq_true, decide_eq_true_iff]
  omega

theorem ssubOverflow_iff :
    a.ssubOverflow b = true ↔ ¬(-(2 ^ 63) ≤ a.toInt - b.toInt ∧ a.toInt - b.toInt ≤ 2 ^ 63 - 1) := by
  simp only [BitVec.ssubOverflow, Bool.or_eq_true, decide_eq_true_iff]
  omega

/-- Just where the difference overflows, the result has the wrong sign. -/
theorem subResult_sf_ne_ovf_iff : (subResult a b).2.sf ≠ (subResult a b).2.ovf ↔ a.toInt < b.toInt := by
  have hsf : (subResult a b).2.sf = (a - b).msb := rfl
  rw [hsf, subResult_ovf]
  by_cases h : a.ssubOverflow b = true
  · -- the operands' signs differ, and the result has the sign of b
    have hsigns : (0 ≤ a.toInt ∧ b.toInt < 0) ∧ (a - b).msb = true ∨
        (a.toInt < 0 ∧ 0 ≤ b.toInt) ∧ (a - b).msb = false := by
      rw [BitVec.ssubOverflow_eq] at h
      simpa [BitVec.msb_eq_toInt (x := a), BitVec.msb_eq_toInt (x := b)] using h
    rw [h]
    rcases hsigns with ⟨hab, hr⟩ | ⟨hab, hr⟩
    · simp only [hr, ne_eq, not_true, false_iff]
      omega
    · simp only [hr, ne_eq, Bool.false_eq_true, not_false_iff, true_iff]
      omega
  · -- the result is the difference itself
    rw [BitVec.msb_eq_toInt, BitVec.toInt_sub_of_not_ssubOverflow h, eq_false_of_ne_true h, ne_eq,
      decide_eq_false_iff_not, not_not]
    omega

end

/-- Settles O20: CF by the wrapped sum and difference, OF as signed overflow, and SF against OF as the order. -/
theorem flagsAreExact : Obligations.FlagsAreExact := fun _ a b =>
  ⟨_, _, _, rfl, rfl, rfl, addResult_cf_iff a b, addResult_ovf a b ▸ saddOverflow_iff a b, subResult_cf_iff a b,
    subResult_ovf a b ▸ ssubOverflow_iff a b, subResult_zf_iff a b, subResult_zf_iff a b, subResult_sf_ne_ovf_iff a b⟩

/-! ### The engine's Add, Sub and Cmp -/

theorem State.viewWritten_of_view (s : State) {cell : BitVec 4} {view : BitVec 3} {v : View}
    (h : viewOfSel cell view = some v) : s.viewWritten cell view = s.laneWritten cell v := by
  rw [State.viewWritten, h]

/-- Reads leave a word in bounds as it was to the client. -/
theorem Accesses.effWord {s t : State} (h : Accesses s t 0 0) {va pa : Word} (hpa : s.wordAddr va = some pa) :
    t.effWord pa = s.effWord pa := by
  obtain ⟨_, hb, _⟩ := bytes_of_wordAddr hpa
  rw [← wordFrom_eight, ← wordFrom_eight]
  refine wordFrom_congr fun j hj₁ hj₂ => (h.kept _ ?_ (by omega)).1
  rw [hb.addr j hj₁ hj₂]
  exact hb.bound j hj₁ hj₂

/-- The state after the generic advance (R652). -/
def State.nextSlot (s : State) : State := { s.noteRead s.ripWr with rip := s.rip + 0x40, ripWr := true }

theorem advance_eq_nextSlot {s : State} (hg : s.gaps = []) : advance s = .ok () s.nextSlot := advance_ok hg

section

variable {s : State} (hi : s.Inv) (hc : s.Coherent) (hg : s.gaps = [])

include hi hc hg

/-- The register forms of Add and Sub read both operands, and then only the command, the write and the advance are left
(R654, R666, R667). -/
theorem aluToRegister_reads {x : Source} {cell : BitVec 4} {view : BitVec 3} {v : View} {a b : Word}
    (hv : viewOfSel cell view = some v) (hb : s.sourceValue x = some b) (ha : s.regValue cell view = some a)
    (op : Word → Word → State → Res Word) :
    ∃ u, Accesses (s.noteRead (s.sourceWritten x && s.laneWritten cell v)) u 0 0 ∧
      ((∀ e, x ≠ .mem e) → u.cache = s.cache ∧ u.mem = s.mem) ∧
      aluToRegister op x cell view s =
        (op a b u).bind fun r t => (issue (writeReg cell view r) t).bind fun _ t => advance t := by
  obtain ⟨r, hr, hval⟩ := source_ok hi hc hg hb
  obtain ⟨u, hu, hacc, hpure⟩ := hval (s.resolveWritten x && s.laneWritten cell v)
  rw [Bool.and_right_comm, State.resolve_and_value] at hacc
  refine ⟨u, hacc, fun hx => ?_, ?_⟩
  · rw [hpure hx]
    exact ⟨rfl, rfl⟩
  · rw [aluToRegister, resolveSource_ok hg hr, Res.ok_bind, issue_nil (s := s.noteRead _) hg,
      readReg_of_value (s := s.noteRead _) ha, Res.ok_bind, State.noteRead_noteRead, State.noteRead_viewWritten,
      s.viewWritten_of_view hv, hu, Res.ok_bind, issue_nil (hacc.frame.gaps.trans hg)]

/-- With a command of the flag unit that answers and sets `r`, the register forms complete (R666, R667). -/
theorem aluToRegister_completes {x : Source} {cell : BitVec 4} {view : BitVec 3} {v : View} {a b : Word}
    (hv : viewOfSel cell view = some v) (hb : s.sourceValue x = some b) (ha : s.regValue cell view = some a)
    {op : Word → Word → State → Res Word} {r : Word × Flags} (hop : ∀ u, op a b u = .ok r.1 (u.setFlags r.2)) :
    ∃ t, endEngine (aluToRegister op x cell view s) = .next t ∧
      t = { (s.noteRead (s.sourceWritten x && s.laneWritten cell v && s.ripWr)).writeView cell v r.1 with
        flags := r.2, rip := s.rip + 0x40, ripWr := true, cache := t.cache, mem := t.mem } ∧
      MemoryKept s t 0 0 ∧ ((∀ e, x ≠ .mem e) → t.cache = s.cache ∧ t.mem = s.mem) := by
  obtain ⟨u, hacc, hpure, hu⟩ := aluToRegister_reads hi hc hg hv hb ha op
  have hgu : u.gaps = [] := hacc.frame.gaps.trans hg
  refine ⟨((u.setFlags r.2).writeView cell v r.1).nextSlot, ?_, ?_, hacc.kept, hpure⟩
  · rw [hu, hop, Res.ok_bind, issue_nil (s := u.setFlags r.2) hgu, writeReg_of_view hv, Res.ok_bind,
      advance_eq_nextSlot (s := (u.setFlags r.2).writeView cell v r.1) hgu, endEngine]
  · obtain ⟨c, m, rfl⟩ := hacc.frame.exists_eq
    rw [← State.noteRead_noteRead _ _ s.ripWr]
    rfl

/-- Cmp reads the value of src and then the word at dst (R668). -/
theorem exec_cmp_of_values {src dst : Operand} {x : Source} {e : AddrExpr} {a b : Word} (hsrc : asSource src = some x)
    (hdst : asDest dst = some (.mem e)) (hb : s.sourceValue x = some b) (ha : s.wordValue (s.ea e) = some a) :
    ∃ u, Accesses (s.noteRead (s.sourceWritten x && s.eaWritten e && s.rootWritten)) u 0 0 ∧
      exec (.cmp src dst) s = endEngine (advance (u.setFlags (subResult a b).2)) := by
  obtain ⟨t, ht, hthen⟩ := source_and_address_then hi hc hg hb e
  obtain ⟨pa, hpa, rfl⟩ := Option.map_eq_some_iff.1 ha
  obtain ⟨u, hu, hacc⟩ := readWord_ok ht.inv ht.coherent (ht.frame.gaps.trans hg) ((ht.frame.wordAddr _).trans hpa)
  have hgu : u.gaps = [] := hacc.frame.gaps.trans (ht.frame.gaps.trans hg)
  have hroot : t.rootWritten = s.rootWritten := ht.frame.rootWritten
  have hword : t.effWord pa = s.effWord pa := ht.effWord hpa
  refine ⟨u, hroot ▸ ht.trans_noted hacc, ?_⟩
  simp only [exec, execCmp, hsrc, asMemory_of_asDest hdst, hthen, hu, Res.ok_bind, issue_nil hgu, aluCmp, hword]

end

/-- Settles O39: both read their operands, run their command of the flag unit and write its result. -/
theorem addSubToRegister : Obligations.AddSubToRegister := by
  intro s s' src x cell view v a b hi hc hg hsrc hv hb ha hs'
  subst hs'
  refine ⟨?_, ?_⟩
  · simp only [exec, execAdd, hsrc, asRegister]
    exact aluToRegister_completes hi hc hg hv hb ha (r := addResult a b) fun _ => rfl
  · simp only [exec, execSub, hsrc, asRegister]
    exact aluToRegister_completes hi hc hg hv hb ha (r := subResult a b) fun _ => rfl

/-- Settles O40: after the reads only the flags and rip change. -/
theorem cmpSetsFlags : Obligations.CmpSetsFlags := by
  intro s src dst x e a b hi hc hg hsrc hdst hb ha
  obtain ⟨u, hacc, hu⟩ := exec_cmp_of_values hi hc hg hsrc hdst hb ha
  refine ⟨(u.setFlags (subResult a b).2).nextSlot, ?_, ?_, hacc.kept⟩
  · rw [hu, advance_eq_nextSlot (s := u.setFlags (subResult a b).2) (hacc.frame.gaps.trans hg), endEngine]
  · obtain ⟨c, m, rfl⟩ := hacc.frame.exists_eq
    rw [← State.noteRead_noteRead _ _ s.ripWr]
    rfl

/-! ### The flags as the pseudocode names them (R551, R552) -/

theorem addResult_flags (a b : Word) : (addResult a b).2 =
    { cf := decide ((a + b).toNat < b.toNat), zf := decide (a + b = 0), sf := (a + b).getLsbD 63
      ovf := decide (a.getLsbD 63 = b.getLsbD 63 ∧ (a + b).getLsbD 63 ≠ a.getLsbD 63) } := by
  simp only [ne_eq, Bool.decide_and, decide_not]
  rfl

theorem subResult_flags (a b : Word) : (subResult a b).2 =
    { cf := decide (a.toNat < (a - b).toNat), zf := decide (a - b = 0), sf := (a - b).getLsbD 63
      ovf := decide (a.getLsbD 63 ≠ b.getLsbD 63 ∧ (a - b).getLsbD 63 ≠ a.getLsbD 63) } := by
  simp only [ne_eq, Bool.decide_and, decide_not]
  rfl

/-- Settles O19: each command sets the flags of its result and answers it, CMP with the result discarded. -/
theorem flagUnitComputes : Obligations.FlagUnitComputes := by
  intro s a b
  rw [← addResult_flags, ← subResult_flags]
  exact ⟨rfl, rfl, rfl⟩

/-! ### FRD and FCLR -/

/-- The flags' places in FRD's word (R554). -/
theorem packFlags_bits (f : Flags) : (packFlags f).getLsbD 0 = f.cf ∧ (packFlags f).getLsbD 1 = f.zf ∧
    (packFlags f).getLsbD 2 = f.sf ∧ (packFlags f).getLsbD 3 = f.ovf ∧ (packFlags f).toNat < 16 := by
  obtain ⟨cf, zf, sf, ovf⟩ := f
  revert cf zf sf ovf
  decide

/-- Settles O21: FRD answers `packFlags`, FCLR stores `Flags.clear`. -/
theorem flagsReadAndClear : Obligations.FlagsReadAndClear := fun s =>
  ⟨⟨packFlags s.flags, rfl, packFlags_bits s.flags⟩, rfl⟩

end Sys2Proof.Machine
end

section
/-! The refusals of the word port (spec/44_store_port.md R600): what its check answers for a misaligned address and for
an aligned one out of bounds, and that both commands end with the error of the check. -/

namespace Sys2Proof.Machine

theorem wordPortCheck_misaligned {s : State} {a : Word} (ha : a.toNat % 8 ≠ 0) :
    wordPortCheck a s = .err .misaligned a s := by
  rw [wordPortCheck, if_pos ha]

theorem wordPortCheck_outOfBounds {s : State} {a : Word} (ha : a.toNat % 8 = 0)
    (hb : s.params.memSize < a.toNat + 8) : wordPortCheck a s = .err .outOfBounds a s := by
  rw [wordPortCheck, if_neg (not_not_intro ha), if_pos hb]

/-- An error of the check is the answer of both commands: neither goes on to the store (R600, R704). -/
theorem exec_wordPort_of_err {s t : State} {a v : Word} {e : Status} (h : wordPortCheck a s = .err e v t) (b : Word) :
    exec (.brd64 a) s = .next (t.respond e v) ∧ exec (.bwr64 a b) s = .next (t.respond e v) := by
  simp only [exec, execBrd64, execBwr64, h, Res.bind, endCommand, and_self]

/-- Settles O25: each clause is one error of the check, and the check meets misalignment first. -/
theorem wordPortChecks : Obligations.WordPortChecks := fun _ _ b =>
  ⟨fun ha => exec_wordPort_of_err (wordPortCheck_misaligned ha) b,
    fun ha hb => exec_wordPort_of_err (wordPortCheck_outOfBounds ha hb) b⟩

end Sys2Proof.Machine
end

section
/-! The engine's opcodes where they complete with no request of the host inside (spec/46_engine.md R652, R655, R656,
R660 to R665, R669, R670): word accesses once the reads are done, the register writes, and what each opcode leaves. -/

namespace Sys2Proof.Machine

/-! ### Writes of views -/

/-- A second write of the whole cell is the one that counts (R503). -/
theorem writeView_writeView_q (s : State) (c : BitVec 4) (x y : Word) :
    (s.writeView c .q x).writeView c .q y = s.writeView c .q y := by
  simp [State.writeView, State.setCell, State.cell, State.marks, viewWrite_q, BitVec.or_assoc]

/-- Writes of different cells commute (R503). -/
theorem writeView_comm (s : State) {c c' : BitVec 4} (h : c ≠ c') (v v' : View) (x y : Word) :
    (s.writeView c v x).writeView c' v' y = (s.writeView c' v' y).writeView c v x := by
  have hne : c.toNat ≠ c'.toNat := fun heq => h (BitVec.eq_of_toNat_eq heq)
  have hcell : (s.writeView c v x).cell c' = s.cell c' := by rw [cell_writeView, if_neg h.symm]
  have hcell' : (s.writeView c' v' y).cell c = s.cell c := by rw [cell_writeView, if_neg h]
  have hmarks : (s.writeView c v x).marks c' = s.marks c' := by rw [marks_writeView, if_neg h.symm]
  have hmarks' : (s.writeView c' v' y).marks c = s.marks c := by rw [marks_writeView, if_neg h]
  unfold State.writeView at *
  rw [hcell, hcell', hmarks, hmarks']
  simp only [State.setCell, Vector.set_comm _ _ hne]

/-! ### After reads -/

/-- FCLR and the generic advance (R652). -/
theorem clearAndAdvance_eq_nextSlot {s : State} (hg : s.gaps = []) :
    clearAndAdvance s = .ok () (s.setFlags Flags.clear).nextSlot := clearAndAdvance_ok hg

section

variable {s u : State} {w : Bool} (h : Accesses (s.noteRead w) u 0 0) (hg : s.gaps = []) {va pa value : Word}

include h hg

/-- A load after reads gives the word that the client saw before them (R655). -/
theorem readWord_after (hv : s.wordValue va = some value) :
    ∃ t, readWord va u = .ok value t ∧ Accesses (s.noteRead (w && s.rootWritten)) t 0 0 := by
  obtain ⟨pa, hpa, rfl⟩ := Option.map_eq_some_iff.1 hv
  obtain ⟨t, ht, hacc⟩ := readWord_ok h.inv h.coherent (h.frame.gaps.trans hg) ((h.frame.wordAddr va).trans hpa)
  have hroot : u.rootWritten = s.rootWritten := h.frame.rootWritten
  have hword : u.effWord pa = s.effWord pa := h.effWord hpa
  exact ⟨t, by rw [ht, hword], hroot ▸ h.trans_noted hacc⟩

/-- A store after reads stores where it would have before them (R655). -/
theorem writeWord_after (hpa : s.wordAddr va = some pa) (v : Word) :
    ∃ t, writeWord va v u = .ok () t ∧ Accesses (s.noteRead (w && s.rootWritten)) t pa.toNat 8 ∧
      WordStored t pa v := by
  obtain ⟨t, ht, hacc, hst⟩ :=
    writeWord_ok h.inv h.coherent (h.frame.gaps.trans hg) v ((h.frame.wordAddr va).trans hpa)
  have hroot : u.rootWritten = s.rootWritten := h.frame.rootWritten
  exact ⟨t, ht, hroot ▸ h.trans_noted hacc, hst⟩

/-- A push after reads stores below the stack pointer and moves the pointer there (R661, R664). -/
theorem pushWord_after (hpa : s.wordAddr (s.cell rspCell - 8) = some pa) (v : Word) :
    ∃ t, pushWord v u = .ok () (t.writeView rspCell .q (s.cell rspCell - 8)) ∧
      Accesses (s.noteRead (w && s.laneWritten rspCell .q && s.rootWritten)) t pa.toNat 8 ∧ WordStored t pa v := by
  have hcell : u.cell rspCell = s.cell rspCell := h.frame.cell rspCell
  have hlane : u.laneWritten rspCell .q = s.laneWritten rspCell .q := h.frame.laneWritten rspCell .q
  have hgu : u.gaps = [] := h.frame.gaps.trans hg
  obtain ⟨t, ht, hacc, hst⟩ := writeWord_after (h.noted (s.laneWritten rspCell .q)) hg hpa v
  refine ⟨t, ?_, hacc, hst⟩
  rw [pushWord_eq hgu (va := s.cell rspCell - 8) (by rw [hcell, BitVec.sub_add_cancel]), hlane, ht, Res.ok_bind,
    issue_nil (hacc.frame.gaps.trans hg), writeReg_of_view (viewOfSel_q _)]

end

section

variable {s : State} (hi : s.Inv) (hc : s.Coherent) (hg : s.gaps = [])

include hi hc hg

/-- Pop's body loads the word at the stack pointer, writes the view and adds 8 to rsp as it then stands; its second read
of rsp finds no lane unwritten that the first did not (R662). -/
theorem popInto_ok {cell : BitVec 4} {view : BitVec 3} {v : View} {value : Word} (hv : viewOfSel cell view = some v)
    (hw : s.wordValue (s.cell rspCell) = some value) :
    ∃ t, Accesses (s.noteRead (s.laneWritten rspCell .q && s.rootWritten)) t 0 0 ∧
      popInto cell view s = .ok () ((t.writeView cell v value).writeView rspCell .q
        ((s.writeView cell v value).cell rspCell + 8)) := by
  obtain ⟨t, ht, hacc⟩ := readWord_after
    (.refl (hi.noteRead (s.laneWritten rspCell .q)) (hc.noteRead _) 0) hg hw
  have hgt : t.gaps = [] := hacc.frame.gaps.trans hg
  have hnote : (t.writeView cell v value).noteRead ((t.writeView cell v value).laneWritten rspCell .q) =
      t.writeView cell v value := by
    cases hlane : s.laneWritten rspCell .q with
    | true =>
      have hlane' : t.laneWritten rspCell .q = true := (hacc.frame.laneWritten rspCell .q).trans hlane
      rw [laneWritten_writeView_of _ _ _ _ _ _ hlane', State.noteRead_true]
    | false =>
      have hunwritten : t.unwritten = true := by
        rw [hacc.frame.unwritten, hlane]
        simp
      exact State.noteRead_of_unwritten (s := t.writeView cell v value) hunwritten _
  have hcell : (t.writeView cell v value).cell rspCell = (s.writeView cell v value).cell rspCell := by
    obtain ⟨c, m, rfl⟩ := hacc.frame.exists_eq
    rfl
  refine ⟨t, hacc, ?_⟩
  rw [popInto_eq hg, ht, Res.ok_bind, issue_nil hgt, writeReg_of_view hv, Res.ok_bind,
    issue_nil (s := t.writeView cell v value) hgt, readReg_q, Res.ok_bind, hnote, hcell,
    issue_nil (s := t.writeView cell v value) hgt, writeReg_of_view (viewOfSel_q _)]

/-! ### Mov -/

/-- Mov into a register leaves the store and the cache alone where its source is no word of memory (R660). -/
theorem movToRegister_ok {x : Source} {cell : BitVec 4} {view : BitVec 3} {v : View} {value : Word}
    (hv : viewOfSel cell view = some v) (hx : s.sourceValue x = some value) :
    ∃ u, Accesses (s.noteRead (s.sourceWritten x)) u 0 0 ∧
      ((∀ e, x ≠ .mem e) → u.cache = s.cache ∧ u.mem = s.mem) ∧
      movToRegister x cell view s = .ok () ((u.writeView cell v value).setFlags Flags.clear).nextSlot := by
  obtain ⟨r, hr, hval⟩ := source_ok hi hc hg hx
  obtain ⟨u, hu, hacc, hpure⟩ := hval (s.resolveWritten x)
  rw [State.resolve_and_value] at hacc
  have hgu : u.gaps = [] := hacc.frame.gaps.trans hg
  refine ⟨u, hacc, fun hne => ?_, ?_⟩
  · rw [hpure hne]
    exact ⟨rfl, rfl⟩
  · rw [movToRegister, resolveSource_ok hg hr, Res.ok_bind, hu, Res.ok_bind, issue_nil hgu, writeReg_of_view hv,
      Res.ok_bind, clearAndAdvance_eq_nextSlot (s := u.writeView cell v value) hgu]

end

/-- Mov into memory stores the value once both addresses are fixed and the value is read (R654, R660). -/
theorem movToMemory_ok {s : State} (hi : s.Inv) (hc : s.Coherent) (hg : s.gaps = []) {x : Source} {e : AddrExpr}
    {value pa : Word} (hx : s.sourceValue x = some value) (hpa : s.wordAddr (s.ea e) = some pa) :
    ∃ u, Accesses (s.noteRead (s.sourceWritten x && s.eaWritten e && s.rootWritten)) u pa.toNat 8 ∧
      WordStored u pa value ∧ movToMemory x e s = .ok () (u.setFlags Flags.clear).nextSlot := by
  obtain ⟨t, ht, hthen⟩ := source_and_address_then hi hc hg hx e
  obtain ⟨u, hu, hacc, hst⟩ := writeWord_after ht hg hpa value
  refine ⟨u, hacc, hst, ?_⟩
  rw [movToMemory, hthen, hu, Res.ok_bind, clearAndAdvance_eq_nextSlot (hacc.frame.gaps.trans hg)]

/-! ### Push and Call -/

/-- Settles O34: the value is read, the push made, and the advance does the rest. -/
theorem pushStores : Obligations.PushStores := by
  intro s src x value pa hi hc hg hsrc hx hpa
  obtain ⟨t, ht, hthen⟩ := source_then hi hc hg hx
  obtain ⟨u, hu, hacc, hst⟩ := pushWord_after ht hg hpa value
  have hgu : u.gaps = [] := hacc.frame.gaps.trans hg
  refine ⟨((u.writeView rspCell .q (s.cell rspCell - 8)).setFlags Flags.clear).nextSlot, ?_, ?_, hst, hacc.kept⟩
  · simp only [exec, execPush, hsrc, hthen, hu, Res.ok_bind,
      clearAndAdvance_eq_nextSlot (s := u.writeView rspCell .q (s.cell rspCell - 8)) hgu, endEngine]
  · obtain ⟨c, m, rfl⟩ := hacc.frame.exists_eq
    rw [← State.noteRead_noteRead _ _ s.ripWr]
    rfl

/-- Settles O37: target and rip are read, the next slot's address is pushed, and rip is written. -/
theorem callStoresReturn : Obligations.CallStoresReturn := by
  intro s src x target pa hi hc hg hsrc hx hpa
  obtain ⟨u, hu, hacc, hst⟩ := pushWord_after
    (.refl (hi.noteRead (s.targetWritten x && s.ripWr)) (hc.noteRead _) 0) hg hpa (s.rip + 0x40)
  have hgu : u.gaps = [] := hacc.frame.gaps.trans hg
  refine ⟨((u.writeView rspCell .q (s.cell rspCell - 8)).setRip target).setFlags Flags.clear, ?_, ?_, hst, hacc.kept⟩
  · simp only [exec, execCall, hsrc, targetOf_ok hg hx, Res.ok_bind, issue_nil (s := s.noteRead _) hg, readRip,
      State.noteRead_noteRead, State.noteRead_rip, State.noteRead_ripWr, slot, hu,
      issue_nil (s := u.writeView _ _ _) hgu, writeRip, issue_nil (s := (u.writeView _ _ _).setRip _) hgu, clearFlags,
      endEngine]
  · obtain ⟨c, m, rfl⟩ := hacc.frame.exists_eq
    rfl

/-! ### Pop, Leave and Ret -/

/-- Settles O35: Pop's body, then the advance. -/
theorem popLoads : Obligations.PopLoads := by
  intro s u cell view v value hi hc hg hv hw hu
  subst hu
  obtain ⟨t, hacc, hpop⟩ := popInto_ok hi hc hg hv hw
  have hgt : t.gaps = [] := hacc.frame.gaps.trans hg
  refine ⟨(((t.writeView cell v value).writeView rspCell .q ((s.writeView cell v value).cell rspCell + 8)).setFlags
    Flags.clear).nextSlot, ?_, ?_, hacc.kept, fun hne => ?_, fun heq hq => ?_⟩
  · simp only [exec, execPop, asRegister, hpop, Res.ok_bind,
      clearAndAdvance_eq_nextSlot (s := (t.writeView _ _ _).writeView _ _ _) hgt, endEngine]
  · obtain ⟨c, m, rfl⟩ := hacc.frame.exists_eq
    rw [← State.noteRead_noteRead _ _ s.ripWr]
    rfl
  · rw [cell_writeView, if_neg (Ne.symm hne), State.noteRead_cell]
  · subst heq hq
    exact cell_writeView_q _ _ _

/-- The root is not in rsp, so that every word reads as before a write of it (R651, R655). -/
theorem wordValue_writeView_rsp (s : State) (v : View) (x va : Word) :
    (s.writeView rspCell v x).wordValue va = s.wordValue va := by
  have hroot := rootKey_writeView_rsp s v x
  unfold State.wordValue State.wordAddr
  rw [hroot]
  rfl

/-- Leave's pop, rsp already moved to rbp: its write of rsp takes the place of the first (R663). -/
theorem popInto_rbp_of_moved {s : State} (hi : s.Inv) (hc : s.Coherent) (hg : s.gaps = []) {sp value : Word}
    (hw : s.wordValue sp = some value) :
    ∃ t, SameButMemory (s.noteRead s.rootWritten) t ∧ MemoryKept s t 0 0 ∧
      popInto rbpCell qView (s.writeView rspCell .q sp) =
        .ok () ((t.writeView rspCell .q (sp + 8)).writeView rbpCell .q value) := by
  have hspares := sparesMemory_writeView rspCell .q sp
  have hword : (s.writeView rspCell .q sp).wordValue ((s.writeView rspCell .q sp).cell rspCell) = some value := by
    rw [cell_writeView_q, wordValue_writeView_rsp, hw]
  obtain ⟨u, hacc, hpop⟩ := popInto_ok (hspares.inv hi) (hspares.coherent hc) hg (viewOfSel_q rbpCell) hword
  rw [laneWritten_writeView, rootWritten_writeView_rsp, Bool.true_and] at hacc
  obtain ⟨c, m, rfl⟩ := hacc.frame.exists_eq
  refine ⟨{ s.noteRead s.rootWritten with cache := c, mem := m }, rfl, hacc.kept, ?_⟩
  rw [hpop, cell_writeView, if_neg (by decide), cell_writeView_q, writeView_comm _ (by decide)]
  congr 2
  exact writeView_writeView_q { s.noteRead s.rootWritten with cache := c, mem := m } rspCell sp (sp + 8)

/-- Settles O36: rsp is set to rbp, Leave pops into rbp, and the advance does the rest. -/
theorem leaveUnwinds : Obligations.LeaveUnwinds := by
  intro s value hi hc hg hw
  obtain ⟨t, hframe, hkept, hpop⟩ := popInto_rbp_of_moved (hi.noteRead (s.laneWritten rbpCell .q))
    (hc.noteRead _) hg hw
  have hgt : t.gaps = [] := hframe.gaps.trans hg
  refine ⟨(((t.writeView rspCell .q (s.cell rbpCell + 8)).writeView rbpCell .q value).setFlags
    Flags.clear).nextSlot, ?_, ?_, hkept⟩
  · simp only [exec, execLeave, issue_nil hg, readReg_q, Res.ok_bind, issue_nil (s := s.noteRead _) hg,
      writeReg_of_view (viewOfSel_q _), hpop,
      clearAndAdvance_eq_nextSlot (s := (t.writeView _ _ _).writeView _ _ _) hgt, endEngine]
  · obtain ⟨c, m, rfl⟩ := hframe.exists_eq
    rw [← State.noteRead_noteRead _ _ s.ripWr, ← State.noteRead_noteRead _ _ s.rootWritten]
    rfl

/-- Settles O38: the word is read, and rip and rsp are written. -/
theorem retReturns : Obligations.RetReturns := by
  intro s ra hi hc hg hw
  obtain ⟨u, hu, hacc⟩ := readWord_after
    (.refl (hi.noteRead (s.laneWritten rspCell .q)) (hc.noteRead _) 0) hg hw
  have hgu : u.gaps = [] := hacc.frame.gaps.trans hg
  refine ⟨((u.setRip ra).writeView rspCell .q (s.cell rspCell + 8)).setFlags Flags.clear, ?_, ?_, hacc.kept⟩
  · simp only [exec, execRet, issue_nil hg, readReg_q, Res.ok_bind, hu, issue_nil hgu, writeRip,
      issue_nil (s := u.setRip ra) hgu, writeReg_of_view (viewOfSel_q _),
      issue_nil (s := (u.setRip ra).writeView _ _ _) hgu, clearFlags, endEngine]
  · obtain ⟨c, m, rfl⟩ := hacc.frame.exists_eq
    rfl

/-! ### Jne and Jmp -/

/-- Settles O41: the target is read first; the branch of Jne is ZF's. -/
theorem jumpsTransfer : Obligations.JumpsTransfer := by
  intro s src x target hg hsrc hx
  have htarget := targetOf_ok hg hx
  have hgt : (s.noteRead (s.targetWritten x)).gaps = [] := hg
  refine ⟨fun hzf => ?_, fun hzf => ?_, ?_⟩
  · simp only [exec, execJne, hsrc, htarget, Res.ok_bind, issue_nil hgt, readFlags, State.noteRead_flags, hzf]
    rfl
  · simp only [exec, execJne, hsrc, htarget, Res.ok_bind, issue_nil hgt, readFlags, State.noteRead_flags, hzf, if_true,
      advance_eq_nextSlot hgt, endEngine, State.nextSlot, State.noteRead_noteRead]
    rfl
  · simp only [exec, execJmp, hsrc, htarget, Res.ok_bind, issue_nil hgt, writeRip,
      issue_nil (s := (s.noteRead _).setRip _) hgt]
    rfl

end Sys2Proof.Machine
end

section
/-! Steps that complete no engine instruction (spec/46_engine.md R650, R655, R657, R671): a word that crosses its page,
operand kinds that no rule admits, and a run's launch, its end and its idle turns. -/

namespace Sys2Proof.Machine

/-! ### PageCrossingWord -/

/-- An access that is refused once reads are done ends the instruction, with the record of those reads (R655). -/
theorem Reaches.refused {α : Type} {i : Instr} {s s' : State} {w : Bool} {f : State → Res α} (h : Reaches i s s' w f)
    (hf : ∀ u, f u = .refused (.pageCrossingWord u.unwritten)) : exec i s = s'.pageCrossing w := by
  obtain ⟨u, hu, next, hexec⟩ := h
  rw [hexec, hf, State.pageCrossing, ← hu.frame.unwritten]
  rfl

/-- Settles O44: each opcode comes to its access by reads alone, and the access is refused. -/
theorem pageCrossingRefused : Obligations.PageCrossingRefused := by
  intro s src dst va hi hc hg hva
  have hload := readWord_crossing hva
  have hstore := writeWord_crossing hva
  refine ⟨fun hsp cell view => ?_, fun hbp => ?_, fun e hsrc he => ?_, fun x hsrc hx => ?_, fun x hsrc hx hsp => ?_⟩
  · subst hsp
    exact ⟨(pop_reaches_load hi hc hg cell view).refused hload, (ret_reaches_load hi hc hg).refused hload⟩
  · subst hbp
    exact (leave_reaches_load hi hc hg).refused hload
  · subst he
    refine ⟨(push_reaches_load hi hc hg hsrc).refused hload, fun cell view =>
      ⟨(movToRegister_reaches_load hi hc hg hsrc cell view).refused hload, fun hv => ⟨?_, ?_⟩⟩, fun e' hdst => ⟨?_, ?_⟩⟩
    · exact (alu_reaches_load hi hc hg hsrc hv (.inl rfl)).refused hload
    · exact (alu_reaches_load hi hc hg hsrc hv (.inr rfl)).refused hload
    · exact (memDest_reaches_load hi hc hg hsrc hdst (.inl rfl)).refused hload
    · exact (memDest_reaches_load hi hc hg hsrc hdst (.inr rfl)).refused hload
  · obtain ⟨v, hv⟩ := Option.ne_none_iff_exists'.1 hx
    refine ⟨fun hsp => (push_reaches_store hi hc hg hsrc hv hsp).refused (hstore v), fun e hdst he => ?_⟩
    subst he
    exact ⟨(mov_reaches_store hi hc hg hsrc hv hdst).refused (hstore v),
      (cmp_reaches_load hi hc hg hsrc hx hdst).refused hload⟩
  · exact (call_reaches_store hi hc hg hsrc hx hsp).refused (hstore _)

/-! ### Operand kinds -/

theorem isValue_of_asSource {o : Operand} {x : Source} (h : asSource o = some x) : o.isValue = true := by
  cases o with
  | empty => cases h
  | imm | reg | memDirect | memIndirect => rfl

theorem isTarget_of_asTarget {o : Operand} {x : Target} (h : asTarget o = some x) : o.isTarget = true := by
  cases o with
  | empty | memIndirect => cases h
  | imm | reg | memDirect => rfl

theorem isRegister_of_asRegister {o : Operand} {r : BitVec 4 × BitVec 3} (h : asRegister o = some r) :
    o.isRegister = true := by
  cases o with
  | empty | imm | memDirect | memIndirect => cases h
  | reg => rfl

theorem isMemory_of_asMemory {o : Operand} {e : AddrExpr} (h : asMemory o = some e) : o.isMemory = true := by
  cases o with
  | empty | imm | reg => cases h
  | memDirect | memIndirect => rfl

theorem isRegister_or_isMemory_of_asDest {o : Operand} {d : Dest} (h : asDest o = some d) :
    (o.isRegister || o.isMemory) = true := by
  cases o with
  | empty | imm => cases h
  | reg | memDirect | memIndirect => rfl

/-- Settles O42: each opcode issues commands only where the operand kinds it looks for are there, and those are the kinds
it admits. -/
theorem kindsNotAdmitted : Obligations.KindsNotAdmitted := by
  intro s i hi ha
  suffices h : exec i s = engineNotImplemented s from h
  cases i <;> simp only [Instr.isCommand, Bool.true_eq_false] at hi <;> simp only [Instr.admitted] at ha <;>
    simp only [exec, execMov, execPush, execPop, execLeave, execCall, execRet, execAdd, execSub, execCmp, execJne,
      execJmp]
  case mov src dst =>
    split
    case h_3 => rfl
    all_goals
      rename_i hsrc hdst
      simp [isValue_of_asSource hsrc, isRegister_or_isMemory_of_asDest hdst] at ha
  case push src dst =>
    split
    · rename_i hsrc
      simp [isValue_of_asSource hsrc] at ha
    · rfl
  case pop src dst =>
    split
    · rename_i hdst
      simp [isRegister_of_asRegister hdst] at ha
    · rfl
  case leave src dst | ret src dst =>
    split
    · simp at ha
    · rfl
  case add src dst | sub src dst =>
    split
    · rename_i hsrc hdst
      simp [isValue_of_asSource hsrc, isRegister_of_asRegister hdst] at ha
    · rfl
  case cmp src dst =>
    split
    · rename_i hsrc hdst
      simp [isValue_of_asSource hsrc, isMemory_of_asMemory hdst] at ha
    · rfl
  case call src dst | jne src dst | jmp src dst =>
    split
    · rename_i hsrc
      simp [isTarget_of_asTarget hsrc] at ha
    · rfl
  case reservedTag11 | reservedTag12 | reservedTag13 | reservedTag14 | reservedTag15 => rfl

/-! ### The run -/

/-- Settles O50: a launch is an input of its own; the engine's turn is `fetchEngine`, branch by branch. -/
theorem engineRunLaunchesAndEnds : Obligations.EngineRunLaunchesAndEnds := by
  refine ⟨fun s prog exitRip rest hs => ?_, fun s s' ht => ⟨fun exitRip hrun => ⟨fun hrip => ?_, fun hrip hp => ?_⟩,
    fun hrun => ?_⟩⟩
  · simp only [step, fetch, hs]
  · simp [step, fetch_of_engineTurn ht, fetchEngine, hrun, hrip]
  · simp [step, fetch_of_engineTurn ht, fetchEngine, hrun, hrip, hp]
  · rcases hrun with hrun | hrun | ⟨e, info, hrun⟩ <;> simp only [step, fetch_of_engineTurn ht, fetchEngine, hrun]

end Sys2Proof.Machine
end

section
/-! Mov's two statements, apart since the model has their names in its own namespace (spec/46_engine.md R660). -/

namespace Sys2Proof

open Machine

/-- Settles O32: the source is read, the view written, and the advance does the rest. -/
theorem movToRegister : Obligations.MovToRegister := by
  intro s src x cell view v value hi hc hg hsrc hv hx
  obtain ⟨u, hacc, hpure, hmov⟩ := movToRegister_ok hi hc hg hv hx
  refine ⟨((u.writeView cell v value).setFlags Flags.clear).nextSlot, ?_, ?_, hacc.kept, hpure⟩
  · simp only [exec, execMov, hsrc, asDest, hmov, endEngine]
  · obtain ⟨c, m, rfl⟩ := hacc.frame.exists_eq
    rw [← State.noteRead_noteRead _ _ s.ripWr]
    rfl

/-- Settles O33: both operands are fixed and the value read, the word is stored, and the advance does the rest. -/
theorem movToMemory : Obligations.MovToMemory := by
  intro s src dst x e value pa hi hc hg hsrc hdst hx hpa
  obtain ⟨u, hacc, hst, hmov⟩ := movToMemory_ok hi hc hg hx hpa
  refine ⟨(u.setFlags Flags.clear).nextSlot, ?_, ?_, hst, hacc.kept⟩
  · simp only [exec, execMov, hsrc, hdst, hmov, endEngine]
  · obtain ⟨c, m, rfl⟩ := hacc.frame.exists_eq
    rw [← State.noteRead_noteRead _ _ s.ripWr]
    rfl

end Sys2Proof
end

section
/-! Errors are precise (spec/60_exceptions.md R702): what a command did, split by the STATUS of its answer. -/

namespace Sys2Proof.Machine

/-- An answer other than OK comes with no change beside it; any other change comes with OK. -/
theorem CommandDid.error_or_ok {i : Instr} {s t : State} (hd : CommandDid i s t) :
    (∃ e info, e ≠ .ok ∧ t = s.respond e info) ∨ ∃ u v, t = State.respond u .ok v := by
  cases hd with
  | error e info he ht => exact .inl ⟨e, info, he, ht⟩
  | _ =>
    rename_i ht
    exact .inr ⟨_, _, ht⟩

/-- What a request comes to, decoded or not, by the STATUS of its answer. -/
theorem request_error_or_ok {s t : State} {r : Request} {rest : List Input} (hs : s.inbox = .command r :: rest)
    (h : step s = .next t) :
    (∃ e info, e ≠ .ok ∧ t = { s with inbox := rest }.respond e info) ∨ ∃ u v, t = State.respond u .ok v := by
  cases hd : decodeRequest r with
  | error e =>
    rw [step_of_request_error hs hd] at h
    cases h
    exact .inl ⟨.notImplemented, _, by simp, rfl⟩
  | ok i =>
    rw [step_of_request_ok hs hd] at h
    exact (command_did (isCommand_of_decodeRequest hd) h).error_or_ok

/-- Settles O29: an answer that is not OK excludes every change, and what is left is the response itself. -/
theorem errorsChangeNothing : Obligations.ErrorsChangeNothing := by
  intro s t r rest a hs h hresp ha
  obtain ⟨e, info, _, rfl⟩ | ⟨u, v, rfl⟩ := request_error_or_ok hs h
  · rw [← hresp]
    rfl
  · rw [State.respond_resp, Option.some.injEq] at hresp
    subst hresp
    exact absurd rfl ha

end Sys2Proof.Machine
end

section
/-! An opcode-table word placed for the next step (spec/30_encoding.md R300, spec/46_engine.md R650; logs 8 and 11):
`placeEncoded` meets what each kind of step asks for, so the lemmas on one step say what runs. -/

namespace Sys2Proof.Machine

theorem decode_of_decodeTableWord {nbits w : Nat} {i : Instr} (h : decodeTableWord nbits w = some i) :
    decode (tableEncoded nbits w) = .ok i := by
  unfold decodeTableWord at h
  split at h <;> cases h
  assumption

theorem step_of_placed_request {s : State} {r : Request} {i : Instr} (hd : decodeRequest r = .ok i) :
    step (placeEncoded s (.request r)) = exec i s :=
  step_of_request_ok (s := placeEncoded s (.request r)) rfl hd

theorem add_slot_ne (a : Word) : a + slot ≠ a := by
  unfold slot
  bv_omega

/-- The exit address of a placed record is kept where it can be, and is elsewhere the slot after rip (log 8). -/
theorem placeEncoded_record_running (s : State) (r : Record) :
    ∃ exitRip, (placeEncoded s (.record r)).run = .running exitRip ∧ exitRip ≠ s.rip := by
  cases hrun : s.run with
  | running exitRip =>
    by_cases hrip : exitRip = s.rip
    · exact ⟨s.rip + slot, by simp [placeEncoded, hrun, hrip], add_slot_ne s.rip⟩
    · exact ⟨exitRip, by simp [placeEncoded, hrun, hrip], hrip⟩
  | idle | ended | faulted => exact ⟨s.rip + slot, by simp only [placeEncoded, hrun], add_slot_ne s.rip⟩

/-- A placed record meets every premise of `step_of_record_ok`: the turn, the run, and PROG at rip. -/
theorem step_of_placed_record {s : State} {r : Record} {i : Instr} {exitRip : Word} (hd : decodeRecord r = .ok i)
    (hrun : (placeEncoded s (.record r)).run = .running exitRip) (hrip : exitRip ≠ s.rip) :
    step (placeEncoded s (.record r)) = exec i { s.noteRead s.ripWr with
      prog := insertKey s.prog s.rip.toNat r, run := .running exitRip, gaps := [] } := by
  have hturn : (placeEncoded s (.record r)).engineTurn =
      some { placeEncoded s (.record r) with inbox := s.inbox, gaps := [] } := rfl
  have hprog : lookupKey (insertKey s.prog s.rip.toNat r) s.rip.toNat = some r := lookupKey_insertKey_self _ _ _
  rw [step_of_record_ok hturn hrun hrip.symm hprog hd, ← hrun]
  rfl

/-- Settles O52: a word of 16 bits is placed as a request and any other as a record, which changes PROG at rip alone. -/
theorem placedWordRuns : Obligations.PlacedWordRuns := by
  intro s nbits w i h
  have hd := decode_of_decodeTableWord h
  unfold State.withFetchWord
  constructor
  · intro hn
    rw [tableEncoded, if_pos hn] at hd ⊢
    exact step_of_placed_request hd
  · intro hn
    rw [tableEncoded, if_neg hn] at hd ⊢
    obtain ⟨exitRip, hrun, hrip⟩ := placeEncoded_record_running s (Record.ofBits (BitVec.ofNat 152 w))
    exact ⟨_, exitRip, step_of_placed_record hd hrun hrip, hrip, fun _ hkey => lookupKey_insertKey_ne _ _ hkey⟩

end Sys2Proof.Machine
end
